-- ==== Sys2Proof/Word.lean ====
section
/-! DEFINITION. The words of the block: bytes, bus addresses, access widths and directions (00_scope.md R7 and R8,
20_memory.md R60), and the one form every byte array of the block is held in. -/

namespace Sys2Proof

/-- A byte: 8 bits, bit 0 least significant (00_scope.md R8). -/
abbrev Byte := BitVec 8

/-- A 32-bit unsigned guest address (20_memory.md R61). -/
abbrev Addr := BitVec 32

/-- A byte array of the block (RAM, ROM, expansion RAM, disk image), as its (index, byte) pairs. An index no pair
lists holds `Memory.unlisted` (Machine/Memory.lean). -/
abbrev Memory := List Host.Cell

/-- The width of one bus access (20_memory.md R60): byte, word or long. -/
inductive Width
  | byte
  | word
  | long
deriving DecidableEq, Repr

/-- The direction of one bus access (00_scope.md R13). -/
inductive Dir
  | read
  | write
deriving DecidableEq, Repr

end Sys2Proof
end

