-- ==== Sys2Proof/Machine/Bits.lean ====
section
/-! DEFINITION. Single bits of a byte at a configured position (30_encoding.md R104 to R106). -/

namespace Sys2Proof.Machine

/-- `v[i]` (00_scope.md R8). -/
def bitAt (v : Byte) (i : Fin 8) : Bool := v.getLsbD i.val

/-- `(b ? 1 : 0) << i`. -/
def bitByte (b : Bool) (i : Fin 8) : Byte := if b then (1 : Byte) <<< i.val else 0

end Sys2Proof.Machine
end

