-- ==== Sys2Proof/Config.lean ====
section
/-! DEFINITION. The configuration record `Cfg` (00_scope.md R6), and the values the spec leaves free: what an
external USB handler answers (42_usb_bridge.md R180) and what a `draw` yields (00_scope.md R9). A free value is a
constant with no body, so no proof can rest on what it is. -/

namespace Sys2Proof

/-- EXP_OFFSET_MODE: which address enters the expansion formula (20_memory.md R73). -/
inductive OffsetMode
  | absolute
  | relative
deriving DecidableEq, Repr

/-- LEGACY_MULTI_STEP: the next-block increment of a CMD18 stream on a standard-capacity card
(45_sd_data_phase.md R259). -/
inductive MultiStep
  | one
  | block
deriving DecidableEq, Repr

/-- The state type σ of the USB handler (42_usb_bridge.md R180), as a finite byte list.
DESIGN CHOICE (log 7): the spec leaves σ abstract; every finite or countable σ has a code among the byte lists. -/
abbrev UsbState := List Byte

/-- USB_HANDLER (42_usb_bridge.md R180): the spec's example handler EXH (92_eei_decisions.md D60), or one of the
handlers the spec calls opaque, named by a number. -/
inductive UsbHandler
  | exh
  | external (id : Nat)
deriving DecidableEq, Repr

/-- `Cfg` (00_scope.md R6), one field for each row of its table. -/
structure Cfg where
  addrMask : BitVec 32
  ramBase : Addr
  ramSize : Nat
  romBase : Addr
  romSize : Nat
  expBase : Addr
  expSize : Nat
  ioBase : Addr
  ioLimit : Nat
  expOffsetMode : OffsetMode
  expBankReset : BitVec 32
  expBankAddr : Option Addr
  addrErrCheck : Bool
  romImage : List Byte
  ramImage : List Byte
  ramImageAddr : Addr
  duartSrAddr : Addr
  duartRbAddr : Addr
  duartTbAddr : Addr
  duartImrAddr : Addr
  /-- A set of addresses, listed without repeats. -/
  duartOtherAddrs : List Addr
  duartRxrdyBit : Fin 8
  duartTxrdyBit : Fin 8
  imrNonzeroEnables : Bool
  timerIrqLevel : Nat
  usbIrqLevel : Nat
  timerVector : Byte
  usbVector : Byte
  spuriousVector : Byte
  usbDataAddr : Addr
  usbCmdAddr : Addr
  usbHandler : UsbHandler
  usbSharesDisk : Bool
  spiOutAddr : Addr
  spiInAddr : Addr
  spiSckBit : Fin 8
  spiMosiBit : Fin 8
  spiCsBit : Fin 8
  spiMisoBit : Fin 8
  cardHc : Bool
  diskAttached : Bool
  diskLen : Nat
  reliableDisk : Bool
  maxBlockSize : Nat
  cmd0ResetsBlocklen : Bool
  inactiveIgnoresCommands : Bool
  legacyMultiStep : MultiStep
  cidBlock : List Byte
  ocrTail : List Byte
deriving DecidableEq, Repr

/-- The byte that draw number `n` of the run yields (00_scope.md R9). A free value (log 5). -/
opaque Config.drawByte : Nat → Byte

/-- The Bool that draw number `n` of the run yields (00_scope.md R9). A free value (log 5). -/
opaque Config.drawBool : Nat → Bool

/-- `init` of external handler `id` (42_usb_bridge.md R180). A free value (log 7). -/
opaque Config.extInit (id : Nat) : UsbState

/-- `cmdWrite` of external handler `id` (42_usb_bridge.md R180). A free value (log 7). -/
opaque Config.extCmdWrite (id : Nat) : UsbState → Memory → Byte → UsbState × Memory × Bool

/-- `dataWrite` of external handler `id` (42_usb_bridge.md R180). A free value (log 7). -/
opaque Config.extDataWrite (id : Nat) : UsbState → Memory → Byte → UsbState × Memory × Bool

/-- `dataRead` of external handler `id` (42_usb_bridge.md R180). A free value (log 7). -/
opaque Config.extDataRead (id : Nat) : UsbState → Memory → UsbState × Memory × Byte

end Sys2Proof
end

