-- ==== Sys2Proof/Machine/Configuration.lean ====
section
/-! DEFINITION. Which configurations have a run (70_reset_and_hazards.md R302; 20_memory.md R63; 30_encoding.md
R103), and the spec's example configuration EX (92_eei_decisions.md D60). -/

namespace Sys2Proof.Machine

/-- The half-open intervals `[b, e)` and `[b', e')` are disjoint. -/
def disjoint (b e b' e' : Nat) : Bool := e ≤ b' || e' ≤ b || e ≤ b || e' ≤ b'

/-- 20_memory.md R63(a): every region lies inside `[0, 2^32)`. -/
def regionsInside (c : Cfg) : Bool :=
  decide (c.ramBase.toNat + c.ramSize ≤ 2 ^ 32) && decide (c.romBase.toNat + c.romSize ≤ 2 ^ 32) &&
    decide (c.expBase.toNat + c.expSize ≤ 2 ^ 32) && decide (c.ioLimit ≤ 2 ^ 32)

/-- 20_memory.md R63(b): the four regions are pairwise disjoint. -/
def regionsDisjoint (c : Cfg) : Bool :=
  let ram := c.ramBase.toNat
  let rom := c.romBase.toNat
  let exp := c.expBase.toNat
  let io := c.ioBase.toNat
  disjoint ram (ram + c.ramSize) rom (rom + c.romSize) && disjoint ram (ram + c.ramSize) exp (exp + c.expSize) &&
    disjoint ram (ram + c.ramSize) io c.ioLimit && disjoint rom (rom + c.romSize) exp (exp + c.expSize) &&
    disjoint rom (rom + c.romSize) io c.ioLimit && disjoint exp (exp + c.expSize) io c.ioLimit

/-- 20_memory.md R63(d): ROM_IMAGE fits the ROM, and RAM_IMAGE lies inside RAM. An image of no bytes lies inside
(DEDUCED, log 12). -/
def imagesFit (c : Cfg) : Bool :=
  decide (c.romImage.length ≤ c.romSize) &&
    (c.ramImage.isEmpty ||
      (decide (c.ramBase.toNat ≤ c.ramImageAddr.toNat) &&
        decide (c.ramImageAddr.toNat + c.ramImage.length ≤ c.ramBase.toNat + c.ramSize)))

/-- The four byte addresses of the expansion base register, if it is configured (20_memory.md R72). -/
def bankAddrs (c : Cfg) : List Nat :=
  match c.expBankAddr with
  | none => []
  | some b => [b.toNat, b.toNat + 1, b.toNat + 2, b.toNat + 3]

/-- The read-only registers (30_encoding.md R103(b)). -/
def readOnlyAddrs (c : Cfg) : List Nat := [c.duartSrAddr.toNat, c.duartRbAddr.toNat, c.spiInAddr.toNat]

/-- The write-only registers (30_encoding.md R103(b)). -/
def writeOnlyAddrs (c : Cfg) : List Nat := [c.duartTbAddr.toNat, c.duartImrAddr.toNat, c.usbCmdAddr.toNat]

/-- The registers that share no address with anything (30_encoding.md R103(c)). -/
def unsharedAddrs (c : Cfg) : List Nat :=
  c.usbDataAddr.toNat :: c.spiOutAddr.toNat :: (bankAddrs c ++ c.duartOtherAddrs.map (·.toNat))

/-- 20_memory.md R63(e), 30_encoding.md R103(a): every device register lies in the I/O window. -/
def registersInIo (c : Cfg) : Bool :=
  (readOnlyAddrs c ++ writeOnlyAddrs c ++ unsharedAddrs c).all
    fun a => decide (c.ioBase.toNat ≤ a) && decide (a < c.ioLimit)

/-- 30_encoding.md R103(b) and (c): no address appears twice, but that a read-only register may share its address
with a write-only one. -/
def registersDistinct (c : Cfg) : Bool :=
  decide (readOnlyAddrs c ++ unsharedAddrs c).Nodup && decide (writeOnlyAddrs c ++ unsharedAddrs c).Nodup

/-- A level is in 1..7 (70_reset_and_hazards.md R302). -/
def levelOk (l : Nat) : Bool := decide (1 ≤ l) && decide (l ≤ 7)

/-- `valid(Cfg)` (70_reset_and_hazards.md R302). DISK_LEN is the image's length by construction: the image is held
as the bytes below DISK_LEN (log 6). -/
def validCfg (c : Cfg) : Bool :=
  regionsInside c && regionsDisjoint c && decide (1 ≤ c.expSize) && imagesFit c && registersInIo c &&
    registersDistinct c && decide (c.duartRxrdyBit ≠ c.duartTxrdyBit) && decide (c.spiCsBit ≠ c.spiSckBit) &&
    decide (c.spiCsBit ≠ c.spiMosiBit) && decide (c.spiSckBit ≠ c.spiMosiBit) && levelOk c.timerIrqLevel &&
    levelOk c.usbIrqLevel && decide (1 ≤ c.maxBlockSize) && decide (c.cidBlock.length = 18) &&
    decide (c.ocrTail.length = 3)

/-- The example configuration EX (92_eei_decisions.md D60). DESIGN CHOICE (log 1): the configuration that
`State.reset` runs under. The spec gives EX as an illustration, not as the board's map. -/
def exampleCfg : Cfg where
  addrMask := 0xFFFFFFFF
  ramBase := 0x00000000
  ramSize := 0x00100000
  romBase := 0x00FC0000
  romSize := 0x00040000
  expBase := 0x00100000
  expSize := 0x00100000
  ioBase := 0x00F00000
  ioLimit := 0x00F10000
  expOffsetMode := .absolute
  expBankReset := 0
  expBankAddr := none
  addrErrCheck := true
  romImage := [0x00, 0x00, 0x10, 0x00, 0x00, 0xFC, 0x00, 0x08]
  ramImage := []
  ramImageAddr := 0
  duartSrAddr := 0x00F00003
  duartRbAddr := 0x00F00007
  duartTbAddr := 0x00F00007
  duartImrAddr := 0x00F0000B
  duartOtherAddrs := [0x00F00001, 0x00F00005, 0x00F00009]
  duartRxrdyBit := 0
  duartTxrdyBit := 2
  imrNonzeroEnables := false
  timerIrqLevel := 4
  usbIrqLevel := 3
  timerVector := 0x1C
  usbVector := 0x1B
  spuriousVector := 0x18
  usbDataAddr := 0x00F00041
  usbCmdAddr := 0x00F00043
  usbHandler := .exh
  usbSharesDisk := false
  spiOutAddr := 0x00F00081
  spiInAddr := 0x00F00083
  spiSckBit := 0
  spiMosiBit := 1
  spiCsBit := 2
  spiMisoBit := 0
  cardHc := true
  diskAttached := true
  diskLen := 0x00100000
  reliableDisk := true
  maxBlockSize := 512
  cmd0ResetsBlocklen := false
  inactiveIgnoresCommands := false
  legacyMultiStep := .block
  cidBlock := List.replicate 18 0x00
  ocrTail := [0x00, 0x00, 0x00]

end Sys2Proof.Machine
end

