-- ==== Sys2Proof/Machine/Memory.lean ====
section
/-! DEFINITION. Byte arrays (10_state.md R21 to R23, R42): reading and writing one byte, runs of bytes, and the
canonical form, strictly rising indices below the array's size and no pair equal to what an unlisted index holds. -/

namespace Sys2Proof

/-- What an index that no pair lists holds. DESIGN CHOICE (log 6): the spec draws the bytes that no image covers
once at reset; a drawn byte is a listed pair, and a byte with no pair is 0x00. -/
def Memory.unlisted : Byte := 0x00

/-- The byte at index `i`. -/
def Memory.read : Memory → Nat → Byte
  | [], _ => Memory.unlisted
  | (k, x) :: m, i => if i = k then x else Memory.read m i

/-- The pair `(i, b)` in front of `m`, unless `b` is what an unlisted index holds. -/
def Memory.put (i : Nat) (b : Byte) (m : Memory) : Memory :=
  if b = Memory.unlisted then m else (i, b) :: m

/-- The array with byte `b` at index `i`. -/
def Memory.write : Memory → Nat → Byte → Memory
  | [], i, b => Memory.put i b []
  | (k, x) :: m, i, b =>
    if i < k then Memory.put i b ((k, x) :: m)
    else if i = k then Memory.put i b m
    else (k, x) :: Memory.write m i b

/-- The canonical form from index `lo` on, for an array of `size` bytes. -/
def Memory.wfFrom (lo size : Nat) : Memory → Bool
  | [] => true
  | (k, x) :: m =>
    decide (lo ≤ k) && decide (k < size) && decide (x ≠ Memory.unlisted) && Memory.wfFrom (k + 1) size m

/-- The canonical form of an array of `size` bytes. -/
def Memory.wf (size : Nat) (m : Memory) : Bool := Memory.wfFrom 0 size m

/-- The `n` bytes from index `off` on. -/
def Memory.readRange (m : Memory) (off n : Nat) : List Byte :=
  (List.range n).map fun i => Memory.read m (off + i)

/-- The array with the given bytes stored from index `off` on. -/
def Memory.writeRange (m : Memory) (off : Nat) : List Byte → Memory
  | [] => m
  | b :: bs => Memory.writeRange (Memory.write m off b) (off + 1) bs

/-- An array of `size` bytes with the given pairs, a later pair over an earlier one, pairs outside the array left
out. -/
def Memory.ofCells (size : Nat) (cells : List Host.Cell) : Memory :=
  cells.foldl (fun m p => if p.1 < size then Memory.write m p.1 p.2 else m) []

end Sys2Proof
end

