-- ==== Sys2Proof/Machine/UsbHandler.lean ====
section
/-! DEFINITION. USB_HANDLER (42_usb_bridge.md R180): the example handler EXH of 92_eei_decisions.md D60, and the
opaque external handlers (log 7). -/

namespace Sys2Proof

/-- `init`. -/
def UsbHandler.init : UsbHandler → UsbState
  | .exh => []
  | .external id => Config.extInit id

/-- `cmdWrite : σ × disk → Byte → σ × disk × Bool`; the Bool is "interrupt now". -/
def UsbHandler.cmdWrite (h : UsbHandler) (u : UsbState) (disk : Memory) (b : Byte) : UsbState × Memory × Bool :=
  match h with
  | .exh => (u ++ [b], disk, true)
  | .external id => Config.extCmdWrite id u disk b

/-- `dataWrite : σ × disk → Byte → σ × disk × Bool`. -/
def UsbHandler.dataWrite (h : UsbHandler) (u : UsbState) (disk : Memory) (b : Byte) : UsbState × Memory × Bool :=
  match h with
  | .exh => (u ++ [b], disk, false)
  | .external id => Config.extDataWrite id u disk b

/-- `dataRead : σ × disk → σ × disk × Byte`. -/
def UsbHandler.dataRead (h : UsbHandler) (u : UsbState) (disk : Memory) : UsbState × Memory × Byte :=
  match h with
  | .exh =>
    match u with
    | [] => ([], disk, 0x00)
    | b :: t => (t, disk, b)
  | .external id => Config.extDataRead id u disk

end Sys2Proof
end

