-- ==== Sys2Proof/Syntax.lean ====
section
/-! DEFINITION. The instructions of the block: one constructor for each of the 45 rows of spec/opcode_table.json
(30_encoding.md R117), and the two kinds of word that encode them, a bus transaction (R100) and an SD command frame
(R108). -/

namespace Sys2Proof

/-- One bus transaction (30_encoding.md R100; 00_scope.md R13): its transaction code, its address and its value.
A call that has no address or no value leaves that word 0.
DESIGN CHOICE (log 4): the spec gives each call a code and its operands, and no layout of them in bits. -/
structure Call where
  tcode : BitVec 8
  address : Addr
  value : BitVec 32
deriving DecidableEq, Repr

/-- The 6-byte command window (10_state.md R39): `b0` is `win[0]`, the oldest byte, and `b5` is `win[5]`. The six
bytes of an SD command frame (30_encoding.md R108) have the same form. -/
structure Window where
  b0 : Byte
  b1 : Byte
  b2 : Byte
  b3 : Byte
  b4 : Byte
  b5 : Byte
deriving DecidableEq, Repr

/-- The words of an instruction: a bus transaction, or an SD command frame. -/
inductive Encoded
  | call (k : Call)
  | frame (f : Window)
deriving DecidableEq, Repr

/-- The instructions. A bus or register row carries the guest address as the core passes it, before ADDR_MASK. An SD
row carries its argument and its CRC field, whether or not the command reads them (30_encoding.md R116). -/
inductive Instr
  -- bus rows (30_encoding.md R100)
  | readByte (address : Addr)
  | readWord (address : Addr)
  | readLong (address : Addr)
  | writeByte (address : Addr) (value : BitVec 8)
  | writeWord (address : Addr) (value : BitVec 16)
  | writeLong (address : Addr) (value : BitVec 32)
  | iack (level : BitVec 32)
  -- host event rows (30_encoding.md R100)
  | hostIn (byte : Byte)
  | tick
  | setbank (value : BitVec 32)
  -- device register rows (20_memory.md R76; 30_encoding.md R102)
  | duartStatusRead (address : Addr)
  | duartDataRead (address : Addr)
  | duartDataWrite (address : Addr) (value : Byte)
  | duartImrWrite (address : Addr) (value : Byte)
  | duartOtherWrite (address : Addr) (value : Byte)
  | duartOtherRead (address : Addr)
  | usbCmdWrite (address : Addr) (value : Byte)
  | usbDataWrite (address : Addr) (value : Byte)
  | usbDataRead (address : Addr)
  | usbCmdRead (address : Addr)
  | spiOutWrite (address : Addr) (value : Byte)
  | spiOutRead (address : Addr)
  | spiInRead (address : Addr)
  | spiInWrite (address : Addr) (value : Byte)
  | expBankWrite (address : Addr) (value : Byte)
  | expBankRead (address : Addr)
  | ioUnimplementedWrite (address : Addr) (value : Byte)
  | ioUnimplementedRead (address : Addr)
  -- SD command rows (30_encoding.md R111)
  | cmd0 (argument : BitVec 32) (crc : BitVec 7)
  | cmd1 (argument : BitVec 32) (crc : BitVec 7)
  | cmd8 (argument : BitVec 32) (crc : BitVec 7)
  | cmd9 (argument : BitVec 32) (crc : BitVec 7)
  | cmd10 (argument : BitVec 32) (crc : BitVec 7)
  | cmd12 (argument : BitVec 32) (crc : BitVec 7)
  | cmd13 (argument : BitVec 32) (crc : BitVec 7)
  | cmd16 (argument : BitVec 32) (crc : BitVec 7)
  | cmd17 (argument : BitVec 32) (crc : BitVec 7)
  | cmd18 (argument : BitVec 32) (crc : BitVec 7)
  | cmd24 (argument : BitVec 32) (crc : BitVec 7)
  | acmd41 (argument : BitVec 32) (crc : BitVec 7)
  | cmd41 (argument : BitVec 32) (crc : BitVec 7)
  | cmd55 (argument : BitVec 32) (crc : BitVec 7)
  | cmd58 (argument : BitVec 32) (crc : BitVec 7)
  | cmd59 (argument : BitVec 32) (crc : BitVec 7)
  | cmdUnrecognized (index : BitVec 6) (argument : BitVec 32) (crc : BitVec 7)
deriving DecidableEq, Repr

end Sys2Proof
end

