-- ==== Sys2Proof/Machine/State.lean ====
section
/-! DEFINITION. The state of the block (10_state.md R21 to R42), its faults, refusals and trace events, and the state
right after reset (70_reset_and_hazards.md R300, R301). -/

namespace Sys2Proof.Machine

/-- The faults (60_exceptions.md R270). An operation that raises one answers a next state in which the mark
`State.fault` holds it (R271); an operation from a marked state answers it as the host's fault, for no operation has a
step from there. -/
inductive Fault
  /-- Raised by a word or long access at an odd address, ADDR_ERR_CHECK true (20_memory.md R67; 60_exceptions.md
  R272): masked address, width, direction. Safe: the spec makes it fatal to the run. -/
  | addressError (a : Addr) (n : Width) (d : Dir)
  /-- Raised by a read of the DUART receive register with no character pending (41_duart.md R162; 60_exceptions.md
  R275): the register's address. Safe: the spec makes it a fault of the run. -/
  | duartEmptyRead (a : Addr)
deriving DecidableEq, Repr

/-- The refusals (60_exceptions.md R270), and the model's own. One of the spec's is marked in `State.refused` first,
as a fault is in `State.fault` (R271). -/
inductive Refusal
  /-- Raised by `exec` for an instruction that has no meaning yet. Safe: the machine stops. -/
  | notModelled (mnemonic : String)
  /-- Raised by a word or long access at an odd address, ADDR_ERR_CHECK false (20_memory.md R67). Safe: the spec
  refuses it. -/
  | misalignedUnchecked (a : Addr) (n : Width) (d : Dir)
  /-- Raised by an access whose bytes lie in different regions, or past 2^32 or the mask (20_memory.md R68). Safe:
  the spec refuses it. -/
  | straddle (a : Addr) (n : Width)
  /-- Raised by a word or long access to the I/O window (20_memory.md R77). Safe: the spec refuses it. -/
  | ioWidth (a : Addr) (n : Width) (d : Dir)
  /-- Raised by CMD16 with length 0 or above MAX_BLOCK_SIZE (44_sd_commands.md R223). Safe: the spec refuses it. -/
  | blockSize (len : Nat)
  /-- Raised by an SD block write past the end of the image (45_sd_data_phase.md R255). Safe: the spec refuses it. -/
  | diskExtend (off n : Nat)
  /-- Raised by a transaction code not in 30_encoding.md R100. Safe: the spec refuses it. -/
  | reservedTransaction (tcode : BitVec 8)
  /-- The model's own (log 2): `step` with no call waiting. The block has no step of its own (00_scope.md R5). Safe:
  nothing is claimed. -/
  | noCall
  /-- The model's own (log 12): `step` under a configuration that has no run (70_reset_and_hazards.md R302). Safe:
  nothing is claimed. -/
  | invalidConfiguration
deriving DecidableEq, Repr

/-- Which way an SD dump went (10_state.md R41; 44_sd_commands.md R210). -/
inductive SdDump
  | rx
  | tx
deriving DecidableEq, Repr

/-- The trace events (10_state.md R41). -/
inductive Event
  /-- One character to host standard output. -/
  | consoleOut (b : Byte)
  /-- `Breakpoint(a, WRITE)`, the one kind the block emits (20_memory.md R78). -/
  | breakpointWrite (a : Addr)
  | logBusError (a : Addr) (n : Width) (d : Dir)
  | logRomWrite (a : Addr) (n : Width) (v : BitVec 32)
  | logUnimplemented (a : Addr) (d : Dir) (v : Byte)
  | logAddressError (a : Addr) (n : Width) (d : Dir)
  | logSd (dump : SdDump) (bytes : List Byte)
deriving DecidableEq, Repr

/-- What a call answers to the guest core when it does not raise (00_scope.md R10; 60_exceptions.md R270). A value is
zero-extended to 32 bits (40_bus_operations.md R140). -/
inductive Reply
  /-- No call answered: nothing has run, or a host event, an SD latch or a raise ran last. -/
  | silent
  /-- `ok` of a write. -/
  | ok
  /-- `ok(v)` of a read or an acknowledge. -/
  | okValue (v : BitVec 32)
  /-- `ok_bus_error` of a write. -/
  | okBusError
  /-- `ok_bus_error(v)` of a read. -/
  | okBusErrorValue (v : BitVec 32)
deriving DecidableEq, Repr

/-- The twelve states of the SD session (10_state.md R33). -/
inductive SdState
  | idle
  | ready
  | ident
  | standby
  | transfer
  | data
  | dataMulti
  | receive
  | program
  | inactive
  | awaitingStartToken
  | receivingBlock
deriving DecidableEq, Repr

/-- The SPI framer (10_state.md R30 to R32). A pin level 1 is `true`. -/
structure Spi where
  /-- `s.spi_cs_n`; `false` selects the card. -/
  csN : Bool
  /-- `s.spi_sck` -/
  sck : Bool
  /-- `s.spi_mosi` -/
  mosi : Bool
  /-- `s.spi_in`, the receive shift register. -/
  shiftIn : Byte
  /-- `s.spi_count`, 0..7. -/
  count : Fin 8
  /-- `s.spi_out`, the byte going out on MISO. -/
  shiftOut : Byte
deriving DecidableEq, Repr

/-- The SD card session (10_state.md R33 to R39). -/
structure Sd where
  /-- `s.sd_state` -/
  state : SdState
  /-- `s.block_size` -/
  blockSize : BitVec 16
  /-- `s.out_buf` -/
  outBuf : List Byte
  /-- `s.out_pos` -/
  outPos : Nat
  /-- `s.in_buf` -/
  inBuf : List Byte
  /-- `s.in_count` -/
  inCount : Nat
  /-- `s.next_block` -/
  nextBlock : BitVec 32
  /-- `s.wr_block` -/
  wrBlock : BitVec 32
  /-- `s.app_cmd` -/
  appCmd : Bool
  /-- `s.win` -/
  win : Window
deriving DecidableEq, Repr

/-- The state of the block (10_state.md). The last three fields and `cfg` are the model's own (log 1, 2, 3, 5). -/
structure State where
  /-- The configuration the run is under (00_scope.md R6); no operation writes it (log 1). -/
  cfg : Cfg
  /-- `s.ram` (R21), RAM_SIZE bytes. -/
  ram : Memory
  /-- `s.rom` (R22), ROM_SIZE bytes. -/
  rom : Memory
  /-- `s.exp` (R23), EXP_SIZE bytes. -/
  exp : Memory
  /-- `s.exp_bank` (R24). -/
  expBank : BitVec 32
  /-- `s.timer_enabled` (R25). -/
  timerEnabled : Bool
  /-- `s.timer_pending` (R26). -/
  timerPending : Bool
  /-- `s.usb_pending` (R27). -/
  usbPending : Bool
  /-- `s.host_in` (R28), oldest first. -/
  hostIn : List Byte
  /-- `s.usb` (R29). -/
  usb : UsbState
  /-- R30 to R32. -/
  spi : Spi
  /-- R33 to R39. -/
  sd : Sd
  /-- `s.disk` (R42), DISK_LEN bytes. -/
  disk : Memory
  /-- `s.fault` (R40). -/
  fault : Option Fault
  /-- `s.refused` (R40). -/
  refused : Option Refusal
  /-- `s.trace` (R41), oldest first. -/
  trace : List Event
  /-- The calls and host events that the guest core and the host have still to make, next first (log 2). -/
  calls : List Call
  /-- What the last call answered (log 3). -/
  reply : Reply
  /-- How many draws the run has made (log 5). -/
  draws : Nat
deriving DecidableEq, Repr

/-- Six bytes of 0x00 (10_state.md R39; 44_sd_commands.md R215). -/
def clearedWindow : Window := ⟨0, 0, 0, 0, 0, 0⟩

/-- The SPI framer after reset (70_reset_and_hazards.md R300). -/
def Spi.reset : Spi where
  csN := true
  sck := false
  mosi := true
  shiftIn := 0x00
  count := 0
  shiftOut := 0xFF

/-- The SD session after reset (70_reset_and_hazards.md R300). -/
def Sd.reset : Sd where
  state := .idle
  blockSize := 512
  outBuf := []
  outPos := 0
  inBuf := []
  inCount := 0
  nextBlock := 0
  wrBlock := 0
  appCmd := false
  win := clearedWindow

/-- What the run, not the configuration, fixes at reset: the drawn bytes of RAM, ROM and expansion RAM, and the disk
image, each as (index, byte) pairs with every other byte 0x00 (70_reset_and_hazards.md R300; log 6). -/
structure ResetInputs where
  ramDraw : List Host.Cell
  romDraw : List Host.Cell
  expDraw : List Host.Cell
  diskImage : List Host.Cell
deriving DecidableEq, Repr

/-- The state right after reset, under configuration `c` (70_reset_and_hazards.md R300, R301). An image lies over the
drawn bytes (R303, R304). -/
def State.resetWith (c : Cfg) (r : ResetInputs) : State where
  cfg := c
  ram := Memory.writeRange (Memory.ofCells c.ramSize r.ramDraw) (c.ramImageAddr.toNat - c.ramBase.toNat) c.ramImage
  rom := Memory.writeRange (Memory.ofCells c.romSize r.romDraw) 0 c.romImage
  exp := Memory.ofCells c.expSize r.expDraw
  expBank := c.expBankReset
  timerEnabled := true
  timerPending := false
  usbPending := false
  hostIn := []
  usb := c.usbHandler.init
  spi := Spi.reset
  sd := Sd.reset
  disk := if c.diskAttached then Memory.ofCells c.diskLen r.diskImage else []
  fault := none
  refused := none
  trace := []
  calls := []
  reply := .silent
  draws := 0

/-- `reset(Cfg, …)` (70_reset_and_hazards.md R300): an invalid configuration has no run (R302). -/
def State.boot (c : Cfg) (r : ResetInputs) : Option State :=
  if validCfg c then some (State.resetWith c r) else none

/-- The machine right after reset, under EX, every drawn byte and every byte of the disk image 0x00 (DESIGN CHOICE,
log 1 and 6). -/
def State.reset : State := State.resetWith exampleCfg ⟨[], [], [], []⟩

end Sys2Proof.Machine
end

