-- ==== Sys2Proof/Machine/Flags.lean ====
section
/-! DEFINITION. The block has no condition codes (10_state.md R20). Its status values are computed here: the DUART
status byte (30_encoding.md R104), the SPI pin bytes (R105, R106) and the interrupt request output (60_exceptions.md
R279). -/

namespace Sys2Proof.Machine

/-- The DUART status byte (30_encoding.md R104; 41_duart.md R161): TxRDY always 1, RxRDY while a character is
pending, every other bit 0. -/
def duartStatusByte (c : Cfg) (hostIn : List Byte) : Byte :=
  bitByte true c.duartTxrdyBit ||| bitByte (!hostIn.isEmpty) c.duartRxrdyBit

/-- The pin levels as an SPI_OUT byte (30_encoding.md R105, R118). -/
def pinsByte (c : Cfg) (csN sck mosi : Bool) : Byte :=
  bitByte csN c.spiCsBit ||| bitByte sck c.spiSckBit ||| bitByte mosi c.spiMosiBit

/-- MISO (43_spi_framer.md R195): bit `7 - spi_count` of the byte going out while the card is selected, 1 otherwise. -/
def misoLevel (p : Spi) : Bool := p.csN || p.shiftOut.getLsbD (7 - p.count.val)

/-- The SPI_IN byte (30_encoding.md R106). -/
def misoByte (c : Cfg) (p : Spi) : Byte := bitByte (misoLevel p) c.spiMisoBit

/-- `ipl(s)`: the interrupt request output, the highest pending level, 0 for none (60_exceptions.md R279). -/
def ipl (s : State) : Nat :=
  max (if s.timerPending then s.cfg.timerIrqLevel else 0) (if s.usbPending then s.cfg.usbIrqLevel else 0)

end Sys2Proof.Machine
end

