-- ==== Sys2Proof/Machine/AddressMap.lean ====
section
/-! DEFINITION. The address map: masking, the four regions, `classify`, and the device register that an I/O address
selects for a read and for a write (20_memory.md R61 to R64, R68, R72, R76; 30_encoding.md R102, R103). -/

/-- The number of bytes of an access (20_memory.md R60). -/
def Sys2Proof.Width.bytes : Sys2Proof.Width → Nat
  | .byte => 1
  | .word => 2
  | .long => 4

namespace Sys2Proof.Machine

/-- The region an address lies in (20_memory.md R62, R64). -/
inductive Region
  | ram
  | rom
  | exp
  | io
  | unmapped
deriving DecidableEq, Repr

/-- What an I/O read selects: the read column of the table of 20_memory.md R76. -/
inductive ReadRow
  | duartStatus
  | duartData
  | duartOther
  | usbData
  | usbCmd
  | spiOut
  | spiIn
  | expBank (i : Fin 4)
  | unimplemented
deriving DecidableEq, Repr

/-- What an I/O write selects: the write column of the table of 20_memory.md R76. -/
inductive WriteRow
  | duartData
  | duartImr
  | duartOther
  | usbData
  | usbCmd
  | spiOut
  | spiIn
  | expBank (i : Fin 4)
  | unimplemented
deriving DecidableEq, Repr

/-- `a = address AND ADDR_MASK` (20_memory.md R61). -/
def maskAddr (c : Cfg) (address : Addr) : Addr := address &&& c.addrMask

/-- `a` lies in `[base, base + size)`. -/
def inWindow (base : Addr) (size a : Nat) : Bool := base.toNat ≤ a && a < base.toNat + size

/-- `a` lies in `[IO_BASE, IO_LIMIT)` (20_memory.md R62). -/
def inIo (c : Cfg) (a : Nat) : Bool := c.ioBase.toNat ≤ a && a < c.ioLimit

/-- `classify` (20_memory.md R64). -/
def classify (c : Cfg) (a : Nat) : Region :=
  if inWindow c.ramBase c.ramSize a then .ram
  else if inWindow c.romBase c.romSize a then .rom
  else if inWindow c.expBase c.expSize a then .exp
  else if inIo c a then .io
  else .unmapped

/-- Byte `i` of an access at `a` is admitted (20_memory.md R68): it lies below 2^32, the mask keeps it, and it lies
in the region of the first byte. -/
def byteAdmitted (c : Cfg) (a : Addr) (i : Nat) : Bool :=
  decide (a.toNat + i < 2 ^ 32) &&
    decide ((BitVec.ofNat 32 (a.toNat + i) &&& c.addrMask).toNat = a.toNat + i) &&
    decide (classify c (a.toNat + i) = classify c a.toNat)

/-- The access of width `n` at `a` straddles (20_memory.md R68): some byte of it is not admitted. -/
def straddles (c : Cfg) (a : Addr) (n : Width) : Bool :=
  !(List.range (n.bytes)).all (byteAdmitted c a)

/-- A word or long access at an odd address (20_memory.md R67). -/
def misaligned (a : Addr) (n : Width) : Bool :=
  decide (n ≠ .byte) && a.getLsbD 0

/-- The byte of the expansion base register at `a`, if EXP_BANK_ADDR is configured and `a` is one of its four
addresses (20_memory.md R72). -/
def bankIndex (c : Cfg) (a : Addr) : Option (Fin 4) :=
  match c.expBankAddr with
  | none => none
  | some b =>
    if a.toNat = b.toNat then some 0
    else if a.toNat = b.toNat + 1 then some 1
    else if a.toNat = b.toNat + 2 then some 2
    else if a.toNat = b.toNat + 3 then some 3
    else none

/-- The register a read of I/O address `a` selects (20_memory.md R76). The registers a read has an effect on come
before those it has none on, so in a shared pair a read selects the read-only register (30_encoding.md R103). -/
def readRow (c : Cfg) (a : Addr) : ReadRow :=
  if a = c.duartSrAddr then .duartStatus
  else if a = c.duartRbAddr then .duartData
  else if a = c.spiInAddr then .spiIn
  else if a = c.usbDataAddr then .usbData
  else if a = c.spiOutAddr then .spiOut
  else match bankIndex c a with
    | some i => .expBank i
    | none =>
      if a = c.duartTbAddr then .duartOther
      else if a = c.duartImrAddr then .duartOther
      else if c.duartOtherAddrs.contains a then .duartOther
      else if a = c.usbCmdAddr then .usbCmd
      else .unimplemented

/-- The register a write of I/O address `a` selects (20_memory.md R76). The registers a write has an effect on come
before those it has none on, so in a shared pair a write selects the write-only register (30_encoding.md R103). -/
def writeRow (c : Cfg) (a : Addr) : WriteRow :=
  if a = c.duartTbAddr then .duartData
  else if a = c.duartImrAddr then .duartImr
  else if a = c.usbCmdAddr then .usbCmd
  else if a = c.usbDataAddr then .usbData
  else if a = c.spiOutAddr then .spiOut
  else match bankIndex c a with
    | some i => .expBank i
    | none =>
      if a = c.duartSrAddr then .duartOther
      else if a = c.duartRbAddr then .duartOther
      else if c.duartOtherAddrs.contains a then .duartOther
      else if a = c.spiInAddr then .spiIn
      else .unimplemented

end Sys2Proof.Machine
end

