-- ==== Sys2Proof/Machine/Operands.lean ====
section
/-! DEFINITION. Operand forms: the big-endian assembly of bus values (20_memory.md R65, R66), the expansion window's
physical index (R73), the bytes of the expansion base register (R72), the command window's shift (44_sd_commands.md
R211), and the offset of a block argument (45_sd_data_phase.md R253). -/

namespace Sys2Proof.Machine

/-- The value of the given bytes, most significant first, zero-extended to 32 bits (20_memory.md R65). -/
def beValue (bytes : List Byte) : BitVec 32 := bytes.foldl (fun acc b => (acc <<< 8) ||| b.setWidth 32) 0

/-- Byte `i` of an `n`-byte value: `v[8(n-1-i)+7 : 8(n-1-i)]` (20_memory.md R66). -/
def beByte (n : Nat) (v : BitVec 32) (i : Nat) : Byte := v.extractLsb' (8 * (n - 1 - i)) 8

/-- The bytes of an `n`-byte value, most significant first (20_memory.md R66). -/
def beBytes (n : Nat) (v : BitVec 32) : List Byte := (List.range n).map (beByte n v)

/-- `phys` (20_memory.md R73): the index in the expansion store of the byte at address `a`. The sum is exact, with no
32-bit wrap before the mod. -/
def expPhys (c : Cfg) (bank : BitVec 32) (a : Nat) : Nat :=
  let x := match c.expOffsetMode with
    | .absolute => a
    | .relative => a - c.expBase.toNat
  (x + bank.toNat) % c.expSize

/-- Byte `i` of the expansion base register, byte 0 most significant: `s.exp_bank[31-8i : 24-8i]` (20_memory.md
R72). -/
def bankByte (bank : BitVec 32) (i : Fin 4) : Byte := bank.extractLsb' (24 - 8 * i.val) 8

/-- The expansion base register with byte `i` replaced (20_memory.md R72). -/
def setBankByte (bank : BitVec 32) (i : Fin 4) (b : Byte) : BitVec 32 :=
  (bank &&& ~~~((0xFF : BitVec 32) <<< (24 - 8 * i.val))) ||| (b.setWidth 32 <<< (24 - 8 * i.val))

/-- `s.win[0..4] <- s.win[1..5]; s.win[5] <- b` (44_sd_commands.md R211). -/
def shiftWindow (w : Window) (b : Byte) : Window := ⟨w.b1, w.b2, w.b3, w.b4, w.b5, b⟩

/-- `length16 = argument[15:0]`, of CMD16 only (30_encoding.md R110). -/
def blockLength (argument : BitVec 32) : BitVec 16 := argument.extractLsb' 0 16

/-- `block_offset(n)` (45_sd_data_phase.md R253), in unbounded naturals. -/
def blockOffset (c : Cfg) (blockSize : BitVec 16) (n : BitVec 32) : Nat :=
  if c.cardHc then n.toNat * blockSize.toNat else n.toNat

/-- The last byte of a frame with the given CRC field: `(crc << 1) | 1` (30_encoding.md R108). -/
def stopByte (crc : BitVec 7) : Byte := crc ++ (0b1 : BitVec 1)

end Sys2Proof.Machine
end

