-- ==== Sys2Proof/Machine/OutcomeCodes.lean ====
section
/-! DEFINITION. The codes of the outcomes (60_exceptions.md R270). -/

namespace Sys2Proof.Machine

/-- The code of a fault (60_exceptions.md R270). -/
def Fault.code : Fault → BitVec 8
  | .addressError _ _ _ => 0x10
  | .duartEmptyRead _ => 0x11

/-- The code of a refusal (60_exceptions.md R270); none for the model's own refusals, which the spec does not list. -/
def Refusal.code : Refusal → Option (BitVec 8)
  | .misalignedUnchecked _ _ _ => some 0x20
  | .straddle _ _ => some 0x21
  | .ioWidth _ _ _ => some 0x22
  | .blockSize _ => some 0x23
  | .diskExtend _ _ => some 0x24
  | .reservedTransaction _ => some 0x25
  | _ => none

/-- The code of what a call returned (60_exceptions.md R270); none where nothing was returned. -/
def Reply.code : Reply → Option (BitVec 8)
  | .silent => none
  | .ok => some 0x00
  | .okValue _ => some 0x00
  | .okBusError => some 0x01
  | .okBusErrorValue _ => some 0x01

/-- The code of the outcome a state shows: its mark's, or else that of what the last call returned (60_exceptions.md
R270, R276). -/
def State.outcomeCode (s : State) : Option (BitVec 8) :=
  match s.fault with
  | some f => some f.code
  | none =>
    match s.refused with
    | some r => r.code
    | none => s.reply.code

end Sys2Proof.Machine
end

