-- ==== Sys2Proof/Machine/Ops.lean ====
section
/-! DEFINITION. The shared operations: raising a fault or a refusal and the marks it leaves (60_exceptions.md R270,
R271), running one operation (R276), emitting events, draws (00_scope.md R9), the checks every bus access makes
(20_memory.md R67, R68), the bytes of a region (R69 to R73), and the SD output queue and disk (45_sd_data_phase.md
R250 to R255).

The block takes and returns from no exception (60_exceptions.md R283, R284). `raise` is its one way to end an
operation early. -/

namespace Sys2Proof.Machine

open Host (Outcome)

/-- What a `raise` names: a fault or a refusal of 60_exceptions.md R270. -/
inductive Raise
  | fault (f : Fault)
  | refuse (r : Refusal)
deriving DecidableEq, Repr

/-- The code of what a `raise` names (60_exceptions.md R270). -/
def Raise.code : Raise → Option (BitVec 8)
  | .fault f => some f.code
  | .refuse r => r.code

/-- The result of an operation: it completes, or it raises, with the trace as it stood at the raise
(60_exceptions.md R271: only the events emitted before the raise survive it). -/
inductive Res (α : Type)
  | done (a : α)
  | raised (x : Raise) (trace : List Event)
deriving Repr

/-- One operation, then the next unless the first raises. -/
def Res.bind {α β : Type} : Res α → (α → Res β) → Res β
  | .done a, f => f a
  | .raised x t, _ => .raised x t

/-- A total function after an operation. -/
def Res.map {α β : Type} (f : α → β) (r : Res α) : Res β := r.bind fun a => .done (f a)

/-- `s.fault` after the raise (60_exceptions.md R271). -/
def Raise.faultMark (x : Raise) (old : Option Fault) : Option Fault :=
  match x with
  | .fault f => some f
  | .refuse _ => old

/-- `s.refused` after the raise (60_exceptions.md R271). -/
def Raise.refusalMark (x : Raise) (old : Option Refusal) : Option Refusal :=
  match x with
  | .fault _ => old
  | .refuse r => some r

/-- The state a raise leaves (60_exceptions.md R271): the state before the operation, with the mark set and the
events emitted before the raise. -/
def mark (s : State) (x : Raise) (trace : List Event) : State :=
  { s with fault := x.faultMark s.fault, refused := x.refusalMark s.refused, trace := trace, reply := .silent }

/-- `k` of the state, unless a mark is set: from a marked state no operation has a step (60_exceptions.md R271). -/
def ifUnmarked (s : State) (k : Outcome State Fault Refusal) : Outcome State Fault Refusal :=
  match s.fault with
  | some f => .fault f
  | none =>
    match s.refused with
    | some r => .refused r
    | none => k

/-- The state a result leaves: the operation's own, with its reply, or the marked state. -/
def conclude (s : State) : Res (State × Reply) → State
  | .done (t, y) => { t with reply := y }
  | .raised x tr => mark s x tr

/-- One operation, call or host event: the mark check, then its one outcome (60_exceptions.md R271, R276). -/
def perform (s : State) (op : State → Res (State × Reply)) : Outcome State Fault Refusal :=
  ifUnmarked s (.next (conclude s (op s)))

/-- A register read: `ok(v)`, zero-extended to the caller's 32-bit result (40_bus_operations.md R140). -/
def performRead (s : State) (op : State → Res (State × Byte)) : Outcome State Fault Refusal :=
  perform s fun s => (op s).map fun p => (p.1, .okValue (p.2.setWidth 32))

/-- A register write: `ok`. -/
def performWrite (s : State) (op : State → Res State) : Outcome State Fault Refusal :=
  perform s fun s => (op s).map fun t => (t, .ok)

/-- A host event: it has no outcome (41_duart.md R167; 60_exceptions.md R280). -/
def performEvent (s : State) (op : State → State) : Outcome State Fault Refusal :=
  perform s fun s => .done (op s, .silent)

/-- `emit e` (00_scope.md R9). -/
def emit (s : State) (e : Event) : State := { s with trace := s.trace ++ [e] }

/-- `draw byte` (00_scope.md R9): a free value, a fresh one at each draw (log 5). -/
def drawByte (s : State) : State × Byte := ({ s with draws := s.draws + 1 }, Config.drawByte s.draws)

/-- The checks a bus access makes before its region is looked at, alignment first (20_memory.md R67, R68, R75). -/
def checkAccess (s : State) (a : Addr) (n : Width) (d : Dir) : Res Unit :=
  if misaligned a n then
    if s.cfg.addrErrCheck then .raised (.fault (.addressError a n d)) (s.trace ++ [.logAddressError a n d])
    else .raised (.refuse (.misalignedUnchecked a n d)) s.trace
  else if straddles s.cfg a n then .raised (.refuse (.straddle a n)) s.trace
  else .done ()

/-- The byte of RAM, ROM or expansion RAM at address `a`; 0 where there is no memory (20_memory.md R69, R70, R73,
R74). -/
def regionByte (s : State) (r : Region) (a : Nat) : Byte :=
  match r with
  | .ram => Memory.read s.ram (a - s.cfg.ramBase.toNat)
  | .rom => Memory.read s.rom (a - s.cfg.romBase.toNat)
  | .exp => Memory.read s.exp (expPhys s.cfg s.expBank a)
  | .io => 0
  | .unmapped => 0

/-- Byte `b` stored at address `a` of RAM or expansion RAM (20_memory.md R69, R73); nothing elsewhere (R71, R74). -/
def setRegionByte (s : State) (r : Region) (a : Nat) (b : Byte) : State :=
  match r with
  | .ram => { s with ram := Memory.write s.ram (a - s.cfg.ramBase.toNat) b }
  | .exp => { s with exp := Memory.write s.exp (expPhys s.cfg s.expBank a) b }
  | .rom => s
  | .io => s
  | .unmapped => s

/-- The bytes at `a, a+1, …` (20_memory.md R65). -/
def regionBytes (s : State) (r : Region) (a n : Nat) : List Byte :=
  (List.range n).map fun i => regionByte s r (a + i)

/-- The bytes stored at `a, a+1, …`, lowest address first (20_memory.md R66). -/
def setRegionBytes (s : State) (r : Region) (a : Nat) : List Byte → State
  | [] => s
  | b :: bs => setRegionBytes (setRegionByte s r a b) r (a + 1) bs

/-- What the SD card works on: its session and disk, and the run's draws and trace (44_sd_commands.md R236: no other
state is the card's). -/
structure Card where
  sd : Sd
  disk : Memory
  draws : Nat
  trace : List Event
deriving DecidableEq, Repr

/-- The card of a state. -/
def State.card (s : State) : Card := ⟨s.sd, s.disk, s.draws, s.trace⟩

/-- A state with its card replaced. -/
def State.withCard (s : State) (k : Card) : State :=
  { s with sd := k.sd, disk := k.disk, draws := k.draws, trace := k.trace }

/-- An SD command row: the card takes the frame; no value goes to the core (log 11). -/
def performCard (s : State) (op : Card → Res Card) : Outcome State Fault Refusal :=
  perform s fun s => (op s.card).map fun k => (s.withCard k, .silent)

/-- `emit LogSd(…)` (44_sd_commands.md R210; log 9). -/
def Card.log (k : Card) (d : SdDump) (bytes : List Byte) : Card := { k with trace := k.trace ++ [.logSd d bytes] }

/-- `queue(bytes)` (45_sd_data_phase.md R250): the response replaces whatever was still queued. -/
def Card.queue (k : Card) (bytes : List Byte) : Card :=
  { k with sd := { k.sd with outBuf := bytes, outPos := 0 } }.log .tx bytes

/-- The session enters state `x`. -/
def Card.enter (k : Card) (x : SdState) : Card := { k with sd := { k.sd with state := x } }

/-- The output is drained (10_state.md R35; 45_sd_data_phase.md R259). -/
def Card.drained (k : Card) : Bool := !decide (k.sd.outPos < k.sd.outBuf.length)

/-- `poll()` (45_sd_data_phase.md R251): the next queued byte, if any, and the queue past it. -/
def Card.poll (k : Card) : Option Byte × Card :=
  match k.sd.outBuf[k.sd.outPos]? with
  | some b => (some b, { k with sd := { k.sd with outPos := k.sd.outPos + 1 } })
  | none => (none, k)

/-- `draw Bool` (00_scope.md R9; log 5). -/
def Card.drawBool (k : Card) : Card × Bool := ({ k with draws := k.draws + 1 }, Config.drawBool k.draws)

/-- `n` drawn bytes (45_sd_data_phase.md R260; log 5). -/
def Card.drawBytes (k : Card) (n : Nat) : Card × List Byte :=
  ({ k with draws := k.draws + n }, (List.range n).map fun i => Config.drawByte (k.draws + i))

/-- `disk_read(off, n)` (45_sd_data_phase.md R254): `none` where it fails. -/
def Card.diskRead (c : Cfg) (k : Card) (off n : Nat) : Card × Option (List Byte) :=
  if !c.diskAttached || decide (c.diskLen < off + n) then (k, none)
  else if c.reliableDisk then (k, some (Memory.readRange k.disk off n))
  else
    match k.drawBool with
    | (k, true) => (k, some (Memory.readRange k.disk off n))
    | (k, false) => (k, none)

/-- `disk_write(off, data)` (45_sd_data_phase.md R255). -/
def Card.diskWrite (c : Cfg) (k : Card) (off : Nat) (data : List Byte) : Res (Card × Bool) :=
  if !c.diskAttached then .done (k, false)
  else if c.diskLen < off + data.length then .raised (.refuse (.diskExtend off data.length)) k.trace
  else if c.reliableDisk then .done ({ k with disk := Memory.writeRange k.disk off data }, true)
  else
    match k.drawBool with
    | (k, true) => .done ({ k with disk := Memory.writeRange k.disk off data }, true)
    | (k, false) => .done (k, false)

end Sys2Proof.Machine
end

