-- ==== Sys2Proof/Machine/Duart.lean ====
section
/-! DEFINITION. The DUART register model (41_duart.md R160 to R167), and the reads and writes with no modelled value
or effect, which it shares with the rest of the I/O window (20_memory.md R76). -/

namespace Sys2Proof.Machine

open Host (Outcome)

/-- `IoRead(DUART_SR_ADDR)` (41_duart.md R161): no input is consumed. -/
def duartStatusRead (s : State) : Res (State × Byte) := .done (s, duartStatusByte s.cfg s.hostIn)

/-- `IoRead(DUART_RB_ADDR)` (41_duart.md R162): the oldest pending character, a fault if there is none
(60_exceptions.md R275). -/
def duartDataRead (s : State) : Res (State × Byte) :=
  match s.hostIn with
  | [] => .raised (.fault (.duartEmptyRead s.cfg.duartRbAddr)) s.trace
  | b :: rest => .done ({ s with hostIn := rest }, b)

/-- `IoWrite(DUART_TB_ADDR, b)` (41_duart.md R163). -/
def duartDataWrite (b : Byte) (s : State) : Res State := .done (emit s (.consoleOut b))

/-- `IoWrite(DUART_IMR_ADDR, b)` (41_duart.md R164). A pending tick stays pending. -/
def duartImrWrite (b : Byte) (s : State) : Res State :=
  .done { s with
    timerEnabled := if b = 0x00 then false else if s.cfg.imrNonzeroEnables then true else s.timerEnabled }

/-- A write with no modelled effect: logged, nothing stored (41_duart.md R165; 20_memory.md R76). -/
def unimplementedWrite (a : Addr) (b : Byte) (s : State) : Res State := .done (emit s (.logUnimplemented a .write b))

/-- A read with no modelled value: logged, and a fresh draw (41_duart.md R166; 20_memory.md R76). -/
def unimplementedRead (a : Addr) (s : State) : Res (State × Byte) :=
  .done (drawByte (emit s (.logUnimplemented a .read 0)))

/-- The meaning of `duart_status_read` (41_duart.md R161). -/
def execDuartStatusRead (_address : Addr) (s : State) : Outcome State Fault Refusal := performRead s duartStatusRead

/-- The meaning of `duart_data_read` (41_duart.md R162). -/
def execDuartDataRead (_address : Addr) (s : State) : Outcome State Fault Refusal := performRead s duartDataRead

/-- The meaning of `duart_data_write` (41_duart.md R163). -/
def execDuartDataWrite (_address : Addr) (value : Byte) (s : State) : Outcome State Fault Refusal :=
  performWrite s (duartDataWrite value)

/-- The meaning of `duart_imr_write` (41_duart.md R164). -/
def execDuartImrWrite (_address : Addr) (value : Byte) (s : State) : Outcome State Fault Refusal :=
  performWrite s (duartImrWrite value)

/-- The meaning of `duart_other_write` (41_duart.md R165). -/
def execDuartOtherWrite (address : Addr) (value : Byte) (s : State) : Outcome State Fault Refusal :=
  performWrite s (unimplementedWrite (maskAddr s.cfg address) value)

/-- The meaning of `duart_other_read` (41_duart.md R166). -/
def execDuartOtherRead (address : Addr) (s : State) : Outcome State Fault Refusal :=
  performRead s (unimplementedRead (maskAddr s.cfg address))

/-- The host event `HOST_IN b` (41_duart.md R167). -/
def hostInput (b : Byte) (s : State) : State := { s with hostIn := s.hostIn ++ [b] }

/-- The meaning of `host_in` (41_duart.md R167). -/
def execHostIn (byte : Byte) (s : State) : Outcome State Fault Refusal := performEvent s (hostInput byte)

end Sys2Proof.Machine
end

