-- ==== Sys2Proof/Machine/ExpansionBank.lean ====
section
/-! DEFINITION. The expansion base register (20_memory.md R72): the host event SETBANK and the four optional byte
registers. -/

namespace Sys2Proof.Machine

open Host (Outcome)

/-- A byte read at EXP_BANK_ADDR + i (20_memory.md R72). -/
def expBankRead (i : Fin 4) (s : State) : Res (State × Byte) := .done (s, bankByte s.expBank i)

/-- A byte write at EXP_BANK_ADDR + i (20_memory.md R72). -/
def expBankWrite (i : Fin 4) (b : Byte) (s : State) : Res State :=
  .done { s with expBank := setBankByte s.expBank i b }

/-- The host event `SETBANK v` (20_memory.md R72). -/
def setBank (v : BitVec 32) (s : State) : State := { s with expBank := v }

/-- The meaning of `exp_bank_read` (20_memory.md R72). At an address that is none of the four, which no well-formed
instruction holds, it is a read with no modelled value (R76). -/
def execExpBankRead (address : Addr) (s : State) : Outcome State Fault Refusal :=
  performRead s fun s =>
    match bankIndex s.cfg (maskAddr s.cfg address) with
    | some i => expBankRead i s
    | none => unimplementedRead (maskAddr s.cfg address) s

/-- The meaning of `exp_bank_write` (20_memory.md R72). At an address that is none of the four, which no well-formed
instruction holds, it is a write with no modelled effect (R76). -/
def execExpBankWrite (address : Addr) (value : Byte) (s : State) : Outcome State Fault Refusal :=
  performWrite s fun s =>
    match bankIndex s.cfg (maskAddr s.cfg address) with
    | some i => expBankWrite i value s
    | none => unimplementedWrite (maskAddr s.cfg address) value s

/-- The meaning of `setbank` (20_memory.md R72). -/
def execSetbank (value : BitVec 32) (s : State) : Outcome State Fault Refusal := performEvent s (setBank value)

end Sys2Proof.Machine
end

