-- ==== Sys2Proof/WellFormed.lean ====
section
/-! DEFINITION. Well-formed instructions: which row of spec/opcode_table.json a word belongs to, under a
configuration and an application-command flag (30_encoding.md R111, R117; 20_memory.md R76). -/

namespace Sys2Proof

/-- The command that a valid frame selects (30_encoding.md R111). -/
inductive SdKey
  | cmd0
  | cmd1
  | cmd8
  | cmd9
  | cmd10
  | cmd12
  | cmd13
  | cmd16
  | cmd17
  | cmd18
  | cmd24
  | acmd41
  | cmd41
  | cmd55
  | cmd58
  | cmd59
  | unrecognized
deriving DecidableEq, Repr

/-- The command indices of 30_encoding.md R111; every other index is unrecognized (44_sd_commands.md R234). -/
def sdIndices : List Nat := [0, 1, 8, 9, 10, 12, 13, 16, 17, 18, 24, 41, 55, 58, 59]

open Machine in
/-- The read at `address` is an I/O read that selects `row` (20_memory.md R75, R76). -/
def Instr.readsRow (c : Cfg) (address : Addr) (row : ReadRow) : Bool :=
  decide (classify c (maskAddr c address).toNat = .io) && decide (readRow c (maskAddr c address) = row)

open Machine in
/-- The write at `address` is an I/O write that selects `row` (20_memory.md R75, R76). -/
def Instr.writesRow (c : Cfg) (address : Addr) (row : WriteRow) : Bool :=
  decide (classify c (maskAddr c address).toNat = .io) && decide (writeRow c (maskAddr c address) = row)

open Machine in
/-- The access at `address` is in the I/O window. -/
def Instr.isIo (c : Cfg) (address : Addr) : Bool := decide (classify c (maskAddr c address).toNat = .io)

open Machine in
/-- The instruction is the row its word belongs to, under configuration `c` and application-command flag `app`. A
byte access in the I/O window belongs to its register's row, not to `read_byte` or `write_byte` (log 10). -/
def Instr.wellFormed (c : Cfg) (app : Bool) : Instr → Bool
  | .readByte a => !Instr.isIo c a
  | .readWord _ => true
  | .readLong _ => true
  | .writeByte a _ => !Instr.isIo c a
  | .writeWord _ _ => true
  | .writeLong _ _ => true
  | .iack _ => true
  | .hostIn _ => true
  | .tick => true
  | .setbank _ => true
  | .duartStatusRead a => Instr.readsRow c a .duartStatus
  | .duartDataRead a => Instr.readsRow c a .duartData
  | .duartDataWrite a _ => Instr.writesRow c a .duartData
  | .duartImrWrite a _ => Instr.writesRow c a .duartImr
  | .duartOtherWrite a _ => Instr.writesRow c a .duartOther
  | .duartOtherRead a => Instr.readsRow c a .duartOther
  | .usbCmdWrite a _ => Instr.writesRow c a .usbCmd
  | .usbDataWrite a _ => Instr.writesRow c a .usbData
  | .usbDataRead a => Instr.readsRow c a .usbData
  | .usbCmdRead a => Instr.readsRow c a .usbCmd
  | .spiOutWrite a _ => Instr.writesRow c a .spiOut
  | .spiOutRead a => Instr.readsRow c a .spiOut
  | .spiInRead a => Instr.readsRow c a .spiIn
  | .spiInWrite a _ => Instr.writesRow c a .spiIn
  | .expBankWrite a _ => (List.finRange 4).any fun i => Instr.writesRow c a (.expBank i)
  | .expBankRead a => (List.finRange 4).any fun i => Instr.readsRow c a (.expBank i)
  | .ioUnimplementedWrite a _ => Instr.writesRow c a .unimplemented
  | .ioUnimplementedRead a => Instr.readsRow c a .unimplemented
  | .cmd0 _ _ => true
  | .cmd1 _ _ => true
  | .cmd8 _ _ => true
  | .cmd9 _ _ => true
  | .cmd10 _ _ => true
  | .cmd12 _ _ => true
  | .cmd13 _ _ => true
  | .cmd16 _ _ => true
  | .cmd17 _ _ => true
  | .cmd18 _ _ => true
  | .cmd24 _ _ => true
  | .acmd41 _ _ => app
  | .cmd41 _ _ => !app
  | .cmd55 _ _ => true
  | .cmd58 _ _ => true
  | .cmd59 _ _ => true
  | .cmdUnrecognized i _ _ => !sdIndices.contains i.toNat

end Sys2Proof
end

