-- ==== Sys2Proof/Decode.lean ====
section
/-! DEFINITION. The decoder, total on any transaction and any six bytes, and the encoder (30_encoding.md R100, R108
to R111, R117; 20_memory.md R76). -/

namespace Sys2Proof

open Machine (maskAddr classify readRow writeRow exampleCfg)

/-- Why a word is no instruction. -/
inductive DecodeError
  /-- The transaction code is not in the table of 30_encoding.md R100. -/
  | reservedTransaction (tcode : BitVec 8)
  /-- The six bytes are no valid command frame (30_encoding.md R109). -/
  | notAFrame
deriving DecidableEq, Repr

/-- A valid frame: the top two bits of the first byte are 01, and the stop bit of the last byte is 1 (30_encoding.md
R109). No other field is checked. -/
def Window.valid (f : Window) : Bool :=
  decide (f.b0 &&& 0xC0 = 0x40) && decide (f.b5 &&& 0x01 = 0x01)

/-- The command index, `win[0][5:0]` (30_encoding.md R110). -/
def Window.index (f : Window) : BitVec 6 := f.b0.extractLsb' 0 6

/-- The 32-bit big-endian argument (30_encoding.md R110). -/
def Window.argument (f : Window) : BitVec 32 := f.b1 ++ f.b2 ++ f.b3 ++ f.b4

/-- The CRC7 field, bits 7..1 of the last byte (30_encoding.md R108); nothing checks it. -/
def Window.crc (f : Window) : BitVec 7 := f.b5.extractLsb' 1 7

/-- `key(idx, app)`: the dispatch key (30_encoding.md R111). Only index 41 depends on the flag. -/
def sdKey (index : BitVec 6) (app : Bool) : SdKey :=
  match index.toNat with
  | 0 => .cmd0
  | 1 => .cmd1
  | 8 => .cmd8
  | 9 => .cmd9
  | 10 => .cmd10
  | 12 => .cmd12
  | 13 => .cmd13
  | 16 => .cmd16
  | 17 => .cmd17
  | 18 => .cmd18
  | 24 => .cmd24
  | 41 => if app then .acmd41 else .cmd41
  | 55 => .cmd55
  | 58 => .cmd58
  | 59 => .cmd59
  | _ => .unrecognized

/-- The instruction of a frame, given the application-command flag (30_encoding.md R109 to R111). -/
def decodeFrame (app : Bool) (f : Window) : Except DecodeError Instr :=
  if f.valid then
    .ok (match sdKey f.index app with
      | .cmd0 => .cmd0 f.argument f.crc
      | .cmd1 => .cmd1 f.argument f.crc
      | .cmd8 => .cmd8 f.argument f.crc
      | .cmd9 => .cmd9 f.argument f.crc
      | .cmd10 => .cmd10 f.argument f.crc
      | .cmd12 => .cmd12 f.argument f.crc
      | .cmd13 => .cmd13 f.argument f.crc
      | .cmd16 => .cmd16 f.argument f.crc
      | .cmd17 => .cmd17 f.argument f.crc
      | .cmd18 => .cmd18 f.argument f.crc
      | .cmd24 => .cmd24 f.argument f.crc
      | .acmd41 => .acmd41 f.argument f.crc
      | .cmd41 => .cmd41 f.argument f.crc
      | .cmd55 => .cmd55 f.argument f.crc
      | .cmd58 => .cmd58 f.argument f.crc
      | .cmd59 => .cmd59 f.argument f.crc
      | .unrecognized => .cmdUnrecognized f.index f.argument f.crc)
  else .error .notAFrame

/-- The row of a byte read (20_memory.md R75, R76): the register's row in the I/O window, `read_byte` elsewhere. -/
def decodeByteRead (c : Cfg) (address : Addr) : Instr :=
  if classify c (maskAddr c address).toNat = .io then
    match readRow c (maskAddr c address) with
    | .duartStatus => .duartStatusRead address
    | .duartData => .duartDataRead address
    | .duartOther => .duartOtherRead address
    | .usbData => .usbDataRead address
    | .usbCmd => .usbCmdRead address
    | .spiOut => .spiOutRead address
    | .spiIn => .spiInRead address
    | .expBank _ => .expBankRead address
    | .unimplemented => .ioUnimplementedRead address
  else .readByte address

/-- The row of a byte write (20_memory.md R75, R76): the register's row in the I/O window, `write_byte` elsewhere. -/
def decodeByteWrite (c : Cfg) (address : Addr) (value : Byte) : Instr :=
  if classify c (maskAddr c address).toNat = .io then
    match writeRow c (maskAddr c address) with
    | .duartData => .duartDataWrite address value
    | .duartImr => .duartImrWrite address value
    | .duartOther => .duartOtherWrite address value
    | .usbData => .usbDataWrite address value
    | .usbCmd => .usbCmdWrite address value
    | .spiOut => .spiOutWrite address value
    | .spiIn => .spiInWrite address value
    | .expBank _ => .expBankWrite address value
    | .unimplemented => .ioUnimplementedWrite address value
  else .writeByte address value

/-- The instruction of a transaction (30_encoding.md R100). A value wider than its operand is truncated to the
operand's low bits (20_memory.md R66). -/
def decodeCall (c : Cfg) (k : Call) : Except DecodeError Instr :=
  match k.tcode.toNat with
  | 0x00 => .ok (decodeByteRead c k.address)
  | 0x01 => .ok (.readWord k.address)
  | 0x02 => .ok (.readLong k.address)
  | 0x40 => .ok (decodeByteWrite c k.address (k.value.setWidth 8))
  | 0x41 => .ok (.writeWord k.address (k.value.setWidth 16))
  | 0x42 => .ok (.writeLong k.address k.value)
  | 0x80 => .ok (.iack k.value)
  | 0xC0 => .ok (.hostIn (k.value.setWidth 8))
  | 0xC4 => .ok .tick
  | 0xC8 => .ok (.setbank k.value)
  | _ => .error (.reservedTransaction k.tcode)

/-- The decoder, under configuration `c` and application-command flag `app`. -/
def decode (c : Cfg) (app : Bool) : Encoded → Except DecodeError Instr
  | .call k => decodeCall c k
  | .frame f => decodeFrame app f

/-- The frame of command `index` with the given argument and CRC (30_encoding.md R108): `byte0 = 0x40 | index`,
`byte5 = (crc << 1) | 1`. -/
def frameOf (index : BitVec 6) (argument : BitVec 32) (crc : BitVec 7) : Window where
  b0 := (0b01 : BitVec 2) ++ index
  b1 := argument.extractLsb' 24 8
  b2 := argument.extractLsb' 16 8
  b3 := argument.extractLsb' 8 8
  b4 := argument.extractLsb' 0 8
  b5 := crc ++ (0b1 : BitVec 1)

/-- The transaction of a byte read (30_encoding.md R100). -/
def byteReadCall (address : Addr) : Encoded := .call ⟨0x00, address, 0⟩

/-- The transaction of a byte write (30_encoding.md R100). -/
def byteWriteCall (address : Addr) (value : Byte) : Encoded := .call ⟨0x40, address, value.setWidth 32⟩

/-- The word of an instruction (30_encoding.md R100, R108). -/
def encode : Instr → Encoded
  | .readByte a => byteReadCall a
  | .readWord a => .call ⟨0x01, a, 0⟩
  | .readLong a => .call ⟨0x02, a, 0⟩
  | .writeByte a v => byteWriteCall a v
  | .writeWord a v => .call ⟨0x41, a, v.setWidth 32⟩
  | .writeLong a v => .call ⟨0x42, a, v⟩
  | .iack l => .call ⟨0x80, 0, l⟩
  | .hostIn b => .call ⟨0xC0, 0, b.setWidth 32⟩
  | .tick => .call ⟨0xC4, 0, 0⟩
  | .setbank v => .call ⟨0xC8, 0, v⟩
  | .duartStatusRead a => byteReadCall a
  | .duartDataRead a => byteReadCall a
  | .duartDataWrite a v => byteWriteCall a v
  | .duartImrWrite a v => byteWriteCall a v
  | .duartOtherWrite a v => byteWriteCall a v
  | .duartOtherRead a => byteReadCall a
  | .usbCmdWrite a v => byteWriteCall a v
  | .usbDataWrite a v => byteWriteCall a v
  | .usbDataRead a => byteReadCall a
  | .usbCmdRead a => byteReadCall a
  | .spiOutWrite a v => byteWriteCall a v
  | .spiOutRead a => byteReadCall a
  | .spiInRead a => byteReadCall a
  | .spiInWrite a v => byteWriteCall a v
  | .expBankWrite a v => byteWriteCall a v
  | .expBankRead a => byteReadCall a
  | .ioUnimplementedWrite a v => byteWriteCall a v
  | .ioUnimplementedRead a => byteReadCall a
  | .cmd0 g r => .frame (frameOf 0 g r)
  | .cmd1 g r => .frame (frameOf 1 g r)
  | .cmd8 g r => .frame (frameOf 8 g r)
  | .cmd9 g r => .frame (frameOf 9 g r)
  | .cmd10 g r => .frame (frameOf 10 g r)
  | .cmd12 g r => .frame (frameOf 12 g r)
  | .cmd13 g r => .frame (frameOf 13 g r)
  | .cmd16 g r => .frame (frameOf 16 g r)
  | .cmd17 g r => .frame (frameOf 17 g r)
  | .cmd18 g r => .frame (frameOf 18 g r)
  | .cmd24 g r => .frame (frameOf 24 g r)
  | .acmd41 g r => .frame (frameOf 41 g r)
  | .cmd41 g r => .frame (frameOf 41 g r)
  | .cmd55 g r => .frame (frameOf 55 g r)
  | .cmd58 g r => .frame (frameOf 58 g r)
  | .cmd59 g r => .frame (frameOf 59 g r)
  | .cmdUnrecognized i g r => .frame (frameOf i g r)

/-- The transaction whose bits are `w`: bits 7..0 the code, 39..8 the address, 71..40 the value (DESIGN CHOICE,
log 4). -/
def callOfNat (w : Nat) : Call where
  tcode := BitVec.ofNat 8 w
  address := BitVec.ofNat 32 (w / 2 ^ 8)
  value := BitVec.ofNat 32 (w / 2 ^ 40)

/-- The frame whose 48 bits are `w`, bit 47 first on the wire (30_encoding.md R108). -/
def windowOfNat (w : Nat) : Window where
  b0 := BitVec.ofNat 8 (w / 2 ^ 40)
  b1 := BitVec.ofNat 8 (w / 2 ^ 32)
  b2 := BitVec.ofNat 8 (w / 2 ^ 24)
  b3 := BitVec.ofNat 8 (w / 2 ^ 16)
  b4 := BitVec.ofNat 8 (w / 2 ^ 8)
  b5 := BitVec.ofNat 8 w

/-- The words that a row of `nbits` bits holding `w` stands for. The `sd_frame` rows of spec/opcode_table.json, and
only they, are 48 bits wide; every other row is a transaction, its operands above the bits the table gives. -/
def encodedOfNat (nbits w : Nat) : Encoded :=
  if nbits = 48 then .frame (windowOfNat w) else .call (callOfNat (w % 2 ^ nbits))

/-- The instruction the decoder reads from a row of `nbits` bits holding `w`, under the configuration and the
application-command flag of the reset state. -/
def decodeTableWord (nbits w : Nat) : Option Instr :=
  (decode exampleCfg false (encodedOfNat nbits w)).toOption

end Sys2Proof
end

