-- ==== Sys2Proof/Machine/SdRules.lean ====
section
/-! DEFINITION. The rules of the SD commands (44_sd_commands.md R216 to R232), the dispatch that picks one (R213 to
R215), the block write and the block stream (45_sd_data_phase.md R256 to R260), and the latch of one byte
(44_sd_commands.md R210 to R212, R233). -/

namespace Sys2Proof.Machine

/-- CMD0 (44_sd_commands.md R216). -/
def ruleCmd0 (c : Cfg) (k : Card) : Card :=
  let k := if c.diskAttached then (k.queue [0x01]).enter .idle else (k.queue [0x00]).enter .inactive
  if c.cmd0ResetsBlocklen then { k with sd := { k.sd with blockSize := 512 } } else k

/-- CMD1 (44_sd_commands.md R217). -/
def ruleCmd1 (k : Card) : Card := (k.queue [0x00]).enter .ready

/-- CMD8 (44_sd_commands.md R218): the argument is not echoed. -/
def ruleCmd8 (k : Card) : Card := k.queue [0x01, 0x00, 0x00, 0x01, 0xAA]

/-- CMD9 (44_sd_commands.md R219). -/
def ruleCmd9 (k : Card) : Card := (k.queue [0x00]).enter .standby

/-- CMD10 (44_sd_commands.md R220). -/
def ruleCmd10 (c : Cfg) (k : Card) : Card := (k.queue ([0x00] ++ c.cidBlock ++ [0x00, 0x00])).enter .standby

/-- CMD12 (44_sd_commands.md R221). -/
def ruleCmd12 (k : Card) : Card := (k.queue [0x00]).enter .transfer

/-- CMD13 (44_sd_commands.md R222). -/
def ruleCmd13 (k : Card) : Card := (k.queue [0x00]).enter .standby

/-- CMD16 (44_sd_commands.md R223). -/
def ruleCmd16 (c : Cfg) (argument : BitVec 32) (k : Card) : Res Card :=
  let len := blockLength argument
  if len.toNat = 0 ∨ c.maxBlockSize < len.toNat then .raised (.refuse (.blockSize len.toNat)) k.trace
  else .done (({ k with sd := { k.sd with blockSize := len } }.queue [0x00]).enter .transfer)

/-- The response of a CMD17 whose read fails: a drawn choice (45_sd_data_phase.md R260). -/
def readFailureResponse (k : Card) : Card :=
  match k.drawBool with
  | (k, true) => k.queue [0xFF]
  | (k, false) =>
    match k.drawBytes k.sd.blockSize.toNat with
    | (k, bytes) => k.queue ([0x00, 0xFF, 0xFE] ++ bytes ++ [0x00, 0x00])

/-- CMD17 (44_sd_commands.md R224). -/
def ruleCmd17 (c : Cfg) (argument : BitVec 32) (k : Card) : Card :=
  let k :=
    if c.diskAttached then
      match k.diskRead c (blockOffset c k.sd.blockSize argument) k.sd.blockSize.toNat with
      | (k, some data) => k.queue ([0x00, 0xFF, 0xFE] ++ data ++ [0x00, 0x00])
      | (k, none) => readFailureResponse k
    else k.queue [0xFF]
  k.enter .idle

/-- CMD18 (44_sd_commands.md R225). -/
def ruleCmd18 (c : Cfg) (argument : BitVec 32) (k : Card) : Card :=
  if c.diskAttached then
    ({ k with sd := { k.sd with nextBlock := argument } }.queue [0x00]).enter .dataMulti
  else (k.queue [0xFF]).enter .idle

/-- CMD24 (44_sd_commands.md R226). -/
def ruleCmd24 (argument : BitVec 32) (k : Card) : Card :=
  ({ k with sd := { k.sd with wrBlock := argument, inBuf := [], inCount := 0 } }.queue [0x00]).enter
    .awaitingStartToken

/-- ACMD41 (44_sd_commands.md R227). -/
def ruleAcmd41 (k : Card) : Card := (k.queue [0x00]).enter .idle

/-- CMD41 without the application-command flag (44_sd_commands.md R228). -/
def ruleCmd41 (k : Card) : Card := (k.queue [0xFF]).enter .inactive

/-- CMD55 (44_sd_commands.md R229). -/
def ruleCmd55 (k : Card) : Card :=
  let k := k.queue [0x01]
  { k with sd := { k.sd with appCmd := true } }

/-- CMD58 (44_sd_commands.md R230). -/
def ruleCmd58 (c : Cfg) (k : Card) : Card := k.queue ([0x00, if c.cardHc then 0xC0 else 0x40] ++ c.ocrTail)

/-- CMD59 (44_sd_commands.md R231). -/
def ruleCmd59 (k : Card) : Card := k.queue [0x00]

/-- A valid frame reads the application-command flag and clears it before its rule runs (44_sd_commands.md R214). -/
def Card.takeAppFlag (k : Card) : Card := { k with sd := { k.sd with appCmd := false } }

/-- A recognized command clears the window after its rule has run (44_sd_commands.md R215). -/
def Card.clearWindow (k : Card) : Card := { k with sd := { k.sd with win := clearedWindow } }

/-- A recognized command (44_sd_commands.md R213): the flag, the rule, the window. -/
def recognized (rule : Card → Res Card) (k : Card) : Res Card := (rule k.takeAppFlag).map Card.clearWindow

/-- A recognized command whose rule raises nothing. -/
def recognizedTotal (rule : Card → Card) : Card → Res Card := recognized fun k => .done (rule k)

/-- An unrecognized command (44_sd_commands.md R213, R232): only the flag is cleared. -/
def unrecognized (k : Card) : Res Card := .done k.takeAppFlag

/-- `dispatch()` (44_sd_commands.md R213). -/
def dispatch (c : Cfg) (k : Card) : Res Card :=
  let argument := k.sd.win.argument
  match sdKey k.sd.win.index k.sd.appCmd with
  | .cmd0 => recognizedTotal (ruleCmd0 c) k
  | .cmd1 => recognizedTotal ruleCmd1 k
  | .cmd8 => recognizedTotal ruleCmd8 k
  | .cmd9 => recognizedTotal ruleCmd9 k
  | .cmd10 => recognizedTotal (ruleCmd10 c) k
  | .cmd12 => recognizedTotal ruleCmd12 k
  | .cmd13 => recognizedTotal ruleCmd13 k
  | .cmd16 => recognized (ruleCmd16 c argument) k
  | .cmd17 => recognizedTotal (ruleCmd17 c argument) k
  | .cmd18 => recognizedTotal (ruleCmd18 c argument) k
  | .cmd24 => recognizedTotal (ruleCmd24 argument) k
  | .acmd41 => recognizedTotal ruleAcmd41 k
  | .cmd41 => recognizedTotal ruleCmd41 k
  | .cmd55 => recognizedTotal ruleCmd55 k
  | .cmd58 => recognizedTotal (ruleCmd58 c) k
  | .cmd59 => recognizedTotal ruleCmd59 k
  | .unrecognized => unrecognized k

/-- AWAITING_START_TOKEN takes a byte (45_sd_data_phase.md R256). -/
def awaitToken (b : Byte) (k : Card) : Card :=
  if b = 0xFE then { k with sd := { k.sd with inBuf := [], inCount := 0, state := .receivingBlock } } else k

/-- The write response (30_encoding.md R114). -/
def writeResponse (ok : Bool) : List Byte := if ok then [0x05, 0xFF] else [0x0D, 0xFF]

/-- The session after a block write (45_sd_data_phase.md R258): response queued, window and input buffer empty,
IDLE. -/
def finishWrite (ok : Bool) (k : Card) : Card :=
  let k := k.queue (writeResponse ok)
  { k with sd := { k.sd with win := clearedWindow, inBuf := [], inCount := 0, state := .idle } }

/-- Write completion (45_sd_data_phase.md R258): the two checksum bytes are dropped. -/
def completeWrite (c : Cfg) (k : Card) : Res Card :=
  (k.diskWrite c (blockOffset c k.sd.blockSize k.sd.wrBlock) (k.sd.inBuf.take k.sd.blockSize.toNat)).map
    fun p => finishWrite p.2 p.1

/-- RECEIVING_BLOCK takes a byte (45_sd_data_phase.md R257). -/
def receiveByte (c : Cfg) (b : Byte) (k : Card) : Res Card :=
  let k := { k with sd := { k.sd with inBuf := k.sd.inBuf ++ [b], inCount := k.sd.inCount + 1 } }
  if k.sd.inCount = k.sd.blockSize.toNat + 2 then completeWrite c k else .done k

/-- The step from one streamed block to the next (45_sd_data_phase.md R259). -/
def streamStep (c : Cfg) (blockSize : BitVec 16) : BitVec 32 :=
  if c.cardHc then 1
  else match c.legacyMultiStep with
    | .one => 1
    | .block => blockSize.setWidth 32

/-- `stream_next()` (45_sd_data_phase.md R259). -/
def streamNext (c : Cfg) (k : Card) : Card :=
  if k.drained then
    match k.diskRead c (blockOffset c k.sd.blockSize k.sd.nextBlock) k.sd.blockSize.toNat with
    | (k, none) => k.enter .idle
    | (k, some data) =>
      let k := k.queue ([0xFE] ++ data ++ [0x00, 0x00])
      { k with sd := { k.sd with nextBlock := k.sd.nextBlock + streamStep c k.sd.blockSize } }
  else k

/-- A card in INACTIVE that ignores commands (44_sd_commands.md R233). -/
def Card.deaf (c : Cfg) (k : Card) : Bool := decide (k.sd.state = .inactive) && c.inactiveIgnoresCommands

/-- What a latched byte `b` does once it is in the window, by the state of the session (44_sd_commands.md R210, R212,
R233). `test` is the frame test and dispatch, made only in a scanning state. -/
def latchBody (c : Cfg) (b : Byte) (test : Card → Res Card) (k : Card) : Res Card :=
  match k.sd.state with
  | .awaitingStartToken => .done (awaitToken b k)
  | .receivingBlock => receiveByte c b k
  | _ =>
    (if k.deaf c then .done k else test k).map fun k =>
      if k.sd.state = .dataMulti then streamNext c k else k

/-- The window takes byte `b` (44_sd_commands.md R211), and the byte is logged (R210; log 9). -/
def Card.shift (b : Byte) (k : Card) : Card :=
  { k with sd := { k.sd with win := shiftWindow k.sd.win b } }.log .rx [b]

/-- The frame test of 44_sd_commands.md R210: a valid window is dispatched. -/
def frameTest (c : Cfg) (k : Card) : Res Card := if k.sd.win.valid then dispatch c k else .done k

/-- `sd_latch(b)` (44_sd_commands.md R210). -/
def sdLatch (c : Cfg) (b : Byte) (k : Card) : Res Card := latchBody c b (frameTest c) (k.shift b)

end Sys2Proof.Machine
end

