-- ==== Sys2Proof/Machine/SpiFramer.lean ====
section
/-! DEFINITION. The SPI bit-serial framer (43_spi_framer.md R190 to R197). -/

namespace Sys2Proof.Machine

/-- The pin latches take the levels of byte `v` (43_spi_framer.md R191; 30_encoding.md R105). -/
def latchPins (c : Cfg) (v : Byte) (p : Spi) : Spi :=
  { p with csN := bitAt v c.spiCsBit, sck := bitAt v c.spiSckBit, mosi := bitAt v c.spiMosiBit }

/-- `deselect()` (43_spi_framer.md R192). -/
def deselect (p : Spi) : Spi := { p with count := 0, shiftIn := 0x00 }

/-- The receive register with MOSI shifted in, most significant bit first (43_spi_framer.md R193). -/
def shiftedIn (p : Spi) : Byte := (p.shiftIn <<< 1) ||| bitByte p.mosi 0

/-- `byte_complete()` (43_spi_framer.md R194): the latch, then one poll; a drained queue gives the idle byte
(30_encoding.md R115). -/
def byteComplete (s : State) : Res State :=
  (sdLatch s.cfg s.spi.shiftIn s.card).map fun k =>
    let s := s.withCard k.poll.2
    { s with spi := { s.spi with shiftOut := k.poll.1.getD 0xFF, count := 0 } }

/-- `rising_edge()` (43_spi_framer.md R193): the eighth edge completes the byte. -/
def risingEdge (s : State) : Res State :=
  let p := { s.spi with shiftIn := shiftedIn s.spi, count := s.spi.count + 1 }
  if s.spi.count = 7 then byteComplete { s with spi := p } else .done { s with spi := p }

/-- The framer once an SPI_OUT write of `v` has set the latches and, where CS_n rises, deselected the card
(43_spi_framer.md R191, R192). -/
def latchedSpi (s : State) (v : Byte) : Spi :=
  let p := latchPins s.cfg v s.spi
  match !s.spi.csN && p.csN with
  | true => deselect p
  | false => p

/-- `IoWrite(SPI_OUT_ADDR, v)` (43_spi_framer.md R191, R196). -/
def spiOutWrite (v : Byte) (s : State) : Res State :=
  let p := latchPins s.cfg v s.spi
  let t := { s with spi := latchedSpi s v }
  match !p.csN && !s.spi.sck && p.sck with
  | true => risingEdge t
  | false => .done t

/-- `IoRead(SPI_OUT_ADDR)` (43_spi_framer.md R197; 30_encoding.md R105). -/
def spiOutRead (s : State) : Res (State × Byte) := .done (s, pinsByte s.cfg s.spi.csN s.spi.sck s.spi.mosi)

/-- `IoRead(SPI_IN_ADDR)` (43_spi_framer.md R195). -/
def spiInRead (s : State) : Res (State × Byte) := .done (s, misoByte s.cfg s.spi)

/-- `IoWrite(SPI_IN_ADDR, v)` (43_spi_framer.md R197). -/
def spiInWrite (v : Byte) (s : State) : Res State := .done (emit s (.logUnimplemented s.cfg.spiInAddr .write v))

/-- The meaning of `spi_out_write` (43_spi_framer.md R191). -/
def execSpiOutWrite (_address : Addr) (value : Byte) (s : State) : Host.Outcome State Fault Refusal :=
  performWrite s (spiOutWrite value)

/-- The meaning of `spi_out_read` (43_spi_framer.md R197). -/
def execSpiOutRead (_address : Addr) (s : State) : Host.Outcome State Fault Refusal := performRead s spiOutRead

/-- The meaning of `spi_in_read` (43_spi_framer.md R195). -/
def execSpiInRead (_address : Addr) (s : State) : Host.Outcome State Fault Refusal := performRead s spiInRead

/-- The meaning of `spi_in_write` (43_spi_framer.md R197). -/
def execSpiInWrite (_address : Addr) (value : Byte) (s : State) : Host.Outcome State Fault Refusal :=
  performWrite s (spiInWrite value)

end Sys2Proof.Machine
end

