-- ==== Sys2Proof/Machine/UsbBridge.lean ====
section
/-! DEFINITION. The USB-disk bridge register model (42_usb_bridge.md R180 to R186). -/

namespace Sys2Proof.Machine

open Host (Outcome)

/-- The disk a handler call is passed (42_usb_bridge.md R180, R186): `s.disk` if the disk is shared, and an array with
no byte listed if not, so that the handler and the card never interact (log 7). -/
def handlerDisk (s : State) : Memory := if s.cfg.usbSharesDisk then s.disk else []

/-- The disk after a handler call that left `d` (42_usb_bridge.md R186; 10_state.md R42): the handler's, cut to
DISK_LEN bytes, if the disk is shared; unchanged if not (log 7). -/
def sharedDisk (s : State) (d : Memory) : Memory :=
  if s.cfg.usbSharesDisk then Memory.ofCells s.cfg.diskLen d else s.disk

/-- The state after a handler write that answered `r` (42_usb_bridge.md R181, R185): a true answer asserts the line,
a false one leaves it. -/
def afterUsbWrite (s : State) (r : UsbState × Memory × Bool) : State :=
  { s with usb := r.1, disk := sharedDisk s r.2.1, usbPending := s.usbPending || r.2.2 }

/-- `IoWrite(USB_CMD_ADDR, b)` (42_usb_bridge.md R181). -/
def usbCmdWrite (b : Byte) (s : State) : Res State :=
  .done (afterUsbWrite s (s.cfg.usbHandler.cmdWrite s.usb (handlerDisk s) b))

/-- `IoWrite(USB_DATA_ADDR, b)` (42_usb_bridge.md R182). -/
def usbDataWrite (b : Byte) (s : State) : Res State :=
  .done (afterUsbWrite s (s.cfg.usbHandler.dataWrite s.usb (handlerDisk s) b))

/-- `IoRead(USB_DATA_ADDR)` (42_usb_bridge.md R183): a read never asserts the interrupt. -/
def usbDataRead (s : State) : Res (State × Byte) :=
  let r := s.cfg.usbHandler.dataRead s.usb (handlerDisk s)
  .done ({ s with usb := r.1, disk := sharedDisk s r.2.1 }, r.2.2)

/-- `IoRead(USB_CMD_ADDR)` (42_usb_bridge.md R184): the handler is not called. -/
def usbCmdRead (s : State) : Res (State × Byte) := unimplementedRead s.cfg.usbCmdAddr s

/-- The meaning of `usb_cmd_write` (42_usb_bridge.md R181). -/
def execUsbCmdWrite (_address : Addr) (value : Byte) (s : State) : Outcome State Fault Refusal :=
  performWrite s (usbCmdWrite value)

/-- The meaning of `usb_data_write` (42_usb_bridge.md R182). -/
def execUsbDataWrite (_address : Addr) (value : Byte) (s : State) : Outcome State Fault Refusal :=
  performWrite s (usbDataWrite value)

/-- The meaning of `usb_data_read` (42_usb_bridge.md R183). -/
def execUsbDataRead (_address : Addr) (s : State) : Outcome State Fault Refusal := performRead s usbDataRead

/-- The meaning of `usb_cmd_read` (42_usb_bridge.md R184). -/
def execUsbCmdRead (_address : Addr) (s : State) : Outcome State Fault Refusal := performRead s usbCmdRead

end Sys2Proof.Machine
end

