-- ==== Sys2Proof/Machine/Bus.lean ====
section
/-! DEFINITION. The I/O dispatch (20_memory.md R76) and the six bus operations (40_bus_operations.md R140 to
R147). -/

namespace Sys2Proof.Machine

open Host (Outcome)

/-- `IoRead(a)` (20_memory.md R76). -/
def ioRead (a : Addr) (s : State) : Res (State × Byte) :=
  match readRow s.cfg a with
  | .duartStatus => duartStatusRead s
  | .duartData => duartDataRead s
  | .duartOther => unimplementedRead a s
  | .usbData => usbDataRead s
  | .usbCmd => usbCmdRead s
  | .spiOut => spiOutRead s
  | .spiIn => spiInRead s
  | .expBank i => expBankRead i s
  | .unimplemented => unimplementedRead a s

/-- `IoWrite(a, b)` (20_memory.md R76). -/
def ioWrite (a : Addr) (b : Byte) (s : State) : Res State :=
  match writeRow s.cfg a with
  | .duartData => duartDataWrite b s
  | .duartImr => duartImrWrite b s
  | .duartOther => unimplementedWrite a b s
  | .usbData => usbDataWrite b s
  | .usbCmd => usbCmdWrite b s
  | .spiOut => spiOutWrite b s
  | .spiIn => spiInWrite b s
  | .expBank i => expBankWrite i b s
  | .unimplemented => unimplementedWrite a b s

/-- A read of an I/O address (20_memory.md R76, R77): byte-wide only. -/
def readIo (a : Addr) (n : Width) (s : State) : Res (State × Reply) :=
  if n = .byte then (ioRead a s).map fun p => (p.1, .okValue (p.2.setWidth 32))
  else .raised (.refuse (.ioWidth a n .read)) s.trace

/-- A write of an I/O address (20_memory.md R76, R77): byte-wide only. -/
def writeIo (a : Addr) (n : Width) (v : BitVec 32) (s : State) : Res (State × Reply) :=
  if n = .byte then (ioWrite a (v.setWidth 8) s).map fun t => (t, .ok)
  else .raised (.refuse (.ioWidth a n .write)) s.trace

/-- The read of an admitted access at `a` (40_bus_operations.md R140). -/
def readAdmitted (a : Addr) (n : Width) (s : State) : Res (State × Reply) :=
  match classify s.cfg a.toNat with
  | .io => readIo a n s
  | .unmapped => .done (emit s (.logBusError a n .read), .okBusErrorValue 0)
  | .ram => .done (s, .okValue (beValue (regionBytes s .ram a.toNat n.bytes)))
  | .rom => .done (s, .okValue (beValue (regionBytes s .rom a.toNat n.bytes)))
  | .exp => .done (s, .okValue (beValue (regionBytes s .exp a.toNat n.bytes)))

/-- The write of an admitted access at `a` (40_bus_operations.md R144). The breakpoint event comes before the store
(20_memory.md R78). -/
def writeAdmitted (a : Addr) (n : Width) (v : BitVec 32) (s : State) : Res (State × Reply) :=
  match classify s.cfg a.toNat with
  | .io => writeIo a n v s
  | .unmapped => .done (emit s (.logBusError a n .write), .okBusError)
  | .rom => .done (emit (emit s (.breakpointWrite a)) (.logRomWrite a n v), .ok)
  | .ram => .done (setRegionBytes (emit s (.breakpointWrite a)) .ram a.toNat (beBytes n.bytes v), .ok)
  | .exp => .done (setRegionBytes (emit s (.breakpointWrite a)) .exp a.toNat (beBytes n.bytes v), .ok)

/-- `MemRead(address, n)` (40_bus_operations.md R140; 20_memory.md R75). -/
def memRead (address : Addr) (n : Width) (s : State) : Res (State × Reply) :=
  (checkAccess s (maskAddr s.cfg address) n .read).bind fun _ => readAdmitted (maskAddr s.cfg address) n s

/-- `MemWrite(address, n, v)` (40_bus_operations.md R144; 20_memory.md R75). -/
def memWrite (address : Addr) (n : Width) (v : BitVec 32) (s : State) : Res (State × Reply) :=
  (checkAccess s (maskAddr s.cfg address) n .write).bind fun _ => writeAdmitted (maskAddr s.cfg address) n v s

/-- The meaning of `read_byte` (40_bus_operations.md R141). -/
def execReadByte (address : Addr) (s : State) : Outcome State Fault Refusal := perform s (memRead address .byte)

/-- The meaning of `read_word` (40_bus_operations.md R142). -/
def execReadWord (address : Addr) (s : State) : Outcome State Fault Refusal := perform s (memRead address .word)

/-- The meaning of `read_long` (40_bus_operations.md R143). -/
def execReadLong (address : Addr) (s : State) : Outcome State Fault Refusal := perform s (memRead address .long)

/-- The meaning of `write_byte` (40_bus_operations.md R145). -/
def execWriteByte (address : Addr) (value : BitVec 8) (s : State) : Outcome State Fault Refusal :=
  perform s (memWrite address .byte (value.setWidth 32))

/-- The meaning of `write_word` (40_bus_operations.md R146). -/
def execWriteWord (address : Addr) (value : BitVec 16) (s : State) : Outcome State Fault Refusal :=
  perform s (memWrite address .word (value.setWidth 32))

/-- The meaning of `write_long` (40_bus_operations.md R147). -/
def execWriteLong (address : Addr) (value : BitVec 32) (s : State) : Outcome State Fault Refusal :=
  perform s (memWrite address .long value)

/-- The meaning of `io_unimplemented_write` (20_memory.md R76). -/
def execIoUnimplementedWrite (address : Addr) (value : Byte) (s : State) : Outcome State Fault Refusal :=
  performWrite s (unimplementedWrite (maskAddr s.cfg address) value)

/-- The meaning of `io_unimplemented_read` (20_memory.md R76). -/
def execIoUnimplementedRead (address : Addr) (s : State) : Outcome State Fault Refusal :=
  performRead s (unimplementedRead (maskAddr s.cfg address))

end Sys2Proof.Machine
end

