-- ==== Sys2Proof/Machine/Interrupts.lean ====
section
/-! DEFINITION. The interrupt glue (60_exceptions.md R277 to R284): the timer tick and the acknowledge. The request
output is `ipl` (Machine/Flags.lean). -/

namespace Sys2Proof.Machine

open Host (Outcome)

/-- The host event `TICK` (60_exceptions.md R280): lost while the timer is disabled, not counted. -/
def timerTick (s : State) : State := { s with timerPending := s.timerPending || s.timerEnabled }

/-- `iack(l)` (60_exceptions.md R281, R282): at most one source is cleared, the timer first. -/
def acknowledge (level : BitVec 32) (s : State) : State × Byte :=
  if level.toNat = s.cfg.timerIrqLevel ∧ s.timerPending then ({ s with timerPending := false }, s.cfg.timerVector)
  else if level.toNat = s.cfg.usbIrqLevel ∧ s.usbPending then ({ s with usbPending := false }, s.cfg.usbVector)
  else (s, s.cfg.spuriousVector)

/-- The meaning of `tick` (60_exceptions.md R280). -/
def execTick (s : State) : Outcome State Fault Refusal := performEvent s timerTick

/-- The meaning of `iack` (60_exceptions.md R281). -/
def execIack (level : BitVec 32) (s : State) : Outcome State Fault Refusal :=
  performRead s fun s => .done (acknowledge level s)

end Sys2Proof.Machine
end

