-- ==== Sys2Proof/Machine/SdCommands.lean ====
section
/-! DEFINITION. The meanings of the SD command rows (44_sd_commands.md R216 to R232). The meaning of a frame is what
the card does at the latch of the frame's last byte, the window holding the frame (44_sd_commands.md R210; log 11): in
a scanning state the command is dispatched, and in AWAITING_START_TOKEN or RECEIVING_BLOCK the byte is taken as data
(R212). -/

namespace Sys2Proof.Machine

open Host (Outcome)

/-- The latch of the last byte of a frame, whose command does `test` if the state scans for commands
(44_sd_commands.md R210). -/
def performFrame (crc : BitVec 7) (test : Card → Res Card) (s : State) : Outcome State Fault Refusal :=
  performCard s (latchBody s.cfg (stopByte crc) test)

/-- The meaning of `CMD0` (44_sd_commands.md R216). -/
def execCmd0 (_argument : BitVec 32) (crc : BitVec 7) (s : State) : Outcome State Fault Refusal :=
  performFrame crc (recognizedTotal (ruleCmd0 s.cfg)) s

/-- The meaning of `CMD1` (44_sd_commands.md R217). -/
def execCmd1 (_argument : BitVec 32) (crc : BitVec 7) (s : State) : Outcome State Fault Refusal :=
  performFrame crc (recognizedTotal ruleCmd1) s

/-- The meaning of `CMD8` (44_sd_commands.md R218). -/
def execCmd8 (_argument : BitVec 32) (crc : BitVec 7) (s : State) : Outcome State Fault Refusal :=
  performFrame crc (recognizedTotal ruleCmd8) s

/-- The meaning of `CMD9` (44_sd_commands.md R219). -/
def execCmd9 (_argument : BitVec 32) (crc : BitVec 7) (s : State) : Outcome State Fault Refusal :=
  performFrame crc (recognizedTotal ruleCmd9) s

/-- The meaning of `CMD10` (44_sd_commands.md R220). -/
def execCmd10 (_argument : BitVec 32) (crc : BitVec 7) (s : State) : Outcome State Fault Refusal :=
  performFrame crc (recognizedTotal (ruleCmd10 s.cfg)) s

/-- The meaning of `CMD12` (44_sd_commands.md R221). -/
def execCmd12 (_argument : BitVec 32) (crc : BitVec 7) (s : State) : Outcome State Fault Refusal :=
  performFrame crc (recognizedTotal ruleCmd12) s

/-- The meaning of `CMD13` (44_sd_commands.md R222). -/
def execCmd13 (_argument : BitVec 32) (crc : BitVec 7) (s : State) : Outcome State Fault Refusal :=
  performFrame crc (recognizedTotal ruleCmd13) s

/-- The meaning of `CMD16` (44_sd_commands.md R223). -/
def execCmd16 (argument : BitVec 32) (crc : BitVec 7) (s : State) : Outcome State Fault Refusal :=
  performFrame crc (recognized (ruleCmd16 s.cfg argument)) s

/-- The meaning of `CMD17` (44_sd_commands.md R224). -/
def execCmd17 (argument : BitVec 32) (crc : BitVec 7) (s : State) : Outcome State Fault Refusal :=
  performFrame crc (recognizedTotal (ruleCmd17 s.cfg argument)) s

/-- The meaning of `CMD18` (44_sd_commands.md R225). -/
def execCmd18 (argument : BitVec 32) (crc : BitVec 7) (s : State) : Outcome State Fault Refusal :=
  performFrame crc (recognizedTotal (ruleCmd18 s.cfg argument)) s

/-- The meaning of `CMD24` (44_sd_commands.md R226). -/
def execCmd24 (argument : BitVec 32) (crc : BitVec 7) (s : State) : Outcome State Fault Refusal :=
  performFrame crc (recognizedTotal (ruleCmd24 argument)) s

/-- The meaning of `ACMD41` (44_sd_commands.md R227). -/
def execAcmd41 (_argument : BitVec 32) (crc : BitVec 7) (s : State) : Outcome State Fault Refusal :=
  performFrame crc (recognizedTotal ruleAcmd41) s

/-- The meaning of `CMD41` (44_sd_commands.md R228). -/
def execCmd41 (_argument : BitVec 32) (crc : BitVec 7) (s : State) : Outcome State Fault Refusal :=
  performFrame crc (recognizedTotal ruleCmd41) s

/-- The meaning of `CMD55` (44_sd_commands.md R229). -/
def execCmd55 (_argument : BitVec 32) (crc : BitVec 7) (s : State) : Outcome State Fault Refusal :=
  performFrame crc (recognizedTotal ruleCmd55) s

/-- The meaning of `CMD58` (44_sd_commands.md R230). -/
def execCmd58 (_argument : BitVec 32) (crc : BitVec 7) (s : State) : Outcome State Fault Refusal :=
  performFrame crc (recognizedTotal (ruleCmd58 s.cfg)) s

/-- The meaning of `CMD59` (44_sd_commands.md R231). -/
def execCmd59 (_argument : BitVec 32) (crc : BitVec 7) (s : State) : Outcome State Fault Refusal :=
  performFrame crc (recognizedTotal ruleCmd59) s

/-- The meaning of `CMD_unrecognized` (44_sd_commands.md R232). -/
def execCmdUnrecognized (_index : BitVec 6) (_argument : BitVec 32) (crc : BitVec 7) (s : State) :
    Outcome State Fault Refusal :=
  performFrame crc unrecognized s

end Sys2Proof.Machine
end

