-- ==== Sys2Proof/Machine/Dispatch.lean ====
section
/-! DEFINITION. One arm for each constructor of Instr. -/

namespace Sys2Proof.Machine

def exec (i : Instr) (s : State) : Host.Outcome State Fault Refusal :=
  match i with
  | .readByte address => Sys2Proof.Machine.execReadByte address s
  | .readWord address => Sys2Proof.Machine.execReadWord address s
  | .readLong address => Sys2Proof.Machine.execReadLong address s
  | .writeByte address value => Sys2Proof.Machine.execWriteByte address value s
  | .writeWord address value => Sys2Proof.Machine.execWriteWord address value s
  | .writeLong address value => Sys2Proof.Machine.execWriteLong address value s
  | .iack level => Sys2Proof.Machine.execIack level s
  | .hostIn byte => Sys2Proof.Machine.execHostIn byte s
  | .tick => Sys2Proof.Machine.execTick s
  | .setbank value => Sys2Proof.Machine.execSetbank value s
  | .duartStatusRead address => Sys2Proof.Machine.execDuartStatusRead address s
  | .duartDataRead address => Sys2Proof.Machine.execDuartDataRead address s
  | .duartDataWrite address value => Sys2Proof.Machine.execDuartDataWrite address value s
  | .duartImrWrite address value => Sys2Proof.Machine.execDuartImrWrite address value s
  | .duartOtherWrite address value => Sys2Proof.Machine.execDuartOtherWrite address value s
  | .duartOtherRead address => Sys2Proof.Machine.execDuartOtherRead address s
  | .usbCmdWrite address value => Sys2Proof.Machine.execUsbCmdWrite address value s
  | .usbDataWrite address value => Sys2Proof.Machine.execUsbDataWrite address value s
  | .usbDataRead address => Sys2Proof.Machine.execUsbDataRead address s
  | .usbCmdRead address => Sys2Proof.Machine.execUsbCmdRead address s
  | .spiOutWrite address value => Sys2Proof.Machine.execSpiOutWrite address value s
  | .spiOutRead address => Sys2Proof.Machine.execSpiOutRead address s
  | .spiInRead address => Sys2Proof.Machine.execSpiInRead address s
  | .spiInWrite address value => Sys2Proof.Machine.execSpiInWrite address value s
  | .expBankWrite address value => Sys2Proof.Machine.execExpBankWrite address value s
  | .expBankRead address => Sys2Proof.Machine.execExpBankRead address s
  | .ioUnimplementedWrite address value => Sys2Proof.Machine.execIoUnimplementedWrite address value s
  | .ioUnimplementedRead address => Sys2Proof.Machine.execIoUnimplementedRead address s
  | .cmd0 argument crc => Sys2Proof.Machine.execCmd0 argument crc s
  | .cmd1 argument crc => Sys2Proof.Machine.execCmd1 argument crc s
  | .cmd8 argument crc => Sys2Proof.Machine.execCmd8 argument crc s
  | .cmd9 argument crc => Sys2Proof.Machine.execCmd9 argument crc s
  | .cmd10 argument crc => Sys2Proof.Machine.execCmd10 argument crc s
  | .cmd12 argument crc => Sys2Proof.Machine.execCmd12 argument crc s
  | .cmd13 argument crc => Sys2Proof.Machine.execCmd13 argument crc s
  | .cmd16 argument crc => Sys2Proof.Machine.execCmd16 argument crc s
  | .cmd17 argument crc => Sys2Proof.Machine.execCmd17 argument crc s
  | .cmd18 argument crc => Sys2Proof.Machine.execCmd18 argument crc s
  | .cmd24 argument crc => Sys2Proof.Machine.execCmd24 argument crc s
  | .acmd41 argument crc => Sys2Proof.Machine.execAcmd41 argument crc s
  | .cmd41 argument crc => Sys2Proof.Machine.execCmd41 argument crc s
  | .cmd55 argument crc => Sys2Proof.Machine.execCmd55 argument crc s
  | .cmd58 argument crc => Sys2Proof.Machine.execCmd58 argument crc s
  | .cmd59 argument crc => Sys2Proof.Machine.execCmd59 argument crc s
  | .cmdUnrecognized index argument crc => Sys2Proof.Machine.execCmdUnrecognized index argument crc s

end Sys2Proof.Machine
end

