-- ==== Sys2Proof/Machine/Fetch.lean ====
section
/-! DEFINITION. Fetching the next call (log 2), what a step does where no call is waiting or the call is reserved
(30_encoding.md R100; 60_exceptions.md R276), and laying an instruction where the next step takes it (log 2, 11). -/

namespace Sys2Proof.Machine

open Host (Outcome)

/-- The next call and the state past it, if a call is waiting. -/
def fetch (s : State) : Option (Call × State) :=
  match s.calls with
  | [] => none
  | k :: rest => some (k, { s with calls := rest })

/-- No call is waiting: the block has no step of its own (00_scope.md R5). -/
def noCallStep (s : State) : Outcome State Fault Refusal := ifUnmarked s (.refused .noCall)

/-- A call that decodes to no instruction: `refuse ReservedTransaction(tcode)` (30_encoding.md R100). -/
def reservedStep (tcode : BitVec 8) (s : State) : Outcome State Fault Refusal :=
  perform s fun s => .raised (.refuse (.reservedTransaction tcode)) s.trace

/-- The state with call `k` next. -/
def withCall (s : State) (k : Call) : State := { s with calls := k :: s.calls }

/-- The state in which the frame `f` is one rising edge short of its last latch (43_spi_framer.md R193, R194): the
first five bytes are in the window, seven bits of the sixth are in the shift register, the card is selected with SCK
low, and the next call is the SPI_OUT write that raises SCK with the eighth bit. -/
def withFrame (s : State) (f : Window) : State :=
  withCall
    { s with
      sd := { s.sd with win := ⟨s.sd.win.b5, f.b0, f.b1, f.b2, f.b3, f.b4⟩ }
      spi := { s.spi with csN := false, sck := false, shiftIn := f.b5 >>> 1, count := 7 } }
    ⟨0x40, s.cfg.spiOutAddr, (pinsByte s.cfg false true (f.b5.getLsbD 0)).setWidth 32⟩

/-- The state in which the next step runs the given words. -/
def withEncoded (s : State) : Encoded → State
  | .call k => withCall s k
  | .frame f => withFrame s f

end Sys2Proof.Machine
end

