-- ==== Sys2Proof/Machine/Step.lean ====
section
/-! DEFINITION. One step: the next call of the guest core or the host, from arrival to reply (00_scope.md R5;
20_memory.md R80). -/

namespace Sys2Proof.Machine

/-- The next call, if one is waiting. A marked state has no step (60_exceptions.md R271), and an invalid configuration
has no run (70_reset_and_hazards.md R302). -/
def step (s : State) : Host.Outcome State Fault Refusal :=
  match fetch s with
  | none => noCallStep s
  | some (k, t) =>
    if validCfg t.cfg then
      match decodeCall t.cfg k with
      | .ok i => exec i t
      | .error _ => reservedStep k.tcode t
    else .refused .invalidConfiguration

/-- The state in which the next step runs the instruction of `nbits` bits that holds `w` (log 2, 11). -/
def State.withFetchWord (s : State) (nbits w : Nat) : State := withEncoded s (encodedOfNat nbits w)

end Sys2Proof.Machine
end

