-- ==== Sys2Proof/Machine/Scripts.lean ====
section
/-! DEFINITION. The SPI pseudo-instructions of transaction scripts (30_encoding.md R118): select, deselect, the
exchange of one byte, and a command frame sent byte by byte. They run the register rows, and so reach the framer under
every ADDR_MASK (DESIGN CHOICE, log 13). -/

namespace Sys2Proof.Machine

/-- The next state, where there is one. -/
def nextState : Host.Outcome State Fault Refusal → Option State
  | .next s => some s
  | .fault _ => none
  | .refused _ => none

/-- `W1 SPI_OUT_ADDR, pins(c, k, m)`. DESIGN CHOICE (log 13): the row `spi_out_write` is run directly, so the mask of
20_memory.md R61 does not move the write to another address. -/
def writePins (csN sck mosi : Bool) (s : State) : Option State :=
  nextState (exec (.spiOutWrite s.cfg.spiOutAddr (pinsByte s.cfg csN sck mosi)) s)

/-- The value the last read answered, as a byte. -/
def replyByte (s : State) : Byte :=
  match s.reply with
  | .okValue v => v.setWidth 8
  | .okBusErrorValue v => v.setWidth 8
  | .silent => 0
  | .ok => 0
  | .okBusError => 0

/-- `SPI_SEL`. -/
def selectCard (s : State) : Option State := writePins false false true s

/-- `SPI_DESEL`. -/
def deselectCard (s : State) : Option State := writePins true false true s

/-- One bit of `X`: MOSI set with SCK low, MISO read, SCK raised. DESIGN CHOICE (log 13): the read, too, is its row. -/
def exchangeBit (m : Bool) (s : State) : Option (State × Bool) :=
  (writePins false false m s).bind fun s =>
    (nextState (exec (.spiInRead s.cfg.spiInAddr) s)).bind fun s =>
      (writePins false true m s).map fun t => (t, bitAt (replyByte s) s.cfg.spiMisoBit)

/-- The bits of `X` from the given ones on, most significant first; `r` holds the bits read so far. -/
def exchangeBits : List Bool → Byte → State → Option (State × Byte)
  | [], r, s => some (s, r)
  | m :: ms, r, s =>
    (exchangeBit m s).bind fun p => exchangeBits ms ((r <<< 1) ||| bitByte p.2 0) p.1

/-- The bits of a byte, most significant first. -/
def msbFirst (b : Byte) : List Bool := (List.range 8).map fun i => b.getLsbD (7 - i)

/-- `X b -> r`. -/
def exchange (b : Byte) (s : State) : Option (State × Byte) := exchangeBits (msbFirst b) 0 s

/-- The bytes sent one after another, and the bytes returned. -/
def exchangeAll : List Byte → State → Option (State × List Byte)
  | [], s => some (s, [])
  | b :: bs, s => (exchange b s).bind fun p => (exchangeAll bs p.1).map fun q => (q.1, p.2 :: q.2)

/-- `XN k`. -/
def exchangeIdle (k : Nat) (s : State) : Option (State × List Byte) := exchangeAll (List.replicate k 0xFF) s

/-- The six bytes of a frame, in wire order (30_encoding.md R108). -/
def frameBytes (f : Window) : List Byte := [f.b0, f.b1, f.b2, f.b3, f.b4, f.b5]

/-- `CMD n, arg, c`. -/
def sendCommand (index : BitVec 6) (argument : BitVec 32) (crc : BitVec 7) (s : State) :
    Option (State × List Byte) :=
  exchangeAll (frameBytes (frameOf index argument crc)) s

end Sys2Proof.Machine
end

