-- ==== Sys2Proof/Safety.lean ====
section
/-! DEFINITION. The terms the statements use: a state with no mark, the states of the session that scan for commands,
the access instructions by width, and the invariant of the block. -/

namespace Sys2Proof

/-- The instruction is an SD command row of spec/opcode_table.json. -/
def Instr.isSdRow : Instr → Bool
  | .readByte _ => false
  | .readWord _ => false
  | .readLong _ => false
  | .writeByte _ _ => false
  | .writeWord _ _ => false
  | .writeLong _ _ => false
  | .iack _ => false
  | .hostIn _ => false
  | .tick => false
  | .setbank _ => false
  | .duartStatusRead _ => false
  | .duartDataRead _ => false
  | .duartDataWrite _ _ => false
  | .duartImrWrite _ _ => false
  | .duartOtherWrite _ _ => false
  | .duartOtherRead _ => false
  | .usbCmdWrite _ _ => false
  | .usbDataWrite _ _ => false
  | .usbDataRead _ => false
  | .usbCmdRead _ => false
  | .spiOutWrite _ _ => false
  | .spiOutRead _ => false
  | .spiInRead _ => false
  | .spiInWrite _ _ => false
  | .expBankWrite _ _ => false
  | .expBankRead _ => false
  | .ioUnimplementedWrite _ _ => false
  | .ioUnimplementedRead _ => false
  | .cmd0 _ _ => true
  | .cmd1 _ _ => true
  | .cmd8 _ _ => true
  | .cmd9 _ _ => true
  | .cmd10 _ _ => true
  | .cmd12 _ _ => true
  | .cmd13 _ _ => true
  | .cmd16 _ _ => true
  | .cmd17 _ _ => true
  | .cmd18 _ _ => true
  | .cmd24 _ _ => true
  | .acmd41 _ _ => true
  | .cmd41 _ _ => true
  | .cmd55 _ _ => true
  | .cmd58 _ _ => true
  | .cmd59 _ _ => true
  | .cmdUnrecognized _ _ _ => true

end Sys2Proof

namespace Sys2Proof.Machine

/-- No fault or refusal is marked (60_exceptions.md R271). -/
abbrev State.unmarked (s : State) : Prop := s.fault = none ∧ s.refused = none

/-- The session scans for commands (44_sd_commands.md R212, R233). -/
abbrev State.scanning (s : State) : Prop :=
  s.sd.state ≠ .awaitingStartToken ∧ s.sd.state ≠ .receivingBlock ∧
    (s.sd.state = .inactive → s.cfg.inactiveIgnoresCommands = false)

/-- The read of width `n` at `address`: read_byte, read_word or read_long. -/
def readOf (n : Width) (address : Addr) : Instr :=
  match n with
  | .byte => .readByte address
  | .word => .readWord address
  | .long => .readLong address

/-- The write of width `n` of the low bits of `v` at `address`: write_byte, write_word or write_long. -/
def writeOf (n : Width) (address : Addr) (v : BitVec 32) : Instr :=
  match n with
  | .byte => .writeByte address (v.setWidth 8)
  | .word => .writeWord address (v.setWidth 16)
  | .long => .writeLong address v

/-- A word or long access lies at an even address (20_memory.md R67). -/
abbrev aligned (a : Addr) (n : Width) : Prop := n ≠ .byte → a.toNat % 2 = 0

/-- Byte `i` of an access at `a` is below 2^32, the mask keeps it, and it lies in region `r` (20_memory.md R68). -/
abbrev byteIn (c : Cfg) (a : Addr) (r : Region) (i : Nat) : Prop :=
  a.toNat + i < 2 ^ 32 ∧ (BitVec.ofNat 32 (a.toNat + i) &&& c.addrMask).toNat = a.toNat + i ∧
    classify c (a.toNat + i) = r

/-- An access that is aligned and whose bytes all lie in region `r` (20_memory.md R67, R68). -/
abbrev lies (c : Cfg) (a : Addr) (n : Width) (r : Region) : Prop := aligned a n ∧ ∀ i < n.bytes, byteIn c a r i

/-- The big-endian value of `n` bytes (20_memory.md R65). -/
def beSum (n : Nat) (byte : Nat → Byte) : Nat :=
  ((List.range n).map fun i => (byte i).toNat * 2 ^ (8 * (n - 1 - i))).sum

/-- The value cut to the width of the access (20_memory.md R66). -/
def truncated (n : Width) (v : BitVec 32) : BitVec 32 := BitVec.ofNat 32 (v.toNat % 2 ^ (8 * n.bytes))

/-- The rows that are reads of the guest core (20_memory.md R60, R76). -/
def busReads (address : Addr) : List Instr :=
  [.readByte address, .readWord address, .readLong address, .duartStatusRead address, .duartDataRead address,
    .duartOtherRead address, .usbDataRead address, .usbCmdRead address, .spiOutRead address, .spiInRead address,
    .expBankRead address, .ioUnimplementedRead address]

/-- The state with the interrupt state replaced (10_state.md R25 to R27). -/
def State.withInterrupts (s : State) (enabled timer usb : Bool) : State :=
  { s with timerEnabled := enabled, timerPending := timer, usbPending := usb }

/-- The write of `v` to SPI_OUT raises SCK with the card selected (43_spi_framer.md R191). -/
def risesSelected (s : State) (v : Byte) : Prop :=
  bitAt v s.cfg.spiCsBit = false ∧ s.spi.sck = false ∧ bitAt v s.cfg.spiSckBit = true

/-- The event is an SD dump, which has no effect and which a model may drop (44_sd_commands.md R210). -/
def Event.isSdDump : Event → Bool
  | .logSd _ _ => true
  | .consoleOut _ => false
  | .breakpointWrite _ => false
  | .logBusError _ _ _ => false
  | .logRomWrite _ _ _ => false
  | .logUnimplemented _ _ _ => false
  | .logAddressError _ _ _ => false

/-- `t` is `s` but for SD dumps at the end of its trace. -/
def upToDumps (s t : State) : Prop :=
  ∃ dumps : List Event, (∀ e ∈ dumps, e.isSdDump = true) ∧ t = { s with trace := s.trace ++ dumps }

/-- Card `t` is card `k` but for SD dumps at the end of the trace. -/
def cardUpToDumps (k t : Card) : Prop :=
  ∃ dumps : List Event, (∀ e ∈ dumps, e.isSdDump = true) ∧ t = { k with trace := k.trace ++ dumps }

/-- Card `after` is what the stream makes of card `before`, its next block being the `n` bytes of the disk at `off`
(45_sd_data_phase.md R254, R259): that block framed and queued, and the block number advanced; or IDLE with nothing
queued. A read out of bounds, or with no image, never succeeds; a read in bounds may fail only on an unreliable disk, and
no other read draws. -/
def streams (c : Cfg) (n off : Nat) (before after : Card) : Prop :=
  let inBounds := c.diskAttached = true ∧ off + n ≤ c.diskLen
  ∃ draws, (inBounds ∧ c.reliableDisk = false ∨ draws = before.draws) ∧
    (inBounds ∧ cardUpToDumps { before with
        sd := { before.sd with
          outBuf := [0xFE] ++ Memory.readRange before.disk off n ++ [0x00, 0x00], outPos := 0
          nextBlock := BitVec.ofNat 32 (before.sd.nextBlock.toNat +
            if c.cardHc ∨ c.legacyMultiStep = .one then 1 else n) }
        draws := draws } after ∨
      ¬(inBounds ∧ c.reliableDisk = true) ∧
        cardUpToDumps { before with sd := { before.sd with state := .idle }, draws := draws } after)

/-- The four regions, as half-open intervals (20_memory.md R62). -/
def regionIntervals (c : Cfg) : List (Nat × Nat) :=
  [(c.ramBase.toNat, c.ramBase.toNat + c.ramSize), (c.romBase.toNat, c.romBase.toNat + c.romSize),
    (c.expBase.toNat, c.expBase.toNat + c.expSize), (c.ioBase.toNat, c.ioLimit)]

/-- With whom a device register may share its address (30_encoding.md R103). -/
inductive Sharing
  | readOnly
  | writeOnly
  | never
deriving DecidableEq, Repr

/-- The device registers with their addresses (30_encoding.md R102, R103; 20_memory.md R72). -/
def deviceRegisters (c : Cfg) : List (Sharing × Nat) :=
  [(.readOnly, c.duartSrAddr.toNat), (.readOnly, c.duartRbAddr.toNat), (.readOnly, c.spiInAddr.toNat),
    (.writeOnly, c.duartTbAddr.toNat), (.writeOnly, c.duartImrAddr.toNat), (.writeOnly, c.usbCmdAddr.toNat),
    (.never, c.usbDataAddr.toNat), (.never, c.spiOutAddr.toNat)] ++
    (match c.expBankAddr with
      | none => []
      | some b => [(.never, b.toNat), (.never, b.toNat + 1), (.never, b.toNat + 2), (.never, b.toNat + 3)]) ++
    c.duartOtherAddrs.map fun a => (.never, a.toNat)

/-- `valid(Cfg)`, condition by condition (70_reset_and_hazards.md R302). DISK_LEN is the image's length by construction
(log 6). -/
structure ValidConfiguration (c : Cfg) : Prop where
  /-- 20_memory.md R63(a). -/
  inside : ∀ r ∈ regionIntervals c, r.2 ≤ 2 ^ 32
  /-- 20_memory.md R63(b): no address lies in two regions, so an empty one overlaps nothing (DEDUCED, log 12). -/
  disjoint : (regionIntervals c).Pairwise fun p q => ∀ a, ¬(p.1 ≤ a ∧ a < p.2 ∧ q.1 ≤ a ∧ a < q.2)
  /-- 20_memory.md R63(c). -/
  expSize : 1 ≤ c.expSize
  /-- 20_memory.md R63(d). -/
  romImage : c.romImage.length ≤ c.romSize
  /-- 20_memory.md R63(d): every byte of the image is a byte of RAM, so an empty one lies inside (DEDUCED, log 12). -/
  ramImage : ∀ i < c.ramImage.length, c.ramBase.toNat ≤ c.ramImageAddr.toNat + i ∧
    c.ramImageAddr.toNat + i < c.ramBase.toNat + c.ramSize
  /-- 20_memory.md R63(e), 30_encoding.md R103(a). -/
  registersInIo : ∀ r ∈ deviceRegisters c, c.ioBase.toNat ≤ r.2 ∧ r.2 < c.ioLimit
  /-- 30_encoding.md R103(b), (c): two registers have one address only if one is read-only and the other write-only. -/
  registersDistinct : (deviceRegisters c).Pairwise fun p q => p.2 = q.2 →
    (p.1 = .readOnly ∧ q.1 = .writeOnly) ∨ (p.1 = .writeOnly ∧ q.1 = .readOnly)
  statusBits : c.duartRxrdyBit ≠ c.duartTxrdyBit
  pinBits : c.spiCsBit ≠ c.spiSckBit ∧ c.spiCsBit ≠ c.spiMosiBit ∧ c.spiSckBit ≠ c.spiMosiBit
  levels : 1 ≤ c.timerIrqLevel ∧ c.timerIrqLevel ≤ 7 ∧ 1 ≤ c.usbIrqLevel ∧ c.usbIrqLevel ≤ 7
  maxBlockSize : 1 ≤ c.maxBlockSize
  cardBytes : c.cidBlock.length = 18 ∧ c.ocrTail.length = 3

/-- `t` is reached from `s` by some number of steps. -/
inductive Reaches (s : State) : State → Prop
  | here : Reaches s s
  | next {t u : State} (before : Reaches s t) (last : step t = .next u) : Reaches s u

/-- The invariant of the block. -/
structure State.Inv (s : State) : Prop where
  /-- 70_reset_and_hazards.md R302. -/
  cfg : validCfg s.cfg = true
  /-- The canonical form (10_state.md R21). -/
  ram : Memory.wf s.cfg.ramSize s.ram = true
  /-- The canonical form (10_state.md R22). -/
  rom : Memory.wf s.cfg.romSize s.rom = true
  /-- The canonical form (10_state.md R23). -/
  exp : Memory.wf s.cfg.expSize s.exp = true
  /-- The canonical form, and the length never changes (10_state.md R42). -/
  disk : Memory.wf s.cfg.diskLen s.disk = true
  /-- 10_state.md R34. -/
  blockSize : s.sd.blockSize = 512 ∨ (1 ≤ s.sd.blockSize.toNat ∧ s.sd.blockSize.toNat ≤ s.cfg.maxBlockSize)
  /-- 10_state.md R35; 45_sd_data_phase.md R261. -/
  output : s.sd.outPos ≤ s.sd.outBuf.length
  /-- 10_state.md R36. -/
  inCount : s.sd.inCount = s.sd.inBuf.length
  /-- A block being received is not complete, and no other state holds one (10_state.md R36; 45_sd_data_phase.md
  R257, R258). -/
  inBuf : if s.sd.state = .receivingBlock then s.sd.inCount < s.sd.blockSize.toNat + 2 else s.sd.inBuf = []
  /-- 44_sd_commands.md R235. -/
  session : s.sd.state ≠ .ident ∧ s.sd.state ≠ .data ∧ s.sd.state ≠ .receive ∧ s.sd.state ≠ .program
  /-- While the card is deselected no bit is held (43_spi_framer.md R192, R198). -/
  framer : s.spi.csN = true → s.spi.count = 0 ∧ s.spi.shiftIn = 0
  /-- One outcome an operation, and none from a marked state (60_exceptions.md R271, R276). -/
  marks : s.fault = none ∨ s.refused = none

end Sys2Proof.Machine
end

