-- ==== Sys2Proof/Certificates/Slice0/Obligations.lean ====
section
/-! DEFINITION. The statements about the block, one definition each. A number after "log" is an entry of
notes/assumptions. The field `reply` is the model's (log 3): it holds what a call returns, and where a host event or a
raise returns nothing, a statement says only that some reply stands there. -/

open Sys2Proof Sys2Proof.Machine

/-! ## The step and the decoder -/

/-- A step runs the call at the head of the script: the instruction its word decodes to, from the state past the call
(20_memory.md R80). The script, the refusal where it is empty, and the refusal of an invalid configuration are the
model's (log 2, 12). -/
def Obligations.StepRunsTheDecodedInstruction : Prop :=
  ∀ (s : State) (k : Call) (rest : List Call), s.calls = k :: rest →
    (validCfg s.cfg = true → ∀ i, decodeCall s.cfg k = .ok i → step s = exec i { s with calls := rest }) ∧
    (validCfg s.cfg = false → step s = .refused .invalidConfiguration)

/-- 30_encoding.md R100: the ten transaction codes, and the refusal of every other one. -/
def Obligations.TransactionCodes : Prop :=
  ∀ (c : Cfg) (k : Call),
    (k.tcode = 0x00 → decodeCall c k = .ok (decodeByteRead c k.address)) ∧
    (k.tcode = 0x01 → decodeCall c k = .ok (.readWord k.address)) ∧
    (k.tcode = 0x02 → decodeCall c k = .ok (.readLong k.address)) ∧
    (k.tcode = 0x40 → decodeCall c k = .ok (decodeByteWrite c k.address (k.value.extractLsb' 0 8))) ∧
    (k.tcode = 0x41 → decodeCall c k = .ok (.writeWord k.address (k.value.extractLsb' 0 16))) ∧
    (k.tcode = 0x42 → decodeCall c k = .ok (.writeLong k.address k.value)) ∧
    (k.tcode = 0x80 → decodeCall c k = .ok (.iack k.value)) ∧
    (k.tcode = 0xC0 → decodeCall c k = .ok (.hostIn (k.value.extractLsb' 0 8))) ∧
    (k.tcode = 0xC4 → decodeCall c k = .ok .tick) ∧
    (k.tcode = 0xC8 → decodeCall c k = .ok (.setbank k.value)) ∧
    (k.tcode ∉ [0x00, 0x01, 0x02, 0x40, 0x41, 0x42, 0x80, 0xC0, 0xC4, 0xC8] →
      ∀ (s : State) (rest : List Call), s.cfg = c → validCfg c = true → s.unmarked → s.calls = k :: rest →
        step s = .next { s with calls := rest, refused := some (.reservedTransaction k.tcode), reply := .silent })

/-- Words written out from the spec's encodings decode to the instructions they stand for, under EX (30_encoding.md
R100, R108, R111; 44_sd_commands.md R216, R224; 41_duart.md R161; the layout of a call's word is log 4). -/
def Obligations.SampleWordsDecode : Prop :=
  decodeTableWord 72 0x0000001001 = some (.readWord 0x00000010) ∧
    decodeTableWord 72 0x4100F0000740 = some (.duartDataWrite 0x00F00007 0x41) ∧
    decodeTableWord 72 0x00F0000300 = some (.duartStatusRead 0x00F00003) ∧
    decodeTableWord 8 0xC4 = some .tick ∧
    decodeTableWord 48 0x400000000095 = some (.cmd0 0x00000000 0x4A) ∧
    decodeTableWord 48 0x510000000101 = some (.cmd17 0x00000001 0x00) ∧
    decodeTableWord 48 0x694000000077 = some (.cmd41 0x40000000 0x3B) ∧
    decodeTableWord 48 0x42000000004D = some (.cmdUnrecognized 2 0x00000000 0x26) ∧
    decodeTableWord 48 0x000000000000 = none

/-- The decoder reads back every well-formed instruction from its own word, under any configuration and any
application-command flag, with every operand at every value. -/
def Obligations.DecodeAfterEncode : Prop :=
  ∀ (c : Cfg) (app : Bool) (i : Instr), i.wellFormed c app = true → decode c app (encode i) = .ok i

/-- Whatever the decoder reads is well-formed, and no bit of a frame is dropped: the frame is the encoding of what was
read from it. -/
def Obligations.EncodeAfterDecode : Prop :=
  ∀ (c : Cfg) (app : Bool) (e : Encoded) (i : Instr), decode c app e = .ok i →
    i.wellFormed c app = true ∧ decode c app (encode i) = .ok i ∧ ∀ f, e = .frame f → encode i = e

/-- 30_encoding.md R109: which windows are valid frames. -/
def Obligations.FrameValidity : Prop :=
  ∀ (app : Bool) (f : Window),
    (∃ i, decodeFrame app f = .ok i) ↔ (f.b0 &&& 0xC0 = 0x40 ∧ f.b5 &&& 0x01 = 0x01)

/-- A byte access in the I/O window does what the row of the register it selects does (20_memory.md R75, R76): the
`read_byte` and `write_byte` rows and the register rows agree there (log 10). Which row that is, under a valid
configuration: the regions are their intervals (20_memory.md R62, R64), and in the I/O window a read and a write select
by address as the table of R76 says, a read the read-only register of a shared pair and a write the write-only one
(30_encoding.md R103). -/
def Obligations.ByteAccessRunsItsRegisterRow : Prop :=
  (∀ (s : State) (address : Addr) (v : Byte), classify s.cfg (maskAddr s.cfg address).toNat = .io →
    exec (.readByte address) s = exec (decodeByteRead s.cfg address) s ∧
      exec (.writeByte address v) s = exec (decodeByteWrite s.cfg address v) s) ∧
  ∀ c : Cfg, validCfg c = true →
    (∀ a : Nat,
      (classify c a = .ram ↔ c.ramBase.toNat ≤ a ∧ a < c.ramBase.toNat + c.ramSize) ∧
      (classify c a = .rom ↔ c.romBase.toNat ≤ a ∧ a < c.romBase.toNat + c.romSize) ∧
      (classify c a = .exp ↔ c.expBase.toNat ≤ a ∧ a < c.expBase.toNat + c.expSize) ∧
      (classify c a = .io ↔ c.ioBase.toNat ≤ a ∧ a < c.ioLimit)) ∧
    ∀ (address : Addr) (v : Byte),
      let a := address &&& c.addrMask
      let readOnly := [c.duartSrAddr, c.duartRbAddr, c.spiInAddr]
      let writeOnly := [c.duartTbAddr, c.duartImrAddr, c.usbCmdAddr]
      let inBank := ∃ b, c.expBankAddr = some b ∧ b.toNat ≤ a.toNat ∧ a.toNat < b.toNat + 4
      (∀ r ∈ [(c.duartSrAddr, Instr.duartStatusRead address), (c.duartRbAddr, .duartDataRead address),
          (c.spiInAddr, .spiInRead address), (c.usbDataAddr, .usbDataRead address),
          (c.spiOutAddr, .spiOutRead address)],
        a = r.1 → decodeByteRead c address = r.2) ∧
      (∀ r ∈ [(c.duartTbAddr, Instr.duartOtherRead address), (c.duartImrAddr, .duartOtherRead address),
          (c.usbCmdAddr, .usbCmdRead address)],
        a = r.1 → a ∉ readOnly → decodeByteRead c address = r.2) ∧
      (a ∈ c.duartOtherAddrs → decodeByteRead c address = .duartOtherRead address) ∧
      (inBank → decodeByteRead c address = .expBankRead address) ∧
      (∀ r ∈ [(c.duartTbAddr, Instr.duartDataWrite address v), (c.duartImrAddr, .duartImrWrite address v),
          (c.usbCmdAddr, .usbCmdWrite address v), (c.usbDataAddr, .usbDataWrite address v),
          (c.spiOutAddr, .spiOutWrite address v)],
        a = r.1 → decodeByteWrite c address v = r.2) ∧
      (∀ r ∈ [(c.duartSrAddr, Instr.duartOtherWrite address v), (c.duartRbAddr, .duartOtherWrite address v),
          (c.spiInAddr, .spiInWrite address v)],
        a = r.1 → a ∉ writeOnly → decodeByteWrite c address v = r.2) ∧
      (a ∈ c.duartOtherAddrs → decodeByteWrite c address v = .duartOtherWrite address v) ∧
      (inBank → decodeByteWrite c address v = .expBankWrite address v) ∧
      (c.ioBase.toNat ≤ a.toNat ∧ a.toNat < c.ioLimit →
        a ∉ readOnly ++ writeOnly ++ [c.usbDataAddr, c.spiOutAddr] ++ c.duartOtherAddrs → ¬ inBank →
        decodeByteRead c address = .ioUnimplementedRead address ∧
          decodeByteWrite c address v = .ioUnimplementedWrite address v) ∧
      (¬ (c.ioBase.toNat ≤ a.toNat ∧ a.toNat < c.ioLimit) →
        decodeByteRead c address = .readByte address ∧ decodeByteWrite c address v = .writeByte address v)

/-! ## Reset and the invariant -/

/-- 70_reset_and_hazards.md R300 to R302: which configurations are valid, that an invalid one has no run, and what a
valid one leaves in every piece of state. `r` holds the drawn bytes and the disk image, as pairs over 0x00 (log 6).
DISK_LEN is the image's length by construction (log 6), and an empty RAM_IMAGE lies inside RAM (log 12). -/
def Obligations.ResetContents : Prop :=
  ∀ (c : Cfg) (r : ResetInputs),
    (validCfg c = true ↔ ValidConfiguration c) ∧
    (¬ ValidConfiguration c → State.boot c r = none) ∧
    (ValidConfiguration c → ∃ s, State.boot c r = some s ∧ s.cfg = c ∧
      (∀ i, Memory.read s.ram i =
        if c.ramImageAddr.toNat - c.ramBase.toNat ≤ i ∧
            i < c.ramImageAddr.toNat - c.ramBase.toNat + c.ramImage.length then
          c.ramImage.getD (i - (c.ramImageAddr.toNat - c.ramBase.toNat)) 0
        else Memory.read (Memory.ofCells c.ramSize r.ramDraw) i) ∧
      (∀ i, Memory.read s.rom i =
        if i < c.romImage.length then c.romImage.getD i 0
        else Memory.read (Memory.ofCells c.romSize r.romDraw) i) ∧
      s.exp = Memory.ofCells c.expSize r.expDraw ∧ s.expBank = c.expBankReset ∧
      s.timerEnabled = true ∧ s.timerPending = false ∧ s.usbPending = false ∧
      s.hostIn = [] ∧ s.usb = c.usbHandler.init ∧
      s.spi.csN = true ∧ s.spi.sck = false ∧ s.spi.mosi = true ∧
      s.spi.shiftIn = 0x00 ∧ s.spi.count = 0 ∧ s.spi.shiftOut = 0xFF ∧
      s.sd.state = .idle ∧ s.sd.blockSize = 512 ∧ s.sd.outBuf = [] ∧ s.sd.outPos = 0 ∧
      s.sd.inBuf = [] ∧ s.sd.inCount = 0 ∧ s.sd.nextBlock = 0 ∧ s.sd.wrBlock = 0 ∧
      s.sd.appCmd = false ∧ s.sd.win = ⟨0, 0, 0, 0, 0, 0⟩ ∧
      (c.diskAttached = true → s.disk = Memory.ofCells c.diskLen r.diskImage) ∧
      s.fault = none ∧ s.refused = none ∧ s.trace = [])

/-- The reset state meets the invariant, and so does the start of every valid configuration, with any drawn bytes and
any disk image (70_reset_and_hazards.md R302). The first clause rests on the configuration and the zero bytes the model
resets with (log 1, 6). -/
def Obligations.ResetKeepsInv : Prop :=
  State.reset.Inv ∧ ∀ (c : Cfg) (r : ResetInputs) (s : State), State.boot c r = some s → s.Inv

/-- Every step keeps the invariant: the arrays stay canonical and no longer than their size, the block size legal, the
output cursor within the output, the input buffer within its block, the session out of the four states no rule enters,
no bit held while the card is deselected, and at most one mark set. -/
def Obligations.StepKeepsInv : Prop := ∀ s t : State, s.Inv → step s = .next t → t.Inv

/-- 45_sd_data_phase.md R261: the output cursor never passes the end of the output. -/
def Obligations.OutputCursorStaysInside : Prop :=
  ∀ (i : Instr) (s t : State), s.sd.outPos ≤ s.sd.outBuf.length → exec i s = .next t →
    t.sd.outPos ≤ t.sd.outBuf.length

/-- 44_sd_commands.md R235: no rule enters IDENT, DATA, RECEIVE or PROGRAM. -/
def Obligations.FourStatesNeverEntered : Prop :=
  ∀ (i : Instr) (s t : State), exec i s = .next t →
    t.sd.state ∈ [SdState.ident, .data, .receive, .program] → t.sd.state = s.sd.state

/-- Two arrays in canonical form that read alike are one array, so equal memories are equal data. -/
def Obligations.CanonicalArraysAreDetermined : Prop :=
  ∀ (n : Nat) (m m' : Memory), Memory.wf n m = true → Memory.wf n m' = true →
    (∀ i < n, Memory.read m i = Memory.read m' i) → m = m'

/-! ## Marks -/

/-- 60_exceptions.md R271: a marked state has no step; and an operation that raises leaves everything as it was but the
mark and the events before the raise. The mark shows a code that R270 lists. -/
def Obligations.RaiseKeepsState : Prop :=
  ∀ s : State, (∀ t, step s = .next t → s.unmarked) ∧
    ∀ (i : Instr) (t : State), exec i s = .next t →
      s.unmarked ∧
      (¬ t.unmarked →
        t = { s with fault := t.fault, refused := t.refused, trace := t.trace, reply := t.reply } ∧
        (∃ events, t.trace = s.trace ++ events) ∧ (t.fault = none ∨ t.refused = none) ∧
        t.outcomeCode ∈ [some 0x10, some 0x11, some 0x20, some 0x21, some 0x22, some 0x23, some 0x24, some 0x25])

/-- What an operation answers from a marked state: the marked outcome, again (log 8). -/
def Obligations.MarkedStateAnswersItsMark : Prop :=
  ∀ (i : Instr) (s : State),
    (∀ f, s.fault = some f → exec i s = .fault f) ∧
    (∀ r, s.fault = none → s.refused = some r → exec i s = .refused r)

/-! ## The bus -/

/-- 20_memory.md R65, R70: a read of RAM, ROM or expansion RAM answers its bytes, most significant first, and changes
nothing. -/
def Obligations.MemoryReads : Prop :=
  ∀ (s : State) (n : Width) (address : Addr), s.unmarked →
    let a := maskAddr s.cfg address
    (lies s.cfg a n .ram → ∃ v, exec (readOf n address) s = .next { s with reply := .okValue v } ∧
      v.toNat = beSum n.bytes fun i => Memory.read s.ram (a.toNat + i - s.cfg.ramBase.toNat)) ∧
    (lies s.cfg a n .rom → ∃ v, exec (readOf n address) s = .next { s with reply := .okValue v } ∧
      v.toNat = beSum n.bytes fun i => Memory.read s.rom (a.toNat + i - s.cfg.romBase.toNat)) ∧
    (lies s.cfg a n .exp → ∃ v, exec (readOf n address) s = .next { s with reply := .okValue v } ∧
      v.toNat = beSum n.bytes fun i => Memory.read s.exp (expPhys s.cfg s.expBank (a.toNat + i)))

/-- 20_memory.md R66: a RAM write stores the bytes of the value, most significant first, at the access's own addresses,
and changes no other byte; it emits the breakpoint event first (R78). -/
def Obligations.RamWrites : Prop :=
  ∀ (s : State) (n : Width) (address : Addr) (v : BitVec 32), s.unmarked →
    Memory.wf s.cfg.ramSize s.ram = true →
    let a := maskAddr s.cfg address
    lies s.cfg a n .ram →
    ∃ ram, exec (writeOf n address v) s =
        .next { s with ram := ram, trace := s.trace ++ [.breakpointWrite a], reply := .ok } ∧
      ∀ j, Memory.read ram j =
        let lo := a.toNat - s.cfg.ramBase.toNat
        if lo ≤ j ∧ j < lo + n.bytes then
          BitVec.ofNat 8 (v.toNat / 2 ^ (8 * (n.bytes - 1 - (j - lo))))
        else Memory.read s.ram j

/-- 20_memory.md R73: a write to the expansion window stores each byte at its own physical index (the last one stored
stays where two bytes share an index) and nothing elsewhere, a read takes each byte from its own index, and the two
offset modes agree when EXP_BASE is a multiple of EXP_SIZE. -/
def Obligations.ExpansionWindow : Prop :=
  ∀ (s : State) (n : Width) (address : Addr) (v : BitVec 32), s.unmarked → 0 < s.cfg.expSize →
    Memory.wf s.cfg.expSize s.exp = true →
    let a := maskAddr s.cfg address
    let phys := fun i => ((match s.cfg.expOffsetMode with
      | .absolute => a.toNat + i
      | .relative => a.toNat + i - s.cfg.expBase.toNat) + s.expBank.toNat) % s.cfg.expSize
    lies s.cfg a n .exp →
    (∃ exp, exec (writeOf n address v) s =
        .next { s with exp := exp, trace := s.trace ++ [.breakpointWrite a], reply := .ok } ∧
      (∀ i < n.bytes, (∀ j < n.bytes, i < j → phys j ≠ phys i) →
        Memory.read exp (phys i) = BitVec.ofNat 8 (v.toNat / 2 ^ (8 * (n.bytes - 1 - i)))) ∧
      ∀ p, (∀ i < n.bytes, p ≠ phys i) → Memory.read exp p = Memory.read s.exp p) ∧
    (∃ w, exec (readOf n address) s = .next { s with reply := .okValue w } ∧
      w.toNat = beSum n.bytes fun i => Memory.read s.exp (phys i)) ∧
    (s.cfg.expSize ∣ s.cfg.expBase.toNat → ∀ i < n.bytes,
      phys i = (a.toNat + i + s.expBank.toNat) % s.cfg.expSize)

/-- 20_memory.md R87: a value written to RAM or expansion RAM reads back, cut to the width, from any later state that
has the same arrays and the same bank. -/
def Obligations.WrittenValueReadsBack : Prop :=
  ∀ (s t u : State) (n : Width) (address : Addr) (v : BitVec 32),
    Memory.wf s.cfg.ramSize s.ram = true → Memory.wf s.cfg.expSize s.exp = true →
    (lies s.cfg (maskAddr s.cfg address) n .ram ∨
      lies s.cfg (maskAddr s.cfg address) n .exp ∧ n.bytes ≤ s.cfg.expSize) →
    exec (writeOf n address v) s = .next t →
    u.cfg = t.cfg → u.ram = t.ram → u.exp = t.exp → u.expBank = t.expBank → u.unmarked →
    exec (readOf n address) u = .next { u with reply := .okValue (truncated n v) }

/-- 20_memory.md R71: a ROM write answers `ok`, emits its two events, and changes nothing. -/
def Obligations.RomWritesAreDiscarded : Prop :=
  ∀ (s : State) (n : Width) (address : Addr) (v : BitVec 32), s.unmarked →
    lies s.cfg (maskAddr s.cfg address) n .rom →
    exec (writeOf n address v) s = .next { s with
      trace := s.trace ++ [.breakpointWrite (maskAddr s.cfg address),
        .logRomWrite (maskAddr s.cfg address) n (truncated n v)]
      reply := .ok }

/-- 20_memory.md R88: no run changes a ROM byte (or the configuration), so a ROM byte read after any run answers what the
byte held at its start. -/
def Obligations.RomNeverChanges : Prop :=
  ∀ s t : State, Reaches s t →
    t.rom = s.rom ∧ t.cfg = s.cfg ∧
    (t.unmarked → ∀ address : Addr, classify s.cfg (maskAddr s.cfg address).toNat = .rom →
      exec (.readByte address) t = .next { t with
        reply := .okValue
          ((Memory.read s.rom ((maskAddr s.cfg address).toNat - s.cfg.romBase.toNat)).setWidth 32) })

/-- 20_memory.md R74: an access whose bytes are all unmapped answers zero, or nothing, with the bus-error tag, emits its
event and changes nothing. -/
def Obligations.UnmappedAccesses : Prop :=
  ∀ (s : State) (n : Width) (address : Addr) (v : BitVec 32), s.unmarked →
    lies s.cfg (maskAddr s.cfg address) n .unmapped →
    exec (readOf n address) s = .next { s with
        trace := s.trace ++ [.logBusError (maskAddr s.cfg address) n .read], reply := .okBusErrorValue 0 } ∧
      exec (writeOf n address v) s = .next { s with
        trace := s.trace ++ [.logBusError (maskAddr s.cfg address) n .write], reply := .okBusError }

/-- 20_memory.md R67, 60_exceptions.md R272: a word or long access at an odd address is an address error, or the refusal
of an unchecked one, in every region and before anything else; and no other bus access is either. -/
def Obligations.Misalignment : Prop :=
  ∀ (s : State) (n : Width) (address : Addr) (v : BitVec 32), s.unmarked →
    let a := maskAddr s.cfg address
    (¬ aligned a n → s.cfg.addrErrCheck = true →
      (∃ y, exec (readOf n address) s = .next { s with
          fault := some (.addressError a n .read), trace := s.trace ++ [.logAddressError a n .read], reply := y }) ∧
        ∃ y, exec (writeOf n address v) s = .next { s with
          fault := some (.addressError a n .write), trace := s.trace ++ [.logAddressError a n .write], reply := y }) ∧
    (¬ aligned a n → s.cfg.addrErrCheck = false →
      (∃ y, exec (readOf n address) s =
          .next { s with refused := some (.misalignedUnchecked a n .read), reply := y }) ∧
        ∃ y, exec (writeOf n address v) s =
          .next { s with refused := some (.misalignedUnchecked a n .write), reply := y }) ∧
    (aligned a n → ∀ i ∈ [readOf n address, writeOf n address v], ∀ t, exec i s = .next t →
      ∀ d, t.fault ≠ some (.addressError a n d) ∧ t.refused ≠ some (.misalignedUnchecked a n d))

/-- 20_memory.md R68: an aligned access one of whose bytes is past 2^32, lost to the mask, or in another region than the
first is refused. -/
def Obligations.StraddleIsRefused : Prop :=
  ∀ (s : State) (n : Width) (address : Addr) (v : BitVec 32), s.unmarked →
    let a := maskAddr s.cfg address
    aligned a n → (∃ i < n.bytes, ¬ byteIn s.cfg a (classify s.cfg a.toNat) i) →
    (∃ y, exec (readOf n address) s = .next { s with refused := some (.straddle a n), reply := y }) ∧
      ∃ y, exec (writeOf n address v) s = .next { s with refused := some (.straddle a n), reply := y }

/-- 20_memory.md R77: a word or long access to the I/O window is refused. -/
def Obligations.WideIoIsRefused : Prop :=
  ∀ (s : State) (n : Width) (address : Addr) (v : BitVec 32), s.unmarked → n ≠ .byte →
    let a := maskAddr s.cfg address
    lies s.cfg a n .io →
    (∃ y, exec (readOf n address) s = .next { s with refused := some (.ioWidth a n .read), reply := y }) ∧
      ∃ y, exec (writeOf n address v) s = .next { s with refused := some (.ioWidth a n .write), reply := y }

/-- 20_memory.md R72: SETBANK sets the expansion base; a byte write at EXP_BANK_ADDR + i replaces byte i, most
significant first, and a byte read returns it; and nothing else changes it, so nothing but SETBANK where there is no
EXP_BANK_ADDR. -/
def Obligations.ExpansionBaseRegister : Prop :=
  (∀ (s : State) (v : BitVec 32), s.unmarked →
    ∃ y, exec (.setbank v) s = .next { s with expBank := v, reply := y }) ∧
  (∀ (s : State) (b : Addr) (i : Nat) (address : Addr) (v : Byte), s.unmarked → s.cfg.expBankAddr = some b → i < 4 →
    (maskAddr s.cfg address).toNat = b.toNat + i →
    (∃ w, exec (.expBankWrite address v) s = .next { s with expBank := w, reply := .ok } ∧
      ∀ k, w.getLsbD k =
        if 24 - 8 * i ≤ k ∧ k < 32 - 8 * i then v.getLsbD (k - (24 - 8 * i)) else s.expBank.getLsbD k) ∧
    ∃ w : Byte, exec (.expBankRead address) s = .next { s with reply := .okValue (w.setWidth 32) } ∧
      w.toNat = s.expBank.toNat / 2 ^ (24 - 8 * i) % 256) ∧
  ∀ (i : Instr) (s t : State), exec i s = .next t → t.expBank ≠ s.expBank →
    (∃ v, i = .setbank v) ∨
      ∃ (b address : Addr) (v : Byte), s.cfg.expBankAddr = some b ∧
        b.toNat ≤ (maskAddr s.cfg address).toNat ∧ (maskAddr s.cfg address).toNat < b.toNat + 4 ∧
        (i = .expBankWrite address v ∨
          i = .writeByte address v ∧ classify s.cfg (maskAddr s.cfg address).toNat = .io)

/-! ## Interrupts -/

/-- 60_exceptions.md R281: an acknowledge clears one pending source of its level and answers its vector, and answers the
spurious vector where none is pending. -/
def Obligations.Acknowledge : Prop :=
  ∀ (s : State) (l : BitVec 32), s.unmarked →
    (l.toNat = s.cfg.timerIrqLevel ∧ s.timerPending = true →
      exec (.iack l) s =
        .next { s with timerPending := false, reply := .okValue (s.cfg.timerVector.setWidth 32) }) ∧
    (¬(l.toNat = s.cfg.timerIrqLevel ∧ s.timerPending = true) → l.toNat = s.cfg.usbIrqLevel → s.usbPending = true →
      exec (.iack l) s =
        .next { s with usbPending := false, reply := .okValue (s.cfg.usbVector.setWidth 32) }) ∧
    (¬(l.toNat = s.cfg.timerIrqLevel ∧ s.timerPending = true) →
      ¬(l.toNat = s.cfg.usbIrqLevel ∧ s.usbPending = true) →
      exec (.iack l) s = .next { s with reply := .okValue (s.cfg.spuriousVector.setWidth 32) })

/-- 60_exceptions.md R282: of two pending requests the acknowledge at the level shown takes the higher, and the other
then shows; at one level the timer goes first and the USB source next. -/
def Obligations.SimultaneousRequests : Prop :=
  ∀ (s : State) (l : BitVec 32), s.unmarked → s.timerPending = true → s.usbPending = true → l.toNat = ipl s →
    (s.cfg.usbIrqLevel < s.cfg.timerIrqLevel → ipl s = s.cfg.timerIrqLevel ∧
      ∃ t, exec (.iack l) s = .next t ∧ t.reply = .okValue (s.cfg.timerVector.setWidth 32) ∧
        t.timerPending = false ∧ t.usbPending = true ∧ ipl t = s.cfg.usbIrqLevel) ∧
    (s.cfg.timerIrqLevel < s.cfg.usbIrqLevel → ipl s = s.cfg.usbIrqLevel ∧
      ∃ t, exec (.iack l) s = .next t ∧ t.reply = .okValue (s.cfg.usbVector.setWidth 32) ∧
        t.usbPending = false ∧ t.timerPending = true ∧ ipl t = s.cfg.timerIrqLevel) ∧
    (s.cfg.timerIrqLevel = s.cfg.usbIrqLevel →
      ∃ t u, exec (.iack l) s = .next t ∧ t.reply = .okValue (s.cfg.timerVector.setWidth 32) ∧ ipl t = ipl s ∧
        exec (.iack l) t = .next u ∧ u.reply = .okValue (s.cfg.usbVector.setWidth 32) ∧ ipl u = 0)

/-- 60_exceptions.md R280: a tick makes a timer request while the timer is enabled, and is lost otherwise. -/
def Obligations.TimerTick : Prop :=
  ∀ s : State, s.unmarked →
    (s.timerEnabled = true → ∃ y, exec .tick s = .next { s with timerPending := true, reply := y }) ∧
    (s.timerEnabled = false → ∃ y, exec .tick s = .next { s with reply := y })

/-- 60_exceptions.md R279: the request output is the highest pending level, 0 with none pending. -/
def Obligations.RequestOutput : Prop :=
  ∀ s : State,
    (ipl s = 0 ∨ (s.timerPending = true ∧ ipl s = s.cfg.timerIrqLevel) ∨
      (s.usbPending = true ∧ ipl s = s.cfg.usbIrqLevel)) ∧
    (s.timerPending = true → s.cfg.timerIrqLevel ≤ ipl s) ∧ (s.usbPending = true → s.cfg.usbIrqLevel ≤ ipl s)

/-- 60_exceptions.md R278: a pending flag is set only by its source, and cleared only by an acknowledge at its level. -/
def Obligations.PendingFlagsChangeOnlySo : Prop :=
  ∀ (i : Instr) (s t : State), exec i s = .next t →
    (s.timerPending = false → t.timerPending = true → i = .tick ∧ s.timerEnabled = true) ∧
    (s.timerPending = true → t.timerPending = false → ∃ l, i = .iack l ∧ l.toNat = s.cfg.timerIrqLevel) ∧
    (s.usbPending = false → t.usbPending = true → ∃ (address : Addr) (b : Byte),
      ((i = .usbCmdWrite address b ∨
          i = .writeByte address b ∧ writeRow s.cfg (maskAddr s.cfg address) = .usbCmd) ∧
        (s.cfg.usbHandler.cmdWrite s.usb (handlerDisk s) b).2.2 = true) ∨
      ((i = .usbDataWrite address b ∨
          i = .writeByte address b ∧ writeRow s.cfg (maskAddr s.cfg address) = .usbData) ∧
        (s.cfg.usbHandler.dataWrite s.usb (handlerDisk s) b).2.2 = true)) ∧
    (s.usbPending = true → t.usbPending = false → ∃ l, i = .iack l ∧ l.toNat = s.cfg.usbIrqLevel)

/-- 60_exceptions.md R292: what a bus read answers and does is the same whatever the pending and enable flags are, and it
leaves them as they are. -/
def Obligations.InterruptStateIsNotReadable : Prop :=
  ∀ (address : Addr) (i : Instr) (s t : State) (enabled timer usb : Bool), i ∈ busReads address →
    exec i s = .next t →
    exec i (s.withInterrupts enabled timer usb) = .next (t.withInterrupts enabled timer usb)

/-! ## The DUART -/

/-- 41_duart.md R161, 30_encoding.md R104: the status byte, and nothing else happens. -/
def Obligations.DuartStatus : Prop :=
  ∀ (s : State) (address : Addr), s.unmarked →
    ∃ v : Byte, exec (.duartStatusRead address) s = .next { s with reply := .okValue (v.setWidth 32) } ∧
      ∀ k < 8, v.getLsbD k =
        (decide (k = s.cfg.duartTxrdyBit.val) ||
          (decide (k = s.cfg.duartRxrdyBit.val) && decide (s.hostIn ≠ [])))

/-- 41_duart.md R162: a receive-data read answers the oldest pending character and removes it; with none pending it is a
fault. -/
def Obligations.DuartReceive : Prop :=
  ∀ (s : State) (address : Addr), s.unmarked →
    (∀ b rest, s.hostIn = b :: rest →
      exec (.duartDataRead address) s = .next { s with hostIn := rest, reply := .okValue (b.setWidth 32) }) ∧
    (s.hostIn = [] → ∃ y, exec (.duartDataRead address) s =
      .next { s with fault := some (.duartEmptyRead s.cfg.duartRbAddr), reply := y })

/-- 41_duart.md R168: after a status read that shows RxRDY a receive-data read answers the oldest character and never
faults; without such a poll it faults exactly when no character is pending. -/
def Obligations.PollThenReceive : Prop :=
  ∀ (s : State) (address address' : Addr), s.unmarked → validCfg s.cfg = true →
    (∀ t v, exec (.duartStatusRead address) s = .next t → t.reply = .okValue v →
      v.getLsbD s.cfg.duartRxrdyBit.val = true →
      ∃ b rest, s.hostIn = b :: rest ∧
        exec (.duartDataRead address') t = .next { t with hostIn := rest, reply := .okValue (b.setWidth 32) }) ∧
    ((∃ t, exec (.duartDataRead address') s = .next t ∧ t.fault ≠ none) ↔ s.hostIn = [])

/-- 41_duart.md R163: a transmit-data write emits its one character. -/
def Obligations.DuartTransmit : Prop :=
  ∀ (s : State) (address : Addr) (b : Byte), s.unmarked →
    exec (.duartDataWrite address b) s = .next { s with trace := s.trace ++ [.consoleOut b], reply := .ok }

/-- 41_duart.md R164: a zero mask disables the timer source; a non-zero one enables it only under
IMR_NONZERO_ENABLES; a pending tick stays pending. -/
def Obligations.DuartInterruptMask : Prop :=
  ∀ (s : State) (address : Addr) (b : Byte), s.unmarked →
    (b = 0x00 → exec (.duartImrWrite address b) s = .next { s with timerEnabled := false, reply := .ok }) ∧
    (b ≠ 0x00 → s.cfg.imrNonzeroEnables = true →
      exec (.duartImrWrite address b) s = .next { s with timerEnabled := true, reply := .ok }) ∧
    (b ≠ 0x00 → s.cfg.imrNonzeroEnables = false →
      exec (.duartImrWrite address b) s = .next { s with reply := .ok })

/-- 41_duart.md R165 and R166, 42_usb_bridge.md R184, 20_memory.md R76: an access with no modelled effect is logged, and
changes nothing; a read answers some byte, whichever the draw gives (log 5). -/
def Obligations.UnimplementedAccesses : Prop :=
  ∀ (s : State) (address : Addr) (b : Byte), s.unmarked →
    (∀ i ∈ [Instr.duartOtherWrite address b, .ioUnimplementedWrite address b],
      exec i s = .next { s with
        trace := s.trace ++ [.logUnimplemented (maskAddr s.cfg address) .write b], reply := .ok }) ∧
    (∀ i ∈ [Instr.duartOtherRead address, .ioUnimplementedRead address], ∃ (v : Byte) (draws : Nat),
      exec i s = .next { s with
        trace := s.trace ++ [.logUnimplemented (maskAddr s.cfg address) .read 0], draws := draws
        reply := .okValue (v.setWidth 32) }) ∧
    ∃ (v : Byte) (draws : Nat),
      exec (.usbCmdRead address) s = .next { s with
        trace := s.trace ++ [.logUnimplemented s.cfg.usbCmdAddr .read 0], draws := draws
        reply := .okValue (v.setWidth 32) }

/-- 41_duart.md R167: a host character joins the end of the input. -/
def Obligations.HostInput : Prop :=
  ∀ (s : State) (b : Byte), s.unmarked →
    ∃ y, exec (.hostIn b) s = .next { s with hostIn := s.hostIn ++ [b], reply := y }

/-! ## The USB bridge -/

/-- 42_usb_bridge.md R181 to R183, R185, R186: a written byte goes to the handler, whose answer may set the request and
never clears it; a read takes the handler's byte. Where the disk is shared, the handler is passed it and the disk follows
the handler; where it is not, the two never interact: the handler is passed an empty one (log 7), so that what it does is
the same for every disk, and the disk stays. A handler's disk that is no canonical array is cut to one (log 7), so the
shared disk is stated for canonical ones. -/
def Obligations.UsbRegisters : Prop :=
  ∀ (s : State) (address : Addr) (b : Byte), s.unmarked →
    let passed := if s.cfg.usbSharesDisk then s.disk else []
    let follows := fun after disk : Memory =>
      (s.cfg.usbSharesDisk = false → disk = s.disk) ∧
        (s.cfg.usbSharesDisk = true → Memory.wf s.cfg.diskLen after = true → disk = after)
    (∃ disk, exec (.usbCmdWrite address b) s = .next { s with
        usb := (s.cfg.usbHandler.cmdWrite s.usb passed b).1, disk := disk
        usbPending := s.usbPending || (s.cfg.usbHandler.cmdWrite s.usb passed b).2.2, reply := .ok } ∧
      follows (s.cfg.usbHandler.cmdWrite s.usb passed b).2.1 disk) ∧
    (∃ disk, exec (.usbDataWrite address b) s = .next { s with
        usb := (s.cfg.usbHandler.dataWrite s.usb passed b).1, disk := disk
        usbPending := s.usbPending || (s.cfg.usbHandler.dataWrite s.usb passed b).2.2, reply := .ok } ∧
      follows (s.cfg.usbHandler.dataWrite s.usb passed b).2.1 disk) ∧
    (∃ disk, exec (.usbDataRead address) s = .next { s with
        usb := (s.cfg.usbHandler.dataRead s.usb passed).1, disk := disk
        reply := .okValue ((s.cfg.usbHandler.dataRead s.usb passed).2.2.setWidth 32) } ∧
      follows (s.cfg.usbHandler.dataRead s.usb passed).2.1 disk) ∧
    (s.cfg.usbSharesDisk = false → ∀ (disk : Memory) (t : State),
      ∀ i ∈ [Instr.usbCmdWrite address b, .usbDataWrite address b, .usbDataRead address],
        exec i s = .next t → exec i { s with disk := disk } = .next { t with disk := disk })

/-! ## The SPI framer -/

/-- 43_spi_framer.md R195, R197: MISO and the pin latches read back, and an SPI_IN write is only logged. -/
def Obligations.SpiPinReads : Prop :=
  ∀ (s : State) (address : Addr) (b : Byte), s.unmarked →
    (∃ v : Byte, exec (.spiInRead address) s = .next { s with reply := .okValue (v.setWidth 32) } ∧
      ∀ k < 8, v.getLsbD k = (decide (k = s.cfg.spiMisoBit.val) &&
        (s.spi.csN || s.spi.shiftOut.getLsbD (7 - s.spi.count.val)))) ∧
    (∃ v : Byte, exec (.spiOutRead address) s = .next { s with reply := .okValue (v.setWidth 32) } ∧
      ∀ k < 8, v.getLsbD k = ((decide (k = s.cfg.spiCsBit.val) && s.spi.csN) ||
        (decide (k = s.cfg.spiSckBit.val) && s.spi.sck) || (decide (k = s.cfg.spiMosiBit.val) && s.spi.mosi))) ∧
    exec (.spiInWrite address b) s =
      .next { s with trace := s.trace ++ [.logUnimplemented s.cfg.spiInAddr .write b], reply := .ok }

/-- 43_spi_framer.md R192, R196: an SPI_OUT write that is no rising edge with the card selected only sets the latches;
one that deselects the card also discards the bits held. -/
def Obligations.SpiWriteWithoutEdge : Prop :=
  ∀ (s : State) (address : Addr) (v : Byte), s.unmarked → ¬ risesSelected s v →
    let csN := bitAt v s.cfg.spiCsBit
    let off := !s.spi.csN && csN
    exec (.spiOutWrite address v) s = .next { s with
      spi := { s.spi with
        csN := csN, sck := bitAt v s.cfg.spiSckBit, mosi := bitAt v s.cfg.spiMosiBit
        shiftIn := if off then 0x00 else s.spi.shiftIn, count := if off then 0 else s.spi.count }
      reply := .ok }

/-- 43_spi_framer.md R193: a rising edge with the card selected, before the eighth, shifts in MOSI as this write sets it,
most significant bit first. -/
def Obligations.SpiEdgeShiftsOneBit : Prop :=
  ∀ (s : State) (address : Addr) (v : Byte), s.unmarked → risesSelected s v → s.spi.count.val < 7 →
    ∃ spi, exec (.spiOutWrite address v) s = .next { s with spi := spi, reply := .ok } ∧
      spi.csN = false ∧ spi.sck = true ∧ spi.mosi = bitAt v s.cfg.spiMosiBit ∧
      spi.count.val = s.spi.count.val + 1 ∧ spi.shiftOut = s.spi.shiftOut ∧
      ∀ k < 8, spi.shiftIn.getLsbD k =
        if k = 0 then bitAt v s.cfg.spiMosiBit else s.spi.shiftIn.getLsbD (k - 1)

/-- 43_spi_framer.md R194: the eighth edge latches the byte into the card and then polls the card once; a drained output
gives the idle byte. A latch that refuses leaves the state before the write, marked (60_exceptions.md R271). -/
def Obligations.EighthEdgeCompletesTheByte : Prop :=
  ∀ (s : State) (address : Addr) (v : Byte), s.unmarked → risesSelected s v → s.spi.count = 7 →
    let b := s.spi.shiftIn <<< 1 ||| bitByte (bitAt v s.cfg.spiMosiBit) 0
    (∀ k, sdLatch s.cfg b s.card = .done k →
      let sent := decide (k.sd.outPos < k.sd.outBuf.length)
      exec (.spiOutWrite address v) s = .next { s with
        sd := { k.sd with outPos := if sent then k.sd.outPos + 1 else k.sd.outPos }
        disk := k.disk, draws := k.draws, trace := k.trace
        spi := {
          csN := false, sck := true, mosi := bitAt v s.cfg.spiMosiBit, shiftIn := b, count := 0
          shiftOut := if sent then k.sd.outBuf.getD k.sd.outPos 0 else 0xFF }
        reply := .ok }) ∧
    ∀ r trace, sdLatch s.cfg b s.card = .raised (.refuse r) trace →
      ∃ y, exec (.spiOutWrite address v) s = .next { s with refused := some r, trace := trace, reply := y }

/-- 43_spi_framer.md R198: from a byte boundary, the exchange of byte `b` latches `b` once, returns the byte that was
going out, and leaves the poll of that latch, or the idle byte, going out. That the script reaches the framer under a mask
that drops a bit of its addresses is the model's choice (log 13). -/
def Obligations.ByteExchange : Prop :=
  ∀ (s : State) (b : Byte) (k : Card), s.unmarked → validCfg s.cfg = true → s.spi.count = 0 →
    sdLatch s.cfg b s.card = .done k →
    ∃ t, exchange b s = some (t, s.spi.shiftOut) ∧
      t = { s with
        sd := k.poll.2.sd, disk := k.disk, draws := k.draws, trace := k.trace
        spi := {
          csN := false, sck := true, mosi := b.getLsbD 0, shiftIn := b, count := 0
          shiftOut := k.poll.1.getD 0xFF }
        reply := .ok }

/-- 44_sd_commands.md R236: nothing but a latch changes the SD session: outside the SD rows themselves, only an SPI_OUT
write that is the eighth rising edge of a byte with the card selected. -/
def Obligations.SessionChangesOnlyByLatch : Prop :=
  ∀ (i : Instr) (s t : State), exec i s = .next t → i.isSdRow = false → t.sd ≠ s.sd →
    ∃ (address : Addr) (v : Byte), (i = .spiOutWrite address v ∨
        i = .writeByte address v ∧ writeRow s.cfg (maskAddr s.cfg address) = .spiOut) ∧
      risesSelected s v ∧ s.spi.count = 7

/-! ## The SD card

The meaning of an SD row is what the card does at the latch of its frame's last byte (log 11). A model may emit SD
dumps (44_sd_commands.md R210), so these statements hold up to dumps. -/

/-- The latch of a byte that completes a valid frame does what the row the frame decodes to does (log 11), in every
state of the session. -/
def Obligations.LatchRunsTheDecodedRow : Prop :=
  ∀ (s : State) (b : Byte) (i : Instr), s.unmarked →
    decodeFrame s.sd.appCmd (shiftWindow s.sd.win b) = .ok i →
    let u := s.withCard (s.card.shift b)
    (∀ k, sdLatch s.cfg b s.card = .done k → exec i u = .next { u.withCard k with reply := .silent }) ∧
      ∀ x trace, sdLatch s.cfg b s.card = .raised x trace → exec i u = .next (mark u x trace)

/-- 44_sd_commands.md R217, R219 to R222, R227, R228: the commands that answer fixed bytes and enter one fixed state.
CMD10 answers R1, CID_BLOCK and a zero checksum. -/
def Obligations.SdFixedResponses : Prop :=
  ∀ (s : State) (g : BitVec 32) (c : BitVec 7) (i : Instr) (bytes : List Byte) (x : SdState), s.unmarked → s.scanning →
    (i, bytes, x) ∈ [(Instr.cmd1 g c, ([0x00] : List Byte), SdState.ready), (.cmd9 g c, [0x00], .standby),
      (.cmd10 g c, [0x00] ++ s.cfg.cidBlock ++ [0x00, 0x00], .standby), (.cmd12 g c, [0x00], .transfer),
      (.cmd13 g c, [0x00], .standby), (.acmd41 g c, [0x00], .idle), (.cmd41 g c, [0xFF], .inactive)] →
    ∃ t, exec i s = .next t ∧ upToDumps { s with
      sd := { s.sd with state := x, outBuf := bytes, outPos := 0, appCmd := false, win := ⟨0, 0, 0, 0, 0, 0⟩ }
      reply := .silent } t

/-- 44_sd_commands.md R218, R229, R230, R231: the commands that answer and leave the state as it is; CMD55 sets the
application-command flag. -/
def Obligations.SdStateKeepingCommands : Prop :=
  ∀ (s : State) (g : BitVec 32) (c : BitVec 7) (i : Instr) (bytes : List Byte) (app : Bool), s.unmarked → s.scanning →
    (i, bytes, app) ∈ [(Instr.cmd8 g c, ([0x01, 0x00, 0x00, 0x01, 0xAA] : List Byte), false),
      (.cmd55 g c, [0x01], true),
      (.cmd58 g c, [0x00, if s.cfg.cardHc then 0xC0 else 0x40] ++ s.cfg.ocrTail, false),
      (.cmd59 g c, [0x00], false)] →
    ∃ t, exec i s = .next t ∧ upToDumps { s with
      sd := { s.sd with outBuf := bytes, outPos := 0, appCmd := app, win := ⟨0, 0, 0, 0, 0, 0⟩ }
      reply := .silent } t

/-- 44_sd_commands.md R216: CMD0 answers and enters the state that an attached image, or none, gives. -/
def Obligations.SdReset : Prop :=
  ∀ (s : State) (g : BitVec 32) (c : BitVec 7), s.unmarked → s.scanning →
    ∃ t, exec (.cmd0 g c) s = .next t ∧ upToDumps { s with
      sd := { s.sd with
        state := if s.cfg.diskAttached then .idle else .inactive
        outBuf := if s.cfg.diskAttached then [0x01] else [0x00], outPos := 0
        blockSize := if s.cfg.cmd0ResetsBlocklen then 512 else s.sd.blockSize
        appCmd := false, win := ⟨0, 0, 0, 0, 0, 0⟩ }
      reply := .silent } t

/-- 44_sd_commands.md R223: CMD16 adopts the low 16 bits of its argument as the block length, or refuses a length of 0 or
above MAX_BLOCK_SIZE. -/
def Obligations.SdSetBlockLength : Prop :=
  ∀ (s : State) (g : BitVec 32) (c : BitVec 7), s.unmarked → s.scanning →
    let len := g.toNat % 2 ^ 16
    (1 ≤ len ∧ len ≤ s.cfg.maxBlockSize →
      ∃ t, exec (.cmd16 g c) s = .next t ∧ upToDumps { s with
        sd := { s.sd with
          state := .transfer, blockSize := BitVec.ofNat 16 len, outBuf := [0x00], outPos := 0
          appCmd := false, win := ⟨0, 0, 0, 0, 0, 0⟩ }
        reply := .silent } t) ∧
    (len = 0 ∨ s.cfg.maxBlockSize < len →
      ∃ t, exec (.cmd16 g c) s = .next t ∧
        upToDumps { s with refused := some (.blockSize len), reply := .silent } t)

/-- 44_sd_commands.md R224, 45_sd_data_phase.md R260: CMD17 answers the block where the read succeeds, 0xFF with no
image, and one of the two failure responses where the read fails; it ends in IDLE. -/
def Obligations.SdReadBlock : Prop :=
  ∀ (s : State) (g : BitVec 32) (c : BitVec 7), s.unmarked → s.scanning →
    let n := s.sd.blockSize.toNat
    let off := if s.cfg.cardHc then g.toNat * n else g.toNat
    let block := [0x00, 0xFF, 0xFE] ++ Memory.readRange s.disk off n ++ [0x00, 0x00]
    ∃ (t : State) (bytes : List Byte) (draws : Nat), exec (.cmd17 g c) s = .next t ∧ upToDumps { s with
        sd := { s.sd with
          state := .idle, outBuf := bytes, outPos := 0, appCmd := false, win := ⟨0, 0, 0, 0, 0, 0⟩ }
        draws := draws, reply := .silent } t ∧
      (s.cfg.diskAttached = false → bytes = [0xFF] ∧ draws = s.draws) ∧
      (s.cfg.diskAttached = true → off + n ≤ s.cfg.diskLen → s.cfg.reliableDisk = true →
        bytes = block ∧ draws = s.draws) ∧
      (s.cfg.diskAttached = true → off + n ≤ s.cfg.diskLen ∧ bytes = block ∨ bytes = [0xFF] ∨
        ∃ drawn : List Byte, drawn.length = n ∧ bytes = [0x00, 0xFF, 0xFE] ++ drawn ++ [0x00, 0x00])

/-- 44_sd_commands.md R225: CMD18 starts a stream at the block it names, or answers 0xFF with no image. -/
def Obligations.SdStreamStart : Prop :=
  ∀ (s : State) (g : BitVec 32) (c : BitVec 7), s.unmarked → s.scanning →
    ∃ t, exec (.cmd18 g c) s = .next t ∧ upToDumps { s with
      sd := { s.sd with
        state := if s.cfg.diskAttached then .dataMulti else .idle
        nextBlock := if s.cfg.diskAttached then g else s.sd.nextBlock
        outBuf := if s.cfg.diskAttached then [0x00] else [0xFF], outPos := 0
        appCmd := false, win := ⟨0, 0, 0, 0, 0, 0⟩ }
      reply := .silent } t

/-- 45_sd_data_phase.md R259: in DATA_MULTI with the output drained, a latched byte that dispatches no recognized command
produces the next block, or ends the stream where the read fails, as the in-bounds read of an unreliable disk may. Said
of the unrecognized row, and of every byte that completes no valid frame: such a byte only shifts the window before
(44_sd_commands.md R211). -/
def Obligations.StreamProducesTheNextBlock : Prop :=
  (∀ (s : State) (index : BitVec 6) (g : BitVec 32) (c : BitVec 7), s.unmarked → s.sd.state = .dataMulti →
    s.sd.outBuf.length ≤ s.sd.outPos →
    let n := s.sd.blockSize.toNat
    let off := if s.cfg.cardHc then s.sd.nextBlock.toNat * n else s.sd.nextBlock.toNat
    ∃ k : Card, exec (.cmdUnrecognized index g c) s = .next { s.withCard k with reply := .silent } ∧
      streams s.cfg n off { s.card with sd := { s.sd with appCmd := false } } k) ∧
  ∀ (c : Cfg) (k : Card) (b : Byte), k.sd.state = .dataMulti → k.sd.outBuf.length ≤ k.sd.outPos →
    ¬(k.sd.win.b1 &&& 0xC0 = 0x40 ∧ b &&& 0x01 = 0x01) →
    let n := k.sd.blockSize.toNat
    let off := if c.cardHc then k.sd.nextBlock.toNat * n else k.sd.nextBlock.toNat
    ∃ t, sdLatch c b k = .done t ∧ streams c n off { k with
      sd := { k.sd with win := ⟨k.sd.win.b1, k.sd.win.b2, k.sd.win.b3, k.sd.win.b4, k.sd.win.b5, b⟩ } } t

/-- 44_sd_commands.md R226: CMD24 latches its block number and awaits the start token. -/
def Obligations.SdWriteStart : Prop :=
  ∀ (s : State) (g : BitVec 32) (c : BitVec 7), s.unmarked → s.scanning →
    ∃ t, exec (.cmd24 g c) s = .next t ∧ upToDumps { s with
      sd := { s.sd with
        state := .awaitingStartToken, wrBlock := g, inBuf := [], inCount := 0, outBuf := [0x00], outPos := 0
        appCmd := false, win := ⟨0, 0, 0, 0, 0, 0⟩ }
      reply := .silent } t

/-- 44_sd_commands.md R232: an unrecognized command only clears the application-command flag. Outside a stream whose
output has drained, nothing else happens. A byte that completes no valid frame is ignored (30_encoding.md R109): outside
such a stream and the write data phase it only shifts the window (44_sd_commands.md R211), and the flag stays (R214). -/
def Obligations.UnrecognizedCommands : Prop :=
  (∀ (s : State) (index : BitVec 6) (g : BitVec 32) (c : BitVec 7), s.unmarked → s.scanning →
    (s.sd.state = .dataMulti → s.sd.outPos < s.sd.outBuf.length) →
    ∃ t, exec (.cmdUnrecognized index g c) s = .next t ∧
      upToDumps { s with sd := { s.sd with appCmd := false }, reply := .silent } t) ∧
  ∀ (c : Cfg) (k : Card) (b : Byte), k.sd.state ≠ .awaitingStartToken → k.sd.state ≠ .receivingBlock →
    (k.sd.state = .dataMulti → k.sd.outPos < k.sd.outBuf.length) →
    ¬(k.sd.win.b1 &&& 0xC0 = 0x40 ∧ b &&& 0x01 = 0x01) →
    ∃ t, sdLatch c b k = .done t ∧ cardUpToDumps { k with
      sd := { k.sd with win := ⟨k.sd.win.b1, k.sd.win.b2, k.sd.win.b3, k.sd.win.b4, k.sd.win.b5, b⟩ } } t

/-- 44_sd_commands.md R212 and R233, 45_sd_data_phase.md R256 and R257, 70_reset_and_hazards.md R310: where the session
does not scan, the latch of any frame's last byte runs no command: it is skipped while a token is awaited (it is odd,
and so is no token), stored while a block is received, and ignored by a deaf INACTIVE card. -/
def Obligations.FramesAreSwallowed : Prop :=
  ∀ (s : State) (i : Instr) (f : Window), s.unmarked → i.isSdRow = true → encode i = .frame f →
    (s.sd.state = .awaitingStartToken ∨ s.sd.state = .inactive ∧ s.cfg.inactiveIgnoresCommands = true →
      exec i s = .next { s with reply := .silent }) ∧
    (s.sd.state = .receivingBlock → s.sd.inCount + 1 ≠ s.sd.blockSize.toNat + 2 →
      exec i s = .next { s with
        sd := { s.sd with inBuf := s.sd.inBuf ++ [f.b5], inCount := s.sd.inCount + 1 }, reply := .silent })

/-- 45_sd_data_phase.md R256: while the token is awaited, a latched 0xFE opens the block and any other byte is
discarded; the window shifts. -/
def Obligations.StartToken : Prop :=
  ∀ (c : Cfg) (k : Card) (b : Byte), k.sd.state = .awaitingStartToken →
    ∃ t, sdLatch c b k = .done t ∧ t.disk = k.disk ∧
      t.sd = if b = 0xFE then
          { k.sd with win := shiftWindow k.sd.win b, inBuf := [], inCount := 0, state := .receivingBlock }
        else { k.sd with win := shiftWindow k.sd.win b }

/-- 45_sd_data_phase.md R257, R258: a received byte joins the block; the last one writes the block at its offset, without
the two checksum bytes, answers, and returns the session to IDLE with the window clear. The write of an unreliable disk
may fail, and leaves the image. Past the end of the image the latch raises; with no image it answers the error. -/
def Obligations.BlockWrite : Prop :=
  ∀ (c : Cfg) (k : Card) (b : Byte), k.sd.state = .receivingBlock →
    let n := k.sd.blockSize.toNat
    let off := if c.cardHc then k.sd.wrBlock.toNat * n else k.sd.wrBlock.toNat
    let data := (k.sd.inBuf ++ [b]).take n
    (k.sd.inCount + 1 ≠ n + 2 → ∃ t, sdLatch c b k = .done t ∧ t.disk = k.disk ∧
      t.sd = { k.sd with
        win := shiftWindow k.sd.win b, inBuf := k.sd.inBuf ++ [b], inCount := k.sd.inCount + 1 }) ∧
    (k.sd.inCount + 1 = n + 2 → c.diskAttached = true → off + data.length ≤ c.diskLen →
      ∃ (t : Card) (ok : Bool), sdLatch c b k = .done t ∧ (c.reliableDisk = true → ok = true) ∧
        t.disk = (if ok then Memory.writeRange k.disk off data else k.disk) ∧
        t.sd = { k.sd with
          win := ⟨0, 0, 0, 0, 0, 0⟩, inBuf := [], inCount := 0, outPos := 0
          outBuf := if ok then [0x05, 0xFF] else [0x0D, 0xFF], state := .idle }) ∧
    (k.sd.inCount + 1 = n + 2 → c.diskAttached = false →
      ∃ t, sdLatch c b k = .done t ∧ t.disk = k.disk ∧
        t.sd = { k.sd with
          win := ⟨0, 0, 0, 0, 0, 0⟩, inBuf := [], inCount := 0, outBuf := [0x0D, 0xFF], outPos := 0
          state := .idle }) ∧
    (k.sd.inCount + 1 = n + 2 → c.diskAttached = true → c.diskLen < off + data.length →
      ∃ trace, sdLatch c b k = .raised (.refuse (.diskExtend off data.length)) trace)

/-- 45_sd_data_phase.md R262: a block written over SPI with CMD24 and read back with CMD17 answers the bytes written,
whatever the two checksum bytes. That the script reaches the framer under a mask that drops a bit of its addresses is the
model's choice (log 13). -/
def Obligations.WriteReadRoundTrip : Prop :=
  ∀ (s : State) (block : BitVec 32) (crc crc' : BitVec 7) (gap drain : Nat) (d : List Byte),
    s.Inv → s.unmarked → s.spi.count = 0 → s.cfg.diskAttached = true → s.cfg.reliableDisk = true →
    s.sd.state ∈ [SdState.idle, .ready, .standby, .transfer] → s.sd.win = ⟨0, 0, 0, 0, 0, 0⟩ →
    let n := s.sd.blockSize.toNat
    let off := if s.cfg.cardHc then block.toNat * n else block.toNat
    off + n ≤ s.cfg.diskLen → d.length = n + 2 →
    ∃ t r u r', exchangeAll
        (frameBytes (frameOf 24 block crc) ++ List.replicate gap 0xFF ++ [0xFE] ++ d) s = some (t, r) ∧
      t.sd.state = .idle ∧ t.sd.outBuf = [0x05, 0xFF] ∧ Memory.readRange t.disk off n = d.take n ∧
      exchangeAll (List.replicate (drain + 1) 0xFF ++ frameBytes (frameOf 17 block crc')) t = some (u, r') ∧
      u.sd.state = .idle ∧ u.sd.outBuf = [0x00, 0xFF, 0xFE] ++ d.take n ++ [0x00, 0x00]
end

