-- ==== Sys2Proof/Laws/Memory.lean ====
section
/-! SUPPORT. The laws of byte arrays: a read after a write, runs of bytes, and the canonical form, which every
operation keeps and which makes equal arrays equal data. -/

namespace Sys2Proof

namespace Laws

@[simp] theorem memory_read_nil (i : Nat) : Memory.read [] i = 0 := rfl

@[simp] theorem memory_wf_nil (n : Nat) : Memory.wf n [] = true := rfl

theorem memory_wfFrom_cons {lo n k : Nat} {x : Byte} {m : Memory} :
    Memory.wfFrom lo n ((k, x) :: m) = true ↔ lo ≤ k ∧ k < n ∧ x ≠ 0 ∧ Memory.wfFrom (k + 1) n m = true := by
  simp only [Memory.wfFrom, Bool.and_eq_true, decide_eq_true_eq, and_assoc]
  rfl

/-- The canonical form from `lo` on is the canonical form from any lower index on, for any greater size. -/
theorem memory_wfFrom_mono {lo lo' n n' : Nat} {m : Memory} (hm : Memory.wfFrom lo n m = true) (h : lo' ≤ lo)
    (hn : n ≤ n') : Memory.wfFrom lo' n' m = true := by
  induction m generalizing lo lo' with
  | nil => rfl
  | cons p m ih =>
    obtain ⟨k, x⟩ := p
    obtain ⟨h1, h2, h3, h4⟩ := memory_wfFrom_cons.mp hm
    exact memory_wfFrom_cons.mpr ⟨by omega, by omega, h3, ih h4 (Nat.le_refl _)⟩

/-- An array in canonical form from `lo` on lists nothing below `lo`. -/
theorem memory_read_below {lo n i : Nat} {m : Memory} (hm : Memory.wfFrom lo n m = true) (h : i < lo) :
    Memory.read m i = 0 := by
  induction m generalizing lo with
  | nil => rfl
  | cons p m ih =>
    obtain ⟨k, x⟩ := p
    obtain ⟨h1, h2, h3, h4⟩ := memory_wfFrom_cons.mp hm
    have hk : i ≠ k := by omega
    simp only [Memory.read, if_neg hk]
    exact ih h4 (by omega)

/-- An array in canonical form lists nothing past its size. -/
theorem memory_read_past {lo n i : Nat} {m : Memory} (hm : Memory.wfFrom lo n m = true) (h : n ≤ i) :
    Memory.read m i = 0 := by
  induction m generalizing lo with
  | nil => rfl
  | cons p m ih =>
    obtain ⟨k, x⟩ := p
    obtain ⟨h1, h2, h3, h4⟩ := memory_wfFrom_cons.mp hm
    have hk : i ≠ k := by omega
    simp only [Memory.read, if_neg hk]
    exact ih h4

theorem memory_put_wfFrom {lo n i : Nat} {b : Byte} {m : Memory} (hm : Memory.wfFrom (i + 1) n m = true)
    (hl : lo ≤ i) (hn : i < n) : Memory.wfFrom lo n (Memory.put i b m) = true := by
  unfold Memory.put
  split
  · exact memory_wfFrom_mono hm (by omega) (Nat.le_refl _)
  · next h => exact memory_wfFrom_cons.mpr ⟨hl, hn, h, hm⟩

theorem memory_put_read {n i j : Nat} {b : Byte} {m : Memory} (hm : Memory.wfFrom (i + 1) n m = true) :
    Memory.read (Memory.put i b m) j = if j = i then b else Memory.read m j := by
  unfold Memory.put
  split
  · next h =>
    split
    · next hj => subst hj; rw [memory_read_below hm (by omega), h]; rfl
    · rfl
  · rfl

/-- A write keeps the canonical form. -/
theorem memory_write_wfFrom {lo n i : Nat} {b : Byte} {m : Memory} (hm : Memory.wfFrom lo n m = true) (hl : lo ≤ i)
    (hn : i < n) : Memory.wfFrom lo n (Memory.write m i b) = true := by
  induction m generalizing lo with
  | nil => exact memory_put_wfFrom rfl hl hn
  | cons p m ih =>
    obtain ⟨k, x⟩ := p
    obtain ⟨h1, h2, h3, h4⟩ := memory_wfFrom_cons.mp hm
    unfold Memory.write
    split
    · next h => exact memory_put_wfFrom (memory_wfFrom_cons.mpr ⟨h, h2, h3, h4⟩) hl hn
    · split
      · next h => subst h; exact memory_put_wfFrom h4 hl hn
      · next h₁ h₂ => exact memory_wfFrom_cons.mpr ⟨h1, h2, h3, ih h4 (by omega)⟩

/-- A read after a write, in an array in canonical form. -/
theorem memory_read_write_from {lo n i j : Nat} {b : Byte} {m : Memory} (hm : Memory.wfFrom lo n m = true) :
    Memory.read (Memory.write m i b) j = if j = i then b else Memory.read m j := by
  induction m generalizing lo with
  | nil => exact memory_put_read (n := n) rfl
  | cons p m ih =>
    obtain ⟨k, x⟩ := p
    obtain ⟨h1, h2, h3, h4⟩ := memory_wfFrom_cons.mp hm
    unfold Memory.write
    split
    · next h => exact memory_put_read (memory_wfFrom_cons.mpr ⟨h, h2, h3, h4⟩)
    · split
      · next h =>
        subst h
        rw [memory_put_read h4]
        by_cases hj : j = i <;> simp [Memory.read, hj]
      · next h₁ h₂ =>
        simp only [Memory.read, ih h4]
        by_cases hk : j = k <;> by_cases hi : j = i <;> simp_all

/-- A write keeps the canonical form of an array of `n` bytes. -/
theorem memory_write_wf {n i : Nat} {b : Byte} {m : Memory} (hm : Memory.wf n m = true) (hn : i < n) :
    Memory.wf n (Memory.write m i b) = true :=
  memory_write_wfFrom hm (Nat.zero_le i) hn

/-- A read after a write gives the byte written, and every other byte as it was. -/
theorem memory_read_write {n i j : Nat} {b : Byte} {m : Memory} (hm : Memory.wf n m = true) :
    Memory.read (Memory.write m i b) j = if j = i then b else Memory.read m j :=
  memory_read_write_from hm

/-- A run of writes keeps the canonical form. -/
theorem memory_writeRange_wf {n off : Nat} {bs : List Byte} {m : Memory} (hm : Memory.wf n m = true)
    (hn : off + bs.length ≤ n) : Memory.wf n (Memory.writeRange m off bs) = true := by
  induction bs generalizing m off with
  | nil => exact hm
  | cons b bs ih =>
    simp only [List.length_cons] at hn
    exact ih (memory_write_wf hm (by omega)) (by omega)

/-- A read after a run of writes: the byte written inside the run, the old byte outside it. -/
theorem memory_read_writeRange {n off j : Nat} {bs : List Byte} {m : Memory} (hm : Memory.wf n m = true)
    (hn : off + bs.length ≤ n) :
    Memory.read (Memory.writeRange m off bs) j =
      if off ≤ j ∧ j < off + bs.length then bs.getD (j - off) 0 else Memory.read m j := by
  induction bs generalizing m off with
  | nil =>
    have h : ¬(off ≤ j ∧ j < off + 0) := by omega
    simp only [Memory.writeRange, List.length_nil, if_neg h]
  | cons b bs ih =>
    simp only [List.length_cons] at hn ⊢
    rw [Memory.writeRange, ih (memory_write_wf hm (by omega)) (by omega), memory_read_write hm]
    by_cases h1 : off + 1 ≤ j ∧ j < off + 1 + bs.length
    · have h2 : off ≤ j ∧ j < off + (bs.length + 1) := by omega
      have h3 : j - off = (j - (off + 1)) + 1 := by omega
      simp only [if_pos h1, if_pos h2, h3, List.getD_cons_succ]
    · by_cases h4 : j = off
      · subst h4
        have h2 : j ≤ j ∧ j < j + (bs.length + 1) := by omega
        simp only [if_neg h1, if_pos h2, Nat.sub_self, List.getD_cons_zero, if_true]
      · have h2 : ¬(off ≤ j ∧ j < off + (bs.length + 1)) := by omega
        simp only [if_neg h1, if_neg h2, if_neg h4]

@[simp] theorem memory_readRange_length (m : Memory) (off n : Nat) : (Memory.readRange m off n).length = n := by
  simp [Memory.readRange]

/-- The bytes of a run just written. -/
theorem memory_readRange_writeRange {n off : Nat} {bs : List Byte} {m : Memory} (hm : Memory.wf n m = true)
    (hn : off + bs.length ≤ n) : Memory.readRange (Memory.writeRange m off bs) off bs.length = bs := by
  apply List.ext_getElem (by simp)
  intro i h₁ h₂
  simp only [Memory.readRange, List.getElem_map, List.getElem_range]
  rw [memory_read_writeRange hm hn, if_pos (by omega)]
  simp [h₂]

/-- Pairs laid over one another give the canonical form, from any array already in it. -/
theorem memory_foldl_wf {n : Nat} (cells : List Host.Cell) {m : Memory} (hm : Memory.wf n m = true) :
    Memory.wf n (cells.foldl (fun m p => if p.1 < n then Memory.write m p.1 p.2 else m) m) = true := by
  induction cells generalizing m with
  | nil => exact hm
  | cons p cells ih =>
    simp only [List.foldl_cons]
    split
    · next h => exact ih (memory_write_wf hm h)
    · exact ih hm

/-- `Memory.ofCells` gives the canonical form. -/
theorem memory_ofCells_wf (n : Nat) (cells : List Host.Cell) : Memory.wf n (Memory.ofCells n cells) = true :=
  memory_foldl_wf cells rfl

/-- A byte written past every listed index goes to the end. -/
theorem memory_write_append {lo i : Nat} {b : Byte} {m : Memory} (hm : Memory.wfFrom lo i m = true) (hb : b ≠ 0) :
    Memory.write m i b = m ++ [(i, b)] := by
  induction m generalizing lo with
  | nil => exact if_neg hb
  | cons p m ih =>
    obtain ⟨k, x⟩ := p
    obtain ⟨h1, h2, h3, h4⟩ := memory_wfFrom_cons.mp hm
    unfold Memory.write
    rw [if_neg (by omega), if_neg (by omega), ih h4]
    rfl

theorem memory_wfFrom_append {lo k : Nat} {b : Byte} {m : Memory} (hm : Memory.wfFrom lo k m = true)
    (hl : lo ≤ k) (hb : b ≠ 0) : Memory.wfFrom lo (k + 1) (m ++ [(k, b)]) = true := by
  induction m generalizing lo with
  | nil => exact memory_wfFrom_cons.mpr ⟨hl, by omega, hb, rfl⟩
  | cons p m ih =>
    obtain ⟨j, x⟩ := p
    obtain ⟨h1, h2, h3, h4⟩ := memory_wfFrom_cons.mp hm
    exact memory_wfFrom_cons.mpr ⟨h1, by omega, h3, ih h4 (by omega)⟩

/-- Pairs in canonical form, laid after an array whose listed indices all lie below theirs, follow it. -/
theorem memory_foldl_append {n lo : Nat} (cells : List Host.Cell) {m : Memory} (hm : Memory.wfFrom 0 lo m = true)
    (hc : Memory.wfFrom lo n cells = true) :
    cells.foldl (fun m p => if p.1 < n then Memory.write m p.1 p.2 else m) m = m ++ cells := by
  induction cells generalizing m lo with
  | nil => simp
  | cons p cells ih =>
    obtain ⟨k, x⟩ := p
    obtain ⟨h1, h2, h3, h4⟩ := memory_wfFrom_cons.mp hc
    have hm' : Memory.wfFrom 0 k m = true := memory_wfFrom_mono hm (Nat.le_refl _) h1
    simp only [List.foldl_cons, if_pos h2]
    rw [memory_write_append hm' h3, ih (memory_wfFrom_append hm' (Nat.zero_le _) h3) h4]
    simp

/-- An array in canonical form is what its own pairs give. -/
theorem memory_ofCells_of_wf {n : Nat} {m : Memory} (hm : Memory.wf n m = true) : Memory.ofCells n m = m :=
  memory_foldl_append m rfl hm

end Laws

end Sys2Proof
end

