-- ==== Sys2Proof/Laws/State.lean ====
section
/-! SUPPORT. One lemma for each field of State under each named update, and for each field of the card's session under
each of its own. -/

namespace Sys2Proof.Machine

/-! `emit` -/

@[simp] theorem emit_cfg (s : State) (e : Event) : (emit s e).cfg = s.cfg := rfl
@[simp] theorem emit_ram (s : State) (e : Event) : (emit s e).ram = s.ram := rfl
@[simp] theorem emit_rom (s : State) (e : Event) : (emit s e).rom = s.rom := rfl
@[simp] theorem emit_exp (s : State) (e : Event) : (emit s e).exp = s.exp := rfl
@[simp] theorem emit_expBank (s : State) (e : Event) : (emit s e).expBank = s.expBank := rfl
@[simp] theorem emit_timerEnabled (s : State) (e : Event) : (emit s e).timerEnabled = s.timerEnabled := rfl
@[simp] theorem emit_timerPending (s : State) (e : Event) : (emit s e).timerPending = s.timerPending := rfl
@[simp] theorem emit_usbPending (s : State) (e : Event) : (emit s e).usbPending = s.usbPending := rfl
@[simp] theorem emit_hostIn (s : State) (e : Event) : (emit s e).hostIn = s.hostIn := rfl
@[simp] theorem emit_usb (s : State) (e : Event) : (emit s e).usb = s.usb := rfl
@[simp] theorem emit_spi (s : State) (e : Event) : (emit s e).spi = s.spi := rfl
@[simp] theorem emit_sd (s : State) (e : Event) : (emit s e).sd = s.sd := rfl
@[simp] theorem emit_disk (s : State) (e : Event) : (emit s e).disk = s.disk := rfl
@[simp] theorem emit_fault (s : State) (e : Event) : (emit s e).fault = s.fault := rfl
@[simp] theorem emit_refused (s : State) (e : Event) : (emit s e).refused = s.refused := rfl
@[simp] theorem emit_trace (s : State) (e : Event) : (emit s e).trace = s.trace ++ [e] := rfl
@[simp] theorem emit_calls (s : State) (e : Event) : (emit s e).calls = s.calls := rfl
@[simp] theorem emit_reply (s : State) (e : Event) : (emit s e).reply = s.reply := rfl
@[simp] theorem emit_draws (s : State) (e : Event) : (emit s e).draws = s.draws := rfl

/-! `drawByte` -/

@[simp] theorem drawByte_cfg (s : State) : ((drawByte s).1).cfg = s.cfg := rfl
@[simp] theorem drawByte_ram (s : State) : ((drawByte s).1).ram = s.ram := rfl
@[simp] theorem drawByte_rom (s : State) : ((drawByte s).1).rom = s.rom := rfl
@[simp] theorem drawByte_exp (s : State) : ((drawByte s).1).exp = s.exp := rfl
@[simp] theorem drawByte_expBank (s : State) : ((drawByte s).1).expBank = s.expBank := rfl
@[simp] theorem drawByte_timerEnabled (s : State) : ((drawByte s).1).timerEnabled = s.timerEnabled := rfl
@[simp] theorem drawByte_timerPending (s : State) : ((drawByte s).1).timerPending = s.timerPending := rfl
@[simp] theorem drawByte_usbPending (s : State) : ((drawByte s).1).usbPending = s.usbPending := rfl
@[simp] theorem drawByte_hostIn (s : State) : ((drawByte s).1).hostIn = s.hostIn := rfl
@[simp] theorem drawByte_usb (s : State) : ((drawByte s).1).usb = s.usb := rfl
@[simp] theorem drawByte_spi (s : State) : ((drawByte s).1).spi = s.spi := rfl
@[simp] theorem drawByte_sd (s : State) : ((drawByte s).1).sd = s.sd := rfl
@[simp] theorem drawByte_disk (s : State) : ((drawByte s).1).disk = s.disk := rfl
@[simp] theorem drawByte_fault (s : State) : ((drawByte s).1).fault = s.fault := rfl
@[simp] theorem drawByte_refused (s : State) : ((drawByte s).1).refused = s.refused := rfl
@[simp] theorem drawByte_trace (s : State) : ((drawByte s).1).trace = s.trace := rfl
@[simp] theorem drawByte_calls (s : State) : ((drawByte s).1).calls = s.calls := rfl
@[simp] theorem drawByte_reply (s : State) : ((drawByte s).1).reply = s.reply := rfl
@[simp] theorem drawByte_draws (s : State) : ((drawByte s).1).draws = s.draws + 1 := rfl
@[simp] theorem drawByte_value (s : State) : (drawByte s).2 = Config.drawByte s.draws := rfl

/-! `mark` -/

@[simp] theorem mark_cfg (s : State) (x : Raise) (t : List Event) : (mark s x t).cfg = s.cfg := rfl
@[simp] theorem mark_ram (s : State) (x : Raise) (t : List Event) : (mark s x t).ram = s.ram := rfl
@[simp] theorem mark_rom (s : State) (x : Raise) (t : List Event) : (mark s x t).rom = s.rom := rfl
@[simp] theorem mark_exp (s : State) (x : Raise) (t : List Event) : (mark s x t).exp = s.exp := rfl
@[simp] theorem mark_expBank (s : State) (x : Raise) (t : List Event) : (mark s x t).expBank = s.expBank := rfl
@[simp] theorem mark_timerEnabled (s : State) (x : Raise) (t : List Event) : (mark s x t).timerEnabled = s.timerEnabled := rfl
@[simp] theorem mark_timerPending (s : State) (x : Raise) (t : List Event) : (mark s x t).timerPending = s.timerPending := rfl
@[simp] theorem mark_usbPending (s : State) (x : Raise) (t : List Event) : (mark s x t).usbPending = s.usbPending := rfl
@[simp] theorem mark_hostIn (s : State) (x : Raise) (t : List Event) : (mark s x t).hostIn = s.hostIn := rfl
@[simp] theorem mark_usb (s : State) (x : Raise) (t : List Event) : (mark s x t).usb = s.usb := rfl
@[simp] theorem mark_spi (s : State) (x : Raise) (t : List Event) : (mark s x t).spi = s.spi := rfl
@[simp] theorem mark_sd (s : State) (x : Raise) (t : List Event) : (mark s x t).sd = s.sd := rfl
@[simp] theorem mark_disk (s : State) (x : Raise) (t : List Event) : (mark s x t).disk = s.disk := rfl
@[simp] theorem mark_fault (s : State) (x : Raise) (t : List Event) : (mark s x t).fault = x.faultMark s.fault := rfl
@[simp] theorem mark_refused (s : State) (x : Raise) (t : List Event) : (mark s x t).refused = x.refusalMark s.refused := rfl
@[simp] theorem mark_trace (s : State) (x : Raise) (t : List Event) : (mark s x t).trace = t := rfl
@[simp] theorem mark_calls (s : State) (x : Raise) (t : List Event) : (mark s x t).calls = s.calls := rfl
@[simp] theorem mark_reply (s : State) (x : Raise) (t : List Event) : (mark s x t).reply = .silent := rfl
@[simp] theorem mark_draws (s : State) (x : Raise) (t : List Event) : (mark s x t).draws = s.draws := rfl

/-! `withCard` -/

@[simp] theorem withCard_cfg (s : State) (k : Card) : (s.withCard k).cfg = s.cfg := rfl
@[simp] theorem withCard_ram (s : State) (k : Card) : (s.withCard k).ram = s.ram := rfl
@[simp] theorem withCard_rom (s : State) (k : Card) : (s.withCard k).rom = s.rom := rfl
@[simp] theorem withCard_exp (s : State) (k : Card) : (s.withCard k).exp = s.exp := rfl
@[simp] theorem withCard_expBank (s : State) (k : Card) : (s.withCard k).expBank = s.expBank := rfl
@[simp] theorem withCard_timerEnabled (s : State) (k : Card) : (s.withCard k).timerEnabled = s.timerEnabled := rfl
@[simp] theorem withCard_timerPending (s : State) (k : Card) : (s.withCard k).timerPending = s.timerPending := rfl
@[simp] theorem withCard_usbPending (s : State) (k : Card) : (s.withCard k).usbPending = s.usbPending := rfl
@[simp] theorem withCard_hostIn (s : State) (k : Card) : (s.withCard k).hostIn = s.hostIn := rfl
@[simp] theorem withCard_usb (s : State) (k : Card) : (s.withCard k).usb = s.usb := rfl
@[simp] theorem withCard_spi (s : State) (k : Card) : (s.withCard k).spi = s.spi := rfl
@[simp] theorem withCard_sd (s : State) (k : Card) : (s.withCard k).sd = k.sd := rfl
@[simp] theorem withCard_disk (s : State) (k : Card) : (s.withCard k).disk = k.disk := rfl
@[simp] theorem withCard_fault (s : State) (k : Card) : (s.withCard k).fault = s.fault := rfl
@[simp] theorem withCard_refused (s : State) (k : Card) : (s.withCard k).refused = s.refused := rfl
@[simp] theorem withCard_trace (s : State) (k : Card) : (s.withCard k).trace = k.trace := rfl
@[simp] theorem withCard_calls (s : State) (k : Card) : (s.withCard k).calls = s.calls := rfl
@[simp] theorem withCard_reply (s : State) (k : Card) : (s.withCard k).reply = s.reply := rfl
@[simp] theorem withCard_draws (s : State) (k : Card) : (s.withCard k).draws = k.draws := rfl

/-! `hostInput` -/

@[simp] theorem hostInput_cfg (s : State) (b : Byte) : (hostInput b s).cfg = s.cfg := rfl
@[simp] theorem hostInput_ram (s : State) (b : Byte) : (hostInput b s).ram = s.ram := rfl
@[simp] theorem hostInput_rom (s : State) (b : Byte) : (hostInput b s).rom = s.rom := rfl
@[simp] theorem hostInput_exp (s : State) (b : Byte) : (hostInput b s).exp = s.exp := rfl
@[simp] theorem hostInput_expBank (s : State) (b : Byte) : (hostInput b s).expBank = s.expBank := rfl
@[simp] theorem hostInput_timerEnabled (s : State) (b : Byte) : (hostInput b s).timerEnabled = s.timerEnabled := rfl
@[simp] theorem hostInput_timerPending (s : State) (b : Byte) : (hostInput b s).timerPending = s.timerPending := rfl
@[simp] theorem hostInput_usbPending (s : State) (b : Byte) : (hostInput b s).usbPending = s.usbPending := rfl
@[simp] theorem hostInput_hostIn (s : State) (b : Byte) : (hostInput b s).hostIn = s.hostIn ++ [b] := rfl
@[simp] theorem hostInput_usb (s : State) (b : Byte) : (hostInput b s).usb = s.usb := rfl
@[simp] theorem hostInput_spi (s : State) (b : Byte) : (hostInput b s).spi = s.spi := rfl
@[simp] theorem hostInput_sd (s : State) (b : Byte) : (hostInput b s).sd = s.sd := rfl
@[simp] theorem hostInput_disk (s : State) (b : Byte) : (hostInput b s).disk = s.disk := rfl
@[simp] theorem hostInput_fault (s : State) (b : Byte) : (hostInput b s).fault = s.fault := rfl
@[simp] theorem hostInput_refused (s : State) (b : Byte) : (hostInput b s).refused = s.refused := rfl
@[simp] theorem hostInput_trace (s : State) (b : Byte) : (hostInput b s).trace = s.trace := rfl
@[simp] theorem hostInput_calls (s : State) (b : Byte) : (hostInput b s).calls = s.calls := rfl
@[simp] theorem hostInput_reply (s : State) (b : Byte) : (hostInput b s).reply = s.reply := rfl
@[simp] theorem hostInput_draws (s : State) (b : Byte) : (hostInput b s).draws = s.draws := rfl

/-! `setBank` -/

@[simp] theorem setBank_cfg (s : State) (v : BitVec 32) : (setBank v s).cfg = s.cfg := rfl
@[simp] theorem setBank_ram (s : State) (v : BitVec 32) : (setBank v s).ram = s.ram := rfl
@[simp] theorem setBank_rom (s : State) (v : BitVec 32) : (setBank v s).rom = s.rom := rfl
@[simp] theorem setBank_exp (s : State) (v : BitVec 32) : (setBank v s).exp = s.exp := rfl
@[simp] theorem setBank_expBank (s : State) (v : BitVec 32) : (setBank v s).expBank = v := rfl
@[simp] theorem setBank_timerEnabled (s : State) (v : BitVec 32) : (setBank v s).timerEnabled = s.timerEnabled := rfl
@[simp] theorem setBank_timerPending (s : State) (v : BitVec 32) : (setBank v s).timerPending = s.timerPending := rfl
@[simp] theorem setBank_usbPending (s : State) (v : BitVec 32) : (setBank v s).usbPending = s.usbPending := rfl
@[simp] theorem setBank_hostIn (s : State) (v : BitVec 32) : (setBank v s).hostIn = s.hostIn := rfl
@[simp] theorem setBank_usb (s : State) (v : BitVec 32) : (setBank v s).usb = s.usb := rfl
@[simp] theorem setBank_spi (s : State) (v : BitVec 32) : (setBank v s).spi = s.spi := rfl
@[simp] theorem setBank_sd (s : State) (v : BitVec 32) : (setBank v s).sd = s.sd := rfl
@[simp] theorem setBank_disk (s : State) (v : BitVec 32) : (setBank v s).disk = s.disk := rfl
@[simp] theorem setBank_fault (s : State) (v : BitVec 32) : (setBank v s).fault = s.fault := rfl
@[simp] theorem setBank_refused (s : State) (v : BitVec 32) : (setBank v s).refused = s.refused := rfl
@[simp] theorem setBank_trace (s : State) (v : BitVec 32) : (setBank v s).trace = s.trace := rfl
@[simp] theorem setBank_calls (s : State) (v : BitVec 32) : (setBank v s).calls = s.calls := rfl
@[simp] theorem setBank_reply (s : State) (v : BitVec 32) : (setBank v s).reply = s.reply := rfl
@[simp] theorem setBank_draws (s : State) (v : BitVec 32) : (setBank v s).draws = s.draws := rfl

/-! `timerTick` -/

@[simp] theorem timerTick_cfg (s : State) : (timerTick s).cfg = s.cfg := rfl
@[simp] theorem timerTick_ram (s : State) : (timerTick s).ram = s.ram := rfl
@[simp] theorem timerTick_rom (s : State) : (timerTick s).rom = s.rom := rfl
@[simp] theorem timerTick_exp (s : State) : (timerTick s).exp = s.exp := rfl
@[simp] theorem timerTick_expBank (s : State) : (timerTick s).expBank = s.expBank := rfl
@[simp] theorem timerTick_timerEnabled (s : State) : (timerTick s).timerEnabled = s.timerEnabled := rfl
@[simp] theorem timerTick_timerPending (s : State) : (timerTick s).timerPending = (s.timerPending || s.timerEnabled) := rfl
@[simp] theorem timerTick_usbPending (s : State) : (timerTick s).usbPending = s.usbPending := rfl
@[simp] theorem timerTick_hostIn (s : State) : (timerTick s).hostIn = s.hostIn := rfl
@[simp] theorem timerTick_usb (s : State) : (timerTick s).usb = s.usb := rfl
@[simp] theorem timerTick_spi (s : State) : (timerTick s).spi = s.spi := rfl
@[simp] theorem timerTick_sd (s : State) : (timerTick s).sd = s.sd := rfl
@[simp] theorem timerTick_disk (s : State) : (timerTick s).disk = s.disk := rfl
@[simp] theorem timerTick_fault (s : State) : (timerTick s).fault = s.fault := rfl
@[simp] theorem timerTick_refused (s : State) : (timerTick s).refused = s.refused := rfl
@[simp] theorem timerTick_trace (s : State) : (timerTick s).trace = s.trace := rfl
@[simp] theorem timerTick_calls (s : State) : (timerTick s).calls = s.calls := rfl
@[simp] theorem timerTick_reply (s : State) : (timerTick s).reply = s.reply := rfl
@[simp] theorem timerTick_draws (s : State) : (timerTick s).draws = s.draws := rfl

/-! `afterUsbWrite` -/

@[simp] theorem afterUsbWrite_cfg (s : State) (r : UsbState × Memory × Bool) : (afterUsbWrite s r).cfg = s.cfg := rfl
@[simp] theorem afterUsbWrite_ram (s : State) (r : UsbState × Memory × Bool) : (afterUsbWrite s r).ram = s.ram := rfl
@[simp] theorem afterUsbWrite_rom (s : State) (r : UsbState × Memory × Bool) : (afterUsbWrite s r).rom = s.rom := rfl
@[simp] theorem afterUsbWrite_exp (s : State) (r : UsbState × Memory × Bool) : (afterUsbWrite s r).exp = s.exp := rfl
@[simp] theorem afterUsbWrite_expBank (s : State) (r : UsbState × Memory × Bool) : (afterUsbWrite s r).expBank = s.expBank := rfl
@[simp] theorem afterUsbWrite_timerEnabled (s : State) (r : UsbState × Memory × Bool) : (afterUsbWrite s r).timerEnabled = s.timerEnabled := rfl
@[simp] theorem afterUsbWrite_timerPending (s : State) (r : UsbState × Memory × Bool) : (afterUsbWrite s r).timerPending = s.timerPending := rfl
@[simp] theorem afterUsbWrite_usbPending (s : State) (r : UsbState × Memory × Bool) : (afterUsbWrite s r).usbPending = (s.usbPending || r.2.2) := rfl
@[simp] theorem afterUsbWrite_hostIn (s : State) (r : UsbState × Memory × Bool) : (afterUsbWrite s r).hostIn = s.hostIn := rfl
@[simp] theorem afterUsbWrite_usb (s : State) (r : UsbState × Memory × Bool) : (afterUsbWrite s r).usb = r.1 := rfl
@[simp] theorem afterUsbWrite_spi (s : State) (r : UsbState × Memory × Bool) : (afterUsbWrite s r).spi = s.spi := rfl
@[simp] theorem afterUsbWrite_sd (s : State) (r : UsbState × Memory × Bool) : (afterUsbWrite s r).sd = s.sd := rfl
@[simp] theorem afterUsbWrite_disk (s : State) (r : UsbState × Memory × Bool) : (afterUsbWrite s r).disk = sharedDisk s r.2.1 := rfl
@[simp] theorem afterUsbWrite_fault (s : State) (r : UsbState × Memory × Bool) : (afterUsbWrite s r).fault = s.fault := rfl
@[simp] theorem afterUsbWrite_refused (s : State) (r : UsbState × Memory × Bool) : (afterUsbWrite s r).refused = s.refused := rfl
@[simp] theorem afterUsbWrite_trace (s : State) (r : UsbState × Memory × Bool) : (afterUsbWrite s r).trace = s.trace := rfl
@[simp] theorem afterUsbWrite_calls (s : State) (r : UsbState × Memory × Bool) : (afterUsbWrite s r).calls = s.calls := rfl
@[simp] theorem afterUsbWrite_reply (s : State) (r : UsbState × Memory × Bool) : (afterUsbWrite s r).reply = s.reply := rfl
@[simp] theorem afterUsbWrite_draws (s : State) (r : UsbState × Memory × Bool) : (afterUsbWrite s r).draws = s.draws := rfl

/-- A handler that shares the disk is passed it (42_usb_bridge.md R186). -/
theorem handlerDisk_shared {s : State} (h : s.cfg.usbSharesDisk = true) : handlerDisk s = s.disk := by
  simp [handlerDisk, h]

/-- A handler that does not is passed nothing of it (42_usb_bridge.md R186). -/
theorem handlerDisk_unshared {s : State} (h : s.cfg.usbSharesDisk = false) : handlerDisk s = [] := by
  simp [handlerDisk, h]

/-! The card of a state -/

@[simp] theorem card_sd (s : State) : s.card.sd = s.sd := rfl
@[simp] theorem card_disk (s : State) : s.card.disk = s.disk := rfl
@[simp] theorem card_draws (s : State) : s.card.draws = s.draws := rfl
@[simp] theorem card_trace (s : State) : s.card.trace = s.trace := rfl
@[simp] theorem card_withCard (s : State) (k : Card) : (s.withCard k).card = k := rfl
@[simp] theorem withCard_card (s : State) : s.withCard s.card = s := rfl
@[simp] theorem withCard_withCard (s : State) (k l : Card) : (s.withCard k).withCard l = s.withCard l := rfl

/-! `card_log` -/

@[simp] theorem card_log_state (k : Card) (d : SdDump) (l : List Byte) : (k.log d l).sd.state = k.sd.state := rfl
@[simp] theorem card_log_blockSize (k : Card) (d : SdDump) (l : List Byte) : (k.log d l).sd.blockSize = k.sd.blockSize := rfl
@[simp] theorem card_log_outBuf (k : Card) (d : SdDump) (l : List Byte) : (k.log d l).sd.outBuf = k.sd.outBuf := rfl
@[simp] theorem card_log_outPos (k : Card) (d : SdDump) (l : List Byte) : (k.log d l).sd.outPos = k.sd.outPos := rfl
@[simp] theorem card_log_inBuf (k : Card) (d : SdDump) (l : List Byte) : (k.log d l).sd.inBuf = k.sd.inBuf := rfl
@[simp] theorem card_log_inCount (k : Card) (d : SdDump) (l : List Byte) : (k.log d l).sd.inCount = k.sd.inCount := rfl
@[simp] theorem card_log_nextBlock (k : Card) (d : SdDump) (l : List Byte) : (k.log d l).sd.nextBlock = k.sd.nextBlock := rfl
@[simp] theorem card_log_wrBlock (k : Card) (d : SdDump) (l : List Byte) : (k.log d l).sd.wrBlock = k.sd.wrBlock := rfl
@[simp] theorem card_log_appCmd (k : Card) (d : SdDump) (l : List Byte) : (k.log d l).sd.appCmd = k.sd.appCmd := rfl
@[simp] theorem card_log_win (k : Card) (d : SdDump) (l : List Byte) : (k.log d l).sd.win = k.sd.win := rfl
@[simp] theorem card_log_disk (k : Card) (d : SdDump) (l : List Byte) : (k.log d l).disk = k.disk := rfl
@[simp] theorem card_log_draws (k : Card) (d : SdDump) (l : List Byte) : (k.log d l).draws = k.draws := rfl
@[simp] theorem card_log_trace (k : Card) (d : SdDump) (l : List Byte) : (k.log d l).trace = k.trace ++ [.logSd d l] := rfl

/-! `card_queue` -/

@[simp] theorem card_queue_state (k : Card) (l : List Byte) : (k.queue l).sd.state = k.sd.state := rfl
@[simp] theorem card_queue_blockSize (k : Card) (l : List Byte) : (k.queue l).sd.blockSize = k.sd.blockSize := rfl
@[simp] theorem card_queue_outBuf (k : Card) (l : List Byte) : (k.queue l).sd.outBuf = l := rfl
@[simp] theorem card_queue_outPos (k : Card) (l : List Byte) : (k.queue l).sd.outPos = 0 := rfl
@[simp] theorem card_queue_inBuf (k : Card) (l : List Byte) : (k.queue l).sd.inBuf = k.sd.inBuf := rfl
@[simp] theorem card_queue_inCount (k : Card) (l : List Byte) : (k.queue l).sd.inCount = k.sd.inCount := rfl
@[simp] theorem card_queue_nextBlock (k : Card) (l : List Byte) : (k.queue l).sd.nextBlock = k.sd.nextBlock := rfl
@[simp] theorem card_queue_wrBlock (k : Card) (l : List Byte) : (k.queue l).sd.wrBlock = k.sd.wrBlock := rfl
@[simp] theorem card_queue_appCmd (k : Card) (l : List Byte) : (k.queue l).sd.appCmd = k.sd.appCmd := rfl
@[simp] theorem card_queue_win (k : Card) (l : List Byte) : (k.queue l).sd.win = k.sd.win := rfl
@[simp] theorem card_queue_disk (k : Card) (l : List Byte) : (k.queue l).disk = k.disk := rfl
@[simp] theorem card_queue_draws (k : Card) (l : List Byte) : (k.queue l).draws = k.draws := rfl
@[simp] theorem card_queue_trace (k : Card) (l : List Byte) : (k.queue l).trace = k.trace ++ [.logSd .tx l] := rfl

/-! `card_enter` -/

@[simp] theorem card_enter_state (k : Card) (x : SdState) : (k.enter x).sd.state = x := rfl
@[simp] theorem card_enter_blockSize (k : Card) (x : SdState) : (k.enter x).sd.blockSize = k.sd.blockSize := rfl
@[simp] theorem card_enter_outBuf (k : Card) (x : SdState) : (k.enter x).sd.outBuf = k.sd.outBuf := rfl
@[simp] theorem card_enter_outPos (k : Card) (x : SdState) : (k.enter x).sd.outPos = k.sd.outPos := rfl
@[simp] theorem card_enter_inBuf (k : Card) (x : SdState) : (k.enter x).sd.inBuf = k.sd.inBuf := rfl
@[simp] theorem card_enter_inCount (k : Card) (x : SdState) : (k.enter x).sd.inCount = k.sd.inCount := rfl
@[simp] theorem card_enter_nextBlock (k : Card) (x : SdState) : (k.enter x).sd.nextBlock = k.sd.nextBlock := rfl
@[simp] theorem card_enter_wrBlock (k : Card) (x : SdState) : (k.enter x).sd.wrBlock = k.sd.wrBlock := rfl
@[simp] theorem card_enter_appCmd (k : Card) (x : SdState) : (k.enter x).sd.appCmd = k.sd.appCmd := rfl
@[simp] theorem card_enter_win (k : Card) (x : SdState) : (k.enter x).sd.win = k.sd.win := rfl
@[simp] theorem card_enter_disk (k : Card) (x : SdState) : (k.enter x).disk = k.disk := rfl
@[simp] theorem card_enter_draws (k : Card) (x : SdState) : (k.enter x).draws = k.draws := rfl
@[simp] theorem card_enter_trace (k : Card) (x : SdState) : (k.enter x).trace = k.trace := rfl

/-! `card_takeAppFlag` -/

@[simp] theorem card_takeAppFlag_state (k : Card) : (k.takeAppFlag).sd.state = k.sd.state := rfl
@[simp] theorem card_takeAppFlag_blockSize (k : Card) : (k.takeAppFlag).sd.blockSize = k.sd.blockSize := rfl
@[simp] theorem card_takeAppFlag_outBuf (k : Card) : (k.takeAppFlag).sd.outBuf = k.sd.outBuf := rfl
@[simp] theorem card_takeAppFlag_outPos (k : Card) : (k.takeAppFlag).sd.outPos = k.sd.outPos := rfl
@[simp] theorem card_takeAppFlag_inBuf (k : Card) : (k.takeAppFlag).sd.inBuf = k.sd.inBuf := rfl
@[simp] theorem card_takeAppFlag_inCount (k : Card) : (k.takeAppFlag).sd.inCount = k.sd.inCount := rfl
@[simp] theorem card_takeAppFlag_nextBlock (k : Card) : (k.takeAppFlag).sd.nextBlock = k.sd.nextBlock := rfl
@[simp] theorem card_takeAppFlag_wrBlock (k : Card) : (k.takeAppFlag).sd.wrBlock = k.sd.wrBlock := rfl
@[simp] theorem card_takeAppFlag_appCmd (k : Card) : (k.takeAppFlag).sd.appCmd = false := rfl
@[simp] theorem card_takeAppFlag_win (k : Card) : (k.takeAppFlag).sd.win = k.sd.win := rfl
@[simp] theorem card_takeAppFlag_disk (k : Card) : (k.takeAppFlag).disk = k.disk := rfl
@[simp] theorem card_takeAppFlag_draws (k : Card) : (k.takeAppFlag).draws = k.draws := rfl
@[simp] theorem card_takeAppFlag_trace (k : Card) : (k.takeAppFlag).trace = k.trace := rfl

/-! `card_clearWindow` -/

@[simp] theorem card_clearWindow_state (k : Card) : (k.clearWindow).sd.state = k.sd.state := rfl
@[simp] theorem card_clearWindow_blockSize (k : Card) : (k.clearWindow).sd.blockSize = k.sd.blockSize := rfl
@[simp] theorem card_clearWindow_outBuf (k : Card) : (k.clearWindow).sd.outBuf = k.sd.outBuf := rfl
@[simp] theorem card_clearWindow_outPos (k : Card) : (k.clearWindow).sd.outPos = k.sd.outPos := rfl
@[simp] theorem card_clearWindow_inBuf (k : Card) : (k.clearWindow).sd.inBuf = k.sd.inBuf := rfl
@[simp] theorem card_clearWindow_inCount (k : Card) : (k.clearWindow).sd.inCount = k.sd.inCount := rfl
@[simp] theorem card_clearWindow_nextBlock (k : Card) : (k.clearWindow).sd.nextBlock = k.sd.nextBlock := rfl
@[simp] theorem card_clearWindow_wrBlock (k : Card) : (k.clearWindow).sd.wrBlock = k.sd.wrBlock := rfl
@[simp] theorem card_clearWindow_appCmd (k : Card) : (k.clearWindow).sd.appCmd = k.sd.appCmd := rfl
@[simp] theorem card_clearWindow_win (k : Card) : (k.clearWindow).sd.win = clearedWindow := rfl
@[simp] theorem card_clearWindow_disk (k : Card) : (k.clearWindow).disk = k.disk := rfl
@[simp] theorem card_clearWindow_draws (k : Card) : (k.clearWindow).draws = k.draws := rfl
@[simp] theorem card_clearWindow_trace (k : Card) : (k.clearWindow).trace = k.trace := rfl

/-! `card_shift` -/

@[simp] theorem card_shift_state (k : Card) (b : Byte) : (k.shift b).sd.state = k.sd.state := rfl
@[simp] theorem card_shift_blockSize (k : Card) (b : Byte) : (k.shift b).sd.blockSize = k.sd.blockSize := rfl
@[simp] theorem card_shift_outBuf (k : Card) (b : Byte) : (k.shift b).sd.outBuf = k.sd.outBuf := rfl
@[simp] theorem card_shift_outPos (k : Card) (b : Byte) : (k.shift b).sd.outPos = k.sd.outPos := rfl
@[simp] theorem card_shift_inBuf (k : Card) (b : Byte) : (k.shift b).sd.inBuf = k.sd.inBuf := rfl
@[simp] theorem card_shift_inCount (k : Card) (b : Byte) : (k.shift b).sd.inCount = k.sd.inCount := rfl
@[simp] theorem card_shift_nextBlock (k : Card) (b : Byte) : (k.shift b).sd.nextBlock = k.sd.nextBlock := rfl
@[simp] theorem card_shift_wrBlock (k : Card) (b : Byte) : (k.shift b).sd.wrBlock = k.sd.wrBlock := rfl
@[simp] theorem card_shift_appCmd (k : Card) (b : Byte) : (k.shift b).sd.appCmd = k.sd.appCmd := rfl
@[simp] theorem card_shift_win (k : Card) (b : Byte) : (k.shift b).sd.win = shiftWindow k.sd.win b := rfl
@[simp] theorem card_shift_disk (k : Card) (b : Byte) : (k.shift b).disk = k.disk := rfl
@[simp] theorem card_shift_draws (k : Card) (b : Byte) : (k.shift b).draws = k.draws := rfl
@[simp] theorem card_shift_trace (k : Card) (b : Byte) : (k.shift b).trace = k.trace ++ [.logSd .rx [b]] := rfl

end Sys2Proof.Machine
end

