-- ==== Sys2Proof/Laws/Ops.lean ====
section
/-! SUPPORT. What each shared operation can do, said once: running an operation, the access checks, the bytes of a
region, the output queue and the disk. -/

namespace Sys2Proof.Machine

open Host (Outcome)

@[simp] theorem res_bind_done {α β : Type} (a : α) (f : α → Res β) : (Res.done a).bind f = f a := rfl
@[simp] theorem res_bind_raised {α β : Type} (x : Raise) (t : List Event) (f : α → Res β) :
    (Res.raised x t).bind f = .raised x t := rfl
@[simp] theorem res_map_done {α β : Type} (a : α) (f : α → β) : (Res.done a).map f = .done (f a) := rfl
@[simp] theorem res_map_raised {α β : Type} (x : Raise) (t : List Event) (f : α → β) :
    (Res.raised x t).map f = .raised x t := rfl
@[simp] theorem conclude_done (s t : State) (y : Reply) : conclude s (.done (t, y)) = { t with reply := y } := rfl
@[simp] theorem conclude_raised (s : State) (x : Raise) (t : List Event) : conclude s (.raised x t) = mark s x t := rfl

theorem res_bind_eq_done {α β : Type} {r : Res α} {f : α → Res β} {b : β} :
    r.bind f = .done b ↔ ∃ a, r = .done a ∧ f a = .done b := by
  cases r <;> simp

theorem res_map_eq_done {α β : Type} {r : Res α} {f : α → β} {b : β} :
    r.map f = .done b ↔ ∃ a, r = .done a ∧ f a = b := by
  cases r <;> simp

/-- Without a mark, an operation answers what it leaves. -/
theorem perform_unmarked {s : State} (h : s.unmarked) (op : State → Res (State × Reply)) :
    perform s op = .next (conclude s (op s)) := by
  obtain ⟨h1, h2⟩ := h
  simp [perform, ifUnmarked, h1, h2]

/-- From a marked state no operation has a step (60_exceptions.md R271). -/
theorem ifUnmarked_fault {s : State} {f : Fault} (h : s.fault = some f) (k : Outcome State Fault Refusal) :
    ifUnmarked s k = .fault f := by
  simp [ifUnmarked, h]

theorem ifUnmarked_refused {s : State} {r : Refusal} (hf : s.fault = none) (h : s.refused = some r)
    (k : Outcome State Fault Refusal) : ifUnmarked s k = .refused r := by
  simp [ifUnmarked, hf, h]

theorem ifUnmarked_eq_next {s s' : State} {k : Outcome State Fault Refusal} :
    ifUnmarked s k = .next s' ↔ s.unmarked ∧ k = .next s' := by
  unfold ifUnmarked State.unmarked
  cases hf : s.fault <;> cases hr : s.refused <;> simp

/-- What `perform` can answer as a next state. -/
theorem perform_eq_next {s s' : State} {op : State → Res (State × Reply)} :
    perform s op = .next s' ↔ s.unmarked ∧ conclude s (op s) = s' := by
  simp [perform, ifUnmarked_eq_next]

theorem performRead_unmarked {s t : State} {b : Byte} {op : State → Res (State × Byte)} (h : s.unmarked)
    (ho : op s = .done (t, b)) : performRead s op = .next { t with reply := .okValue (b.setWidth 32) } := by
  simp [performRead, perform_unmarked h, ho]

theorem performWrite_unmarked {s t : State} {op : State → Res State} (h : s.unmarked) (ho : op s = .done t) :
    performWrite s op = .next { t with reply := .ok } := by
  simp [performWrite, perform_unmarked h, ho]

theorem performEvent_unmarked {s : State} (h : s.unmarked) (op : State → State) :
    performEvent s op = .next { op s with reply := .silent } := by
  simp [performEvent, perform_unmarked h]

theorem performCard_unmarked {s : State} {k : Card} {op : Card → Res Card} (h : s.unmarked)
    (ho : op s.card = .done k) : performCard s op = .next { s.withCard k with reply := .silent } := by
  simp [performCard, perform_unmarked h, ho]

/-- Everything `performRead` can do. -/
theorem performRead_cases {s s' : State} {op : State → Res (State × Byte)} (h : performRead s op = .next s') :
    s.unmarked ∧ ((∃ t b, op s = .done (t, b) ∧ s' = { t with reply := .okValue (b.setWidth 32) }) ∨
      ∃ x tr, op s = .raised x tr ∧ s' = mark s x tr) := by
  obtain ⟨hu, rfl⟩ := perform_eq_next.mp h
  refine ⟨hu, ?_⟩
  cases ho : op s with
  | done p => exact .inl ⟨p.1, p.2, rfl, rfl⟩
  | raised x tr => exact .inr ⟨x, tr, rfl, rfl⟩

/-- Everything `performWrite` can do. -/
theorem performWrite_cases {s s' : State} {op : State → Res State} (h : performWrite s op = .next s') :
    s.unmarked ∧ ((∃ t, op s = .done t ∧ s' = { t with reply := .ok }) ∨
      ∃ x tr, op s = .raised x tr ∧ s' = mark s x tr) := by
  obtain ⟨hu, rfl⟩ := perform_eq_next.mp h
  refine ⟨hu, ?_⟩
  cases ho : op s with
  | done t => exact .inl ⟨t, rfl, rfl⟩
  | raised x tr => exact .inr ⟨x, tr, rfl, rfl⟩

/-- Everything `performEvent` can do. -/
theorem performEvent_cases {s s' : State} {op : State → State} (h : performEvent s op = .next s') :
    s.unmarked ∧ s' = { op s with reply := .silent } := by
  obtain ⟨hu, rfl⟩ := perform_eq_next.mp h
  exact ⟨hu, rfl⟩

/-- Everything `performCard` can do. -/
theorem performCard_cases {s s' : State} {op : Card → Res Card} (h : performCard s op = .next s') :
    s.unmarked ∧ ((∃ k, op s.card = .done k ∧ s' = { s.withCard k with reply := .silent }) ∨
      ∃ x tr, op s.card = .raised x tr ∧ s' = mark s x tr) := by
  obtain ⟨hu, rfl⟩ := perform_eq_next.mp h
  refine ⟨hu, ?_⟩
  cases ho : op s.card with
  | done k => exact .inl ⟨k, rfl, rfl⟩
  | raised x tr => exact .inr ⟨x, tr, rfl, rfl⟩

/-- The access checks pass. -/
theorem checkAccess_done {s : State} {a : Addr} {n : Width} (d : Dir) (hm : misaligned a n = false)
    (hs : straddles s.cfg a n = false) : checkAccess s a n d = .done () := by
  simp [checkAccess, hm, hs]

/-- Everything the access checks can do. -/
theorem checkAccess_cases (s : State) (a : Addr) (n : Width) (d : Dir) :
    (checkAccess s a n d = .done () ∧ misaligned a n = false ∧ straddles s.cfg a n = false) ∨
      ∃ x tr, checkAccess s a n d = .raised x tr ∧ x.code.isSome = true ∧ (tr = s.trace ∨ tr = s.trace ++ [.logAddressError a n d]) := by
  unfold checkAccess
  cases misaligned a n <;> cases s.cfg.addrErrCheck <;> cases straddles s.cfg a n <;>
    first
    | exact .inl ⟨rfl, rfl, rfl⟩
    | exact .inr ⟨_, _, rfl, rfl, .inl rfl⟩
    | exact .inr ⟨_, _, rfl, rfl, .inr rfl⟩

/-- A byte access is never misaligned. -/
@[simp] theorem misaligned_byte (a : Addr) : misaligned a .byte = false := rfl

theorem width_bytes_pos (n : Width) : 0 < n.bytes := by cases n <;> decide

theorem width_bytes_le (n : Width) : n.bytes ≤ 4 := by cases n <;> decide

/-- An access that does not straddle: each of its bytes lies in the region of the first (20_memory.md R68). -/
theorem straddles_eq_false {c : Cfg} {a : Addr} {n : Width} :
    straddles c a n = false ↔ ∀ i < n.bytes, a.toNat + i < 2 ^ 32 ∧
      (BitVec.ofNat 32 (a.toNat + i) &&& c.addrMask).toNat = a.toNat + i ∧
      classify c (a.toNat + i) = classify c a.toNat := by
  simp only [straddles, Bool.not_eq_false', List.all_eq_true, List.mem_range, byteAdmitted, Bool.and_eq_true,
    decide_eq_true_eq, and_assoc]

/-- A masked address is its own mask. -/
theorem maskAddr_idem (c : Cfg) (address : Addr) : maskAddr c address &&& c.addrMask = maskAddr c address := by
  simp [maskAddr, BitVec.and_assoc]

/-- A byte access never straddles: its address is masked. -/
theorem straddles_byte (c : Cfg) (address : Addr) : straddles c (maskAddr c address) .byte = false := by
  rw [straddles_eq_false]
  intro i hi
  have h0 : i = 0 := by simpa [Width.bytes] using hi
  subst h0
  refine ⟨(maskAddr c address).isLt, ?_, rfl⟩
  rw [Nat.add_zero, BitVec.ofNat_toNat, BitVec.setWidth_eq, maskAddr_idem]

/-- An address of the RAM region (20_memory.md R62). -/
theorem classify_ram {c : Cfg} {a : Nat} (h : classify c a = .ram) :
    c.ramBase.toNat ≤ a ∧ a < c.ramBase.toNat + c.ramSize := by
  unfold classify at h
  split at h
  · next h' => simpa [inWindow] using h'
  · split at h
    · cases h
    · split at h
      · cases h
      · split at h <;> cases h

/-- An address of the expansion window (20_memory.md R62). -/
theorem classify_exp {c : Cfg} {a : Nat} (h : classify c a = .exp) :
    c.expBase.toNat ≤ a ∧ a < c.expBase.toNat + c.expSize := by
  unfold classify at h
  split at h
  · cases h
  · split at h
    · cases h
    · split at h
      · next h' => simpa [inWindow] using h'
      · split at h <;> cases h

/-- An address of the ROM region (20_memory.md R62). -/
theorem classify_rom {c : Cfg} {a : Nat} (h : classify c a = .rom) :
    c.romBase.toNat ≤ a ∧ a < c.romBase.toNat + c.romSize := by
  unfold classify at h
  split at h
  · cases h
  · split at h
    · next h' => simpa [inWindow] using h'
    · split at h
      · cases h
      · split at h <;> cases h

/-- The index in the expansion store is below EXP_SIZE (20_memory.md R73). -/
theorem expPhys_lt {c : Cfg} (h : 0 < c.expSize) (bank : BitVec 32) (a : Nat) : expPhys c bank a < c.expSize :=
  Nat.mod_lt _ h

@[simp] theorem beBytes_length (n : Nat) (v : BitVec 32) : (beBytes n v).length = n := by simp [beBytes]

theorem beBytes_getElem (n : Nat) (v : BitVec 32) (i : Nat) (h : i < (beBytes n v).length) :
    (beBytes n v)[i] = beByte n v i := by simp [beBytes]

@[simp] theorem regionBytes_length (s : State) (r : Region) (a n : Nat) : (regionBytes s r a n).length = n := by
  simp [regionBytes]

/-- Bytes stored in RAM are a run of RAM. -/
theorem setRegionBytes_ram (s : State) (a : Nat) (bs : List Byte) (h : s.cfg.ramBase.toNat ≤ a) :
    setRegionBytes s .ram a bs = { s with ram := Memory.writeRange s.ram (a - s.cfg.ramBase.toNat) bs } := by
  induction bs generalizing s a with
  | nil => rfl
  | cons b bs ih =>
    have h1 : a + 1 - s.cfg.ramBase.toNat = a - s.cfg.ramBase.toNat + 1 := by omega
    simp only [setRegionBytes, setRegionByte]
    rw [ih _ _ (by simpa using Nat.le_succ_of_le h)]
    simp only [Memory.writeRange, h1]

/-- The expansion store after bytes stored from address `a` on, each at its own physical index (20_memory.md R73). -/
def storeExp (c : Cfg) (bank : BitVec 32) (m : Memory) (a : Nat) : List Byte → Memory
  | [] => m
  | b :: bs => storeExp c bank (Memory.write m (expPhys c bank a) b) (a + 1) bs

/-- Bytes stored in the expansion window change the expansion store only. -/
theorem setRegionBytes_exp (s : State) (a : Nat) (bs : List Byte) :
    setRegionBytes s .exp a bs = { s with exp := storeExp s.cfg s.expBank s.exp a bs } := by
  induction bs generalizing s a with
  | nil => rfl
  | cons b bs ih =>
    simp only [setRegionBytes, setRegionByte]
    rw [ih]
    rfl

theorem storeExp_wf {c : Cfg} (bank : BitVec 32) {m : Memory} (a : Nat) (bs : List Byte) (h : 0 < c.expSize)
    (hm : Memory.wf c.expSize m = true) : Memory.wf c.expSize (storeExp c bank m a bs) = true := by
  induction bs generalizing m a with
  | nil => exact hm
  | cons b bs ih => exact ih _ (Laws.memory_write_wf hm (expPhys_lt h bank a))

/-- An index no stored byte reaches keeps its byte. -/
theorem storeExp_read_other {c : Cfg} {bank : BitVec 32} {m : Memory} {a j : Nat} {bs : List Byte}
    (h : 0 < c.expSize) (hm : Memory.wf c.expSize m = true)
    (hj : ∀ i < bs.length, j ≠ expPhys c bank (a + i)) :
    Memory.read (storeExp c bank m a bs) j = Memory.read m j := by
  induction bs generalizing m a with
  | nil => rfl
  | cons b bs ih =>
    have h0 := hj 0 (by simp)
    rw [storeExp, ih (Laws.memory_write_wf hm (expPhys_lt h bank a)), Laws.memory_read_write hm, if_neg (by simpa using h0)]
    intro i hi
    have := hj (i + 1) (by simp; omega)
    rwa [show a + 1 + i = a + (i + 1) by omega]

/-- The last byte stored at a physical index is the one it holds. -/
theorem storeExp_read_last {c : Cfg} {bank : BitVec 32} {m : Memory} {a i : Nat} {bs : List Byte}
    (h : 0 < c.expSize) (hm : Memory.wf c.expSize m = true) (hi : i < bs.length)
    (hl : ∀ j < bs.length, i < j → expPhys c bank (a + j) ≠ expPhys c bank (a + i)) :
    Memory.read (storeExp c bank m a bs) (expPhys c bank (a + i)) = bs[i] := by
  induction bs generalizing m a i with
  | nil => simp at hi
  | cons b bs ih =>
    have hw := Laws.memory_write_wf (b := b) hm (expPhys_lt h bank a)
    cases i with
    | zero =>
      rw [storeExp, storeExp_read_other h hw, Laws.memory_read_write hm]
      · simp
      · intro j hj
        have := hl (j + 1) (by simp; omega) (by omega)
        rw [show a + 1 + j = a + (j + 1) by omega]
        exact this.symm
    | succ i =>
      have e : a + (i + 1) = a + 1 + i := by omega
      rw [storeExp, e, ih hw (by simpa using hi)]
      · simp
      · intro j hj hij
        have := hl (j + 1) (by simp; omega) (by omega)
        rwa [show a + 1 + j = a + (j + 1) by omega, ← e]

/-- What `poll` gives and leaves (45_sd_data_phase.md R251). -/
theorem card_poll_eq (k : Card) :
    k.poll = (if k.sd.outPos < k.sd.outBuf.length then (some (k.sd.outBuf.getD k.sd.outPos 0),
      { k with sd := { k.sd with outPos := k.sd.outPos + 1 } }) else (none, k)) := by
  unfold Card.poll
  by_cases h : k.sd.outPos < k.sd.outBuf.length
  · simp [h]
  · simp [h]

/-- Everything `disk_read` can do: the session and the disk stay, and a success returns the bytes of the run
(45_sd_data_phase.md R254). -/
theorem card_diskRead_cases (c : Cfg) (k : Card) (off n : Nat) :
    (k.diskRead c off n).1.sd = k.sd ∧ (k.diskRead c off n).1.disk = k.disk ∧
      (k.diskRead c off n).1.trace = k.trace ∧
      ((k.diskRead c off n).2 = none ∨ (k.diskRead c off n).2 = some (Memory.readRange k.disk off n)) := by
  unfold Card.diskRead
  split
  · simp
  · split
    · simp
    · unfold Card.drawBool
      cases Config.drawBool k.draws <;> simp

/-- Everything `disk_read` can answer (45_sd_data_phase.md R254): the bytes, in bounds only; or a failure, never of a
reliable disk in bounds. Only an in-bounds read of an unreliable disk draws. -/
theorem card_diskRead_answers (c : Cfg) (k : Card) (off n : Nat) :
    ∃ draws, (c.diskAttached = true ∧ off + n ≤ c.diskLen ∧ c.reliableDisk = false ∨ draws = k.draws) ∧
      ((c.diskAttached = true ∧ off + n ≤ c.diskLen ∧
          k.diskRead c off n = ({ k with draws := draws }, some (Memory.readRange k.disk off n))) ∨
        ¬(c.diskAttached = true ∧ off + n ≤ c.diskLen ∧ c.reliableDisk = true) ∧
          k.diskRead c off n = ({ k with draws := draws }, none)) := by
  by_cases ha : c.diskAttached = true <;> by_cases hn : off + n ≤ c.diskLen
  · cases hr : c.reliableDisk with
    | true => exact ⟨k.draws, .inr rfl, .inl ⟨ha, hn, by simp [Card.diskRead, ha, hr, Nat.not_lt.mpr hn]⟩⟩
    | false =>
      refine ⟨k.draws + 1, .inl ⟨ha, hn, rfl⟩, ?_⟩
      cases hb : Config.drawBool k.draws with
      | true => exact .inl ⟨ha, hn, by simp [Card.diskRead, ha, hr, Nat.not_lt.mpr hn, Card.drawBool, hb]⟩
      | false => exact .inr ⟨by simp, by simp [Card.diskRead, ha, hr, Nat.not_lt.mpr hn, Card.drawBool, hb]⟩
  all_goals
    refine ⟨k.draws, .inr rfl, .inr ⟨by simp [ha, hn], ?_⟩⟩
    unfold Card.diskRead
    rw [if_pos (by simp [ha] <;> omega)]

/-- An in-bounds read of a reliable disk (45_sd_data_phase.md R254). -/
theorem card_diskRead_reliable {c : Cfg} (k : Card) {off n : Nat} (ha : c.diskAttached = true)
    (hr : c.reliableDisk = true) (hn : off + n ≤ c.diskLen) :
    k.diskRead c off n = (k, some (Memory.readRange k.disk off n)) := by
  simp [Card.diskRead, ha, hr, Nat.not_lt.mpr hn]

/-- Everything `disk_write` can do (45_sd_data_phase.md R255). -/
theorem card_diskWrite_cases (c : Cfg) (k : Card) (off : Nat) (data : List Byte) :
    (∃ k', k.diskWrite c off data = .done (k', false) ∧ k'.sd = k.sd ∧ k'.disk = k.disk ∧ k'.trace = k.trace) ∨
    (∃ k', k.diskWrite c off data = .done (k', true) ∧ k'.sd = k.sd ∧ off + data.length ≤ c.diskLen ∧
      k'.disk = Memory.writeRange k.disk off data ∧ k'.trace = k.trace) ∨
    k.diskWrite c off data = .raised (.refuse (.diskExtend off data.length)) k.trace := by
  unfold Card.diskWrite
  split
  · exact .inl ⟨k, rfl, rfl, rfl, rfl⟩
  · split
    · exact .inr (.inr rfl)
    · split
      · exact .inr (.inl ⟨_, rfl, rfl, by omega, rfl, rfl⟩)
      · unfold Card.drawBool
        cases Config.drawBool k.draws
        · exact .inl ⟨_, rfl, rfl, rfl, rfl⟩
        · exact .inr (.inl ⟨_, rfl, rfl, by omega, rfl, rfl⟩)

end Sys2Proof.Machine
end

