-- ==== Sys2Proof/Laws/Card.lean ====
section
/-! SUPPORT. What the SD engine can do: the part of the invariant that is the card's, and that every command rule, data
phase and latch keeps it; the events it emits. -/

namespace Sys2Proof.Machine

/-- The part of the invariant that is the card's (`State.Inv`). -/
structure CardInv (c : Cfg) (k : Card) : Prop where
  disk : Memory.wf c.diskLen k.disk = true
  blockSize : k.sd.blockSize = 512 ∨ (1 ≤ k.sd.blockSize.toNat ∧ k.sd.blockSize.toNat ≤ c.maxBlockSize)
  output : k.sd.outPos ≤ k.sd.outBuf.length
  inCount : k.sd.inCount = k.sd.inBuf.length
  inBuf : if k.sd.state = .receivingBlock then k.sd.inCount < k.sd.blockSize.toNat + 2 else k.sd.inBuf = []
  session : k.sd.state ≠ .ident ∧ k.sd.state ≠ .data ∧ k.sd.state ≠ .receive ∧ k.sd.state ≠ .program

/-- A card that holds no input, and whose session is in a state a rule may leave it in. -/
def CardRest (c : Cfg) (k : Card) : Prop := CardInv c k ∧ k.sd.state ≠ .receivingBlock

theorem cardRest_inBuf {c : Cfg} {k : Card} (h : CardRest c k) : k.sd.inBuf = [] ∧ k.sd.inCount = 0 := by
  have h1 := h.1.inBuf
  rw [if_neg h.2] at h1
  exact ⟨h1, by rw [h.1.inCount, h1]; rfl⟩

/-- A queued response and a state entered keep the card at rest. -/
theorem cardRest_queue {c : Cfg} {k : Card} (l : List Byte) (h : CardRest c k) : CardRest c (k.queue l) := by
  obtain ⟨⟨h1, h2, h3, h4, h5, h6⟩, h7⟩ := h
  exact ⟨⟨h1, h2, Nat.zero_le _, h4, h5, h6⟩, h7⟩

theorem cardRest_enter {c : Cfg} {k : Card} {x : SdState} (h : CardRest c k) (hr : x ≠ .receivingBlock)
    (hx : x ≠ .ident ∧ x ≠ .data ∧ x ≠ .receive ∧ x ≠ .program) : CardRest c (k.enter x) := by
  obtain ⟨hb, -⟩ := cardRest_inBuf h
  obtain ⟨⟨h1, h2, h3, h4, h5, h6⟩, h7⟩ := h
  exact ⟨⟨h1, h2, h3, h4, by simp [hr, hb], hx⟩, hr⟩

theorem cardRest_takeAppFlag {c : Cfg} {k : Card} (h : CardRest c k) : CardRest c k.takeAppFlag := by
  obtain ⟨⟨h1, h2, h3, h4, h5, h6⟩, h7⟩ := h
  exact ⟨⟨h1, h2, h3, h4, h5, h6⟩, h7⟩

theorem cardRest_clearWindow {c : Cfg} {k : Card} (h : CardRest c k) : CardRest c k.clearWindow := by
  obtain ⟨⟨h1, h2, h3, h4, h5, h6⟩, h7⟩ := h
  exact ⟨⟨h1, h2, h3, h4, h5, h6⟩, h7⟩

theorem cardInv_shift {c : Cfg} {k : Card} (b : Byte) (h : CardInv c k) : CardInv c (k.shift b) := by
  obtain ⟨h1, h2, h3, h4, h5, h6⟩ := h
  exact ⟨h1, h2, h3, h4, h5, h6⟩

/-- A block size in force while no block is being received keeps the card at rest. -/
theorem cardRest_blockSize {c : Cfg} {k : Card} {v : BitVec 16} (h : CardRest c k)
    (hv : v = 512 ∨ (1 ≤ v.toNat ∧ v.toNat ≤ c.maxBlockSize)) :
    CardRest c { k with sd := { k.sd with blockSize := v } } := by
  obtain ⟨hb, -⟩ := cardRest_inBuf h
  obtain ⟨⟨h1, h2, h3, h4, h5, h6⟩, h7⟩ := h
  exact ⟨⟨h1, hv, h3, h4, by simp [h7, hb], h6⟩, h7⟩

theorem cardRest_of_sd {c : Cfg} {k k' : Card} (h : CardRest c k) (h1 : k'.sd = k.sd) (h2 : k'.disk = k.disk) :
    CardRest c k' := by
  obtain ⟨⟨a1, a2, a3, a4, a5, a6⟩, a7⟩ := h
  exact ⟨⟨by rw [h2]; exact a1, by rw [h1]; exact a2, by rw [h1]; exact a3, by rw [h1]; exact a4,
    by rw [h1]; exact a5, by rw [h1]; exact a6⟩, by rw [h1]; exact a7⟩

theorem cardRest_diskRead {c : Cfg} {k : Card} (off n : Nat) (h : CardRest c k) :
    CardRest c (k.diskRead c off n).1 :=
  cardRest_of_sd h (card_diskRead_cases c k off n).1 (card_diskRead_cases c k off n).2.1

theorem cardRest_readFailureResponse {c : Cfg} {k : Card} (h : CardRest c k) :
    CardRest c (readFailureResponse k) := by
  unfold readFailureResponse Card.drawBool Card.drawBytes
  cases Config.drawBool k.draws
  · exact cardRest_queue _ (cardRest_of_sd h rfl rfl)
  · exact cardRest_queue _ (cardRest_of_sd h rfl rfl)

/-- Every command rule keeps the card at rest (44_sd_commands.md R216 to R231). -/
theorem cardRest_ruleCmd0 {c : Cfg} {k : Card} (h : CardRest c k) : CardRest c (ruleCmd0 c k) := by
  have h1 : CardRest c (if c.diskAttached then (k.queue [0x01]).enter .idle else (k.queue [0x00]).enter .inactive) := by
    split
    · exact cardRest_enter (cardRest_queue _ h) (by decide) (by decide)
    · exact cardRest_enter (cardRest_queue _ h) (by decide) (by decide)
  unfold ruleCmd0
  simp only []
  split
  · exact cardRest_blockSize h1 (.inl rfl)
  · exact h1

theorem cardRest_queue_enter {c : Cfg} {k : Card} {x : SdState} (l : List Byte) (h : CardRest c k)
    (hr : x ≠ .receivingBlock) (hx : x ≠ .ident ∧ x ≠ .data ∧ x ≠ .receive ∧ x ≠ .program) :
    CardRest c ((k.queue l).enter x) :=
  cardRest_enter (cardRest_queue l h) hr hx

theorem cardRest_ruleCmd16 {c : Cfg} {k k' : Card} {g : BitVec 32} (h : CardRest c k)
    (hk : ruleCmd16 c g k = .done k') : CardRest c k' := by
  unfold ruleCmd16 at hk
  simp only [] at hk
  split at hk
  · cases hk
  · next hn =>
    cases hk
    refine cardRest_queue_enter _ (cardRest_blockSize h (.inr ?_)) (by decide) (by decide)
    omega

theorem cardRest_ruleCmd17 {c : Cfg} {k : Card} (g : BitVec 32) (h : CardRest c k) :
    CardRest c (ruleCmd17 c g k) := by
  unfold ruleCmd17
  refine cardRest_enter ?_ (by decide) (by decide)
  split
  · have hd := cardRest_diskRead (blockOffset c k.sd.blockSize g) k.sd.blockSize.toNat h
    split
    · next k' data hk => rw [hk] at hd; exact cardRest_queue _ hd
    · next k' hk => rw [hk] at hd; exact cardRest_readFailureResponse hd
  · exact cardRest_queue _ h

theorem cardRest_ruleCmd18 {c : Cfg} {k : Card} (g : BitVec 32) (h : CardRest c k) :
    CardRest c (ruleCmd18 c g k) := by
  unfold ruleCmd18
  split
  · refine cardRest_queue_enter _ ?_ (by decide) (by decide)
    obtain ⟨⟨h1, h2, h3, h4, h5, h6⟩, h7⟩ := h
    exact ⟨⟨h1, h2, h3, h4, h5, h6⟩, h7⟩
  · exact cardRest_queue_enter _ h (by decide) (by decide)

theorem cardRest_ruleCmd24 {c : Cfg} {k : Card} (g : BitVec 32) (h : CardRest c k) :
    CardRest c (ruleCmd24 g k) := by
  unfold ruleCmd24
  refine cardRest_queue_enter _ ?_ (by decide) (by decide)
  obtain ⟨⟨h1, h2, h3, h4, h5, h6⟩, h7⟩ := h
  exact ⟨⟨h1, h2, h3, rfl, by simp [h7], h6⟩, h7⟩

theorem cardRest_ruleCmd55 {c : Cfg} {k : Card} (h : CardRest c k) : CardRest c (ruleCmd55 k) := by
  have h1 := cardRest_queue [0x01] h
  obtain ⟨⟨h1, h2, h3, h4, h5, h6⟩, h7⟩ := h1
  exact ⟨⟨h1, h2, h3, h4, h5, h6⟩, h7⟩

/-- A recognized command keeps the card at rest if its rule does. -/
theorem cardRest_recognized {c : Cfg} {k k' : Card} {rule : Card → Res Card} (h : CardRest c k)
    (hr : ∀ k k', CardRest c k → rule k = .done k' → CardRest c k') (hk : recognized rule k = .done k') :
    CardRest c k' := by
  obtain ⟨k1, h1, rfl⟩ := res_map_eq_done.mp hk
  exact cardRest_clearWindow (hr _ _ (cardRest_takeAppFlag h) h1)

theorem cardRest_recognizedTotal {c : Cfg} {k k' : Card} {rule : Card → Card} (h : CardRest c k)
    (hr : ∀ k, CardRest c k → CardRest c (rule k)) (hk : recognizedTotal rule k = .done k') : CardRest c k' :=
  cardRest_recognized h (fun k _ hk e => by cases e; exact hr k hk) hk

/-- The next streamed block keeps the card at rest (45_sd_data_phase.md R259). -/
theorem cardRest_streamNext {c : Cfg} {k : Card} (h : CardRest c k) : CardRest c (streamNext c k) := by
  unfold streamNext
  split
  · have hd := cardRest_diskRead (blockOffset c k.sd.blockSize k.sd.nextBlock) k.sd.blockSize.toNat h
    split
    · next k' hk => rw [hk] at hd; exact cardRest_enter hd (by decide) (by decide)
    · next k' data hk =>
      rw [hk] at hd
      have hq := cardRest_queue ([0xFE] ++ data ++ [0x00, 0x00]) hd
      obtain ⟨⟨h1, h2, h3, h4, h5, h6⟩, h7⟩ := hq
      exact ⟨⟨h1, h2, h3, h4, h5, h6⟩, h7⟩
  · exact h

/-- The start token opens an empty block (45_sd_data_phase.md R256). -/
theorem cardInv_awaitToken {c : Cfg} {k : Card} (b : Byte) (h : CardInv c k) : CardInv c (awaitToken b k) := by
  unfold awaitToken
  split
  · obtain ⟨h1, h2, h3, h4, h5, h6⟩ := h
    exact ⟨h1, h2, h3, rfl, by simp, by simp⟩
  · exact h

/-- A received byte keeps the card's invariant, through the write's completion too (45_sd_data_phase.md R257,
R258). -/
theorem cardInv_receiveByte {c : Cfg} {k k' : Card} {b : Byte} (h : CardInv c k) (hs : k.sd.state = .receivingBlock)
    (hk : receiveByte c b k = .done k') : CardInv c k' := by
  obtain ⟨h1, h2, h3, h4, h5, h6⟩ := h
  rw [if_pos hs] at h5
  unfold receiveByte at hk
  simp only [] at hk
  split at hk
  · next hn =>
    obtain ⟨p, hp, rfl⟩ := res_map_eq_done.mp hk
    have hc := card_diskWrite_cases c
      { k with sd := { k.sd with inBuf := k.sd.inBuf ++ [b], inCount := k.sd.inCount + 1 } }
      (blockOffset c k.sd.blockSize k.sd.wrBlock) ((k.sd.inBuf ++ [b]).take k.sd.blockSize.toNat)
    simp only [hp] at hc
    rcases hc with ⟨k1, e, hsd, hd, -⟩ | ⟨k1, e, hsd, hl, hd, -⟩ | e
    · cases e
      exact ⟨by simpa [finishWrite, hd] using h1, by simpa [finishWrite, hsd] using h2, Nat.zero_le _, rfl,
        by simp [finishWrite], by simp [finishWrite]⟩
    · cases e
      refine ⟨?_, by simpa [finishWrite, hsd] using h2, Nat.zero_le _, rfl, by simp [finishWrite],
        by simp [finishWrite]⟩
      simpa [finishWrite, hd] using Laws.memory_writeRange_wf h1 hl
    · cases e
  · next hn =>
    cases hk
    refine ⟨h1, h2, h3, by simp [h4], ?_, h6⟩
    simp only [hs, if_true]
    omega

/-- A latch keeps the card's invariant, if its frame test keeps a card at rest (44_sd_commands.md R210, R212). -/
theorem cardInv_latchBody {c : Cfg} {k k' : Card} {b : Byte} {test : Card → Res Card} (h : CardInv c k)
    (ht : ∀ k k', CardRest c k → test k = .done k' → CardRest c k') (hk : latchBody c b test k = .done k') :
    CardInv c k' := by
  unfold latchBody at hk
  split at hk
  · cases hk; exact cardInv_awaitToken b h
  · next hs => exact cardInv_receiveByte h hs hk
  · next hs1 hs2 =>
    have hr : CardRest c k := ⟨h, hs2⟩
    obtain ⟨k1, h1, rfl⟩ := res_map_eq_done.mp hk
    have h2 : CardRest c k1 := by
      split at h1
      · cases h1; exact hr
      · exact ht _ _ hr h1
    split
    · exact (cardRest_streamNext h2).1
    · exact h2.1

/-- Dispatch keeps a card at rest (44_sd_commands.md R213). -/
theorem cardRest_dispatch {c : Cfg} {k k' : Card} (h : CardRest c k) (hk : dispatch c k = .done k') :
    CardRest c k' := by
  unfold dispatch at hk
  simp only [] at hk
  split at hk
  case h_1 => exact cardRest_recognizedTotal h (fun _ => cardRest_ruleCmd0) hk
  case h_8 => exact cardRest_recognized h (fun _ _ => cardRest_ruleCmd16) hk
  case h_9 => exact cardRest_recognizedTotal h (fun _ => cardRest_ruleCmd17 _) hk
  case h_10 => exact cardRest_recognizedTotal h (fun _ => cardRest_ruleCmd18 _) hk
  case h_11 => exact cardRest_recognizedTotal h (fun _ => cardRest_ruleCmd24 _) hk
  case h_14 => exact cardRest_recognizedTotal h (fun _ => cardRest_ruleCmd55) hk
  case h_17 => cases hk; exact cardRest_takeAppFlag h
  case h_3 => exact cardRest_recognizedTotal h (fun _ h => cardRest_queue _ h) hk
  case h_15 => exact cardRest_recognizedTotal h (fun _ h => cardRest_queue _ h) hk
  case h_16 => exact cardRest_recognizedTotal h (fun _ h => cardRest_queue _ h) hk
  all_goals exact cardRest_recognizedTotal h (fun _ h => cardRest_queue_enter _ h (by decide) (by decide)) hk

theorem cardRest_frameTest {c : Cfg} {k k' : Card} (h : CardRest c k) (hk : frameTest c k = .done k') :
    CardRest c k' := by
  unfold frameTest at hk
  split at hk
  · exact cardRest_dispatch h hk
  · cases hk; exact h

/-- `sd_latch` keeps the card's invariant (44_sd_commands.md R210). -/
theorem cardInv_sdLatch {c : Cfg} {k k' : Card} {b : Byte} (h : CardInv c k) (hk : sdLatch c b k = .done k') :
    CardInv c k' :=
  cardInv_latchBody (cardInv_shift b h) (fun _ _ => cardRest_frameTest) hk

/-- `poll` keeps the card's invariant (45_sd_data_phase.md R251, R261). -/
theorem cardInv_poll {c : Cfg} {k : Card} (h : CardInv c k) : CardInv c k.poll.2 := by
  rw [card_poll_eq]
  obtain ⟨h1, h2, h3, h4, h5, h6⟩ := h
  split
  · next hl => exact ⟨h1, h2, hl, h4, h5, h6⟩
  · exact ⟨h1, h2, h3, h4, h5, h6⟩

end Sys2Proof.Machine
end

