-- ==== Sys2Proof/Laws/Exec.lean ====
section
/-! SUPPORT. Every meaning is one run of one operation: which one, said once, so that a statement about `exec` is a
statement about that operation. -/

namespace Sys2Proof.Machine

open Host (Outcome)

/-- A register read, as an operation with a reply. -/
def readReply (r : Res (State × Byte)) : Res (State × Reply) := r.map fun p => (p.1, .okValue (p.2.setWidth 32))

/-- A register write, as an operation with a reply. -/
def writeReply (r : Res State) : Res (State × Reply) := r.map fun t => (t, .ok)

/-- The latch of the last byte of a frame, as an operation with a reply. -/
def cardReply (s : State) (r : Res Card) : Res (State × Reply) := r.map fun k => (s.withCard k, .silent)

/-- The frame test of an SD command row: what the command does in a scanning state. -/
def cardTest (c : Cfg) : Instr → Card → Res Card
  | .readByte _ => .done
  | .readWord _ => .done
  | .readLong _ => .done
  | .writeByte _ _ => .done
  | .writeWord _ _ => .done
  | .writeLong _ _ => .done
  | .iack _ => .done
  | .hostIn _ => .done
  | .tick => .done
  | .setbank _ => .done
  | .duartStatusRead _ => .done
  | .duartDataRead _ => .done
  | .duartDataWrite _ _ => .done
  | .duartImrWrite _ _ => .done
  | .duartOtherWrite _ _ => .done
  | .duartOtherRead _ => .done
  | .usbCmdWrite _ _ => .done
  | .usbDataWrite _ _ => .done
  | .usbDataRead _ => .done
  | .usbCmdRead _ => .done
  | .spiOutWrite _ _ => .done
  | .spiOutRead _ => .done
  | .spiInRead _ => .done
  | .spiInWrite _ _ => .done
  | .expBankWrite _ _ => .done
  | .expBankRead _ => .done
  | .ioUnimplementedWrite _ _ => .done
  | .ioUnimplementedRead _ => .done
  | .cmd0 _ _ => recognizedTotal (ruleCmd0 c)
  | .cmd1 _ _ => recognizedTotal ruleCmd1
  | .cmd8 _ _ => recognizedTotal ruleCmd8
  | .cmd9 _ _ => recognizedTotal ruleCmd9
  | .cmd10 _ _ => recognizedTotal (ruleCmd10 c)
  | .cmd12 _ _ => recognizedTotal ruleCmd12
  | .cmd13 _ _ => recognizedTotal ruleCmd13
  | .cmd16 argument _ => recognized (ruleCmd16 c argument)
  | .cmd17 argument _ => recognizedTotal (ruleCmd17 c argument)
  | .cmd18 argument _ => recognizedTotal (ruleCmd18 c argument)
  | .cmd24 argument _ => recognizedTotal (ruleCmd24 argument)
  | .acmd41 _ _ => recognizedTotal ruleAcmd41
  | .cmd41 _ _ => recognizedTotal ruleCmd41
  | .cmd55 _ _ => recognizedTotal ruleCmd55
  | .cmd58 _ _ => recognizedTotal (ruleCmd58 c)
  | .cmd59 _ _ => recognizedTotal ruleCmd59
  | .cmdUnrecognized _ _ _ => unrecognized

/-- The CRC field of an SD command row; 0 of any other. -/
def crcField : Instr → BitVec 7
  | .readByte _ => 0
  | .readWord _ => 0
  | .readLong _ => 0
  | .writeByte _ _ => 0
  | .writeWord _ _ => 0
  | .writeLong _ _ => 0
  | .iack _ => 0
  | .hostIn _ => 0
  | .tick => 0
  | .setbank _ => 0
  | .duartStatusRead _ => 0
  | .duartDataRead _ => 0
  | .duartDataWrite _ _ => 0
  | .duartImrWrite _ _ => 0
  | .duartOtherWrite _ _ => 0
  | .duartOtherRead _ => 0
  | .usbCmdWrite _ _ => 0
  | .usbDataWrite _ _ => 0
  | .usbDataRead _ => 0
  | .usbCmdRead _ => 0
  | .spiOutWrite _ _ => 0
  | .spiOutRead _ => 0
  | .spiInRead _ => 0
  | .spiInWrite _ _ => 0
  | .expBankWrite _ _ => 0
  | .expBankRead _ => 0
  | .ioUnimplementedWrite _ _ => 0
  | .ioUnimplementedRead _ => 0
  | .cmd0 _ crc => crc
  | .cmd1 _ crc => crc
  | .cmd8 _ crc => crc
  | .cmd9 _ crc => crc
  | .cmd10 _ crc => crc
  | .cmd12 _ crc => crc
  | .cmd13 _ crc => crc
  | .cmd16 _ crc => crc
  | .cmd17 _ crc => crc
  | .cmd18 _ crc => crc
  | .cmd24 _ crc => crc
  | .acmd41 _ crc => crc
  | .cmd41 _ crc => crc
  | .cmd55 _ crc => crc
  | .cmd58 _ crc => crc
  | .cmd59 _ crc => crc
  | .cmdUnrecognized _ _ crc => crc

/-- The operation of an instruction. -/
def operation (i : Instr) (s : State) : Res (State × Reply) :=
  match i with
  | .readByte address => memRead address .byte s
  | .readWord address => memRead address .word s
  | .readLong address => memRead address .long s
  | .writeByte address value => memWrite address .byte (value.setWidth 32) s
  | .writeWord address value => memWrite address .word (value.setWidth 32) s
  | .writeLong address value => memWrite address .long value s
  | .iack level => readReply (.done (acknowledge level s))
  | .hostIn byte => .done (hostInput byte s, .silent)
  | .tick => .done (timerTick s, .silent)
  | .setbank value => .done (setBank value s, .silent)
  | .duartStatusRead _ => readReply (duartStatusRead s)
  | .duartDataRead _ => readReply (duartDataRead s)
  | .duartDataWrite _ value => writeReply (duartDataWrite value s)
  | .duartImrWrite _ value => writeReply (duartImrWrite value s)
  | .duartOtherWrite address value => writeReply (unimplementedWrite (maskAddr s.cfg address) value s)
  | .duartOtherRead address => readReply (unimplementedRead (maskAddr s.cfg address) s)
  | .usbCmdWrite _ value => writeReply (usbCmdWrite value s)
  | .usbDataWrite _ value => writeReply (usbDataWrite value s)
  | .usbDataRead _ => readReply (usbDataRead s)
  | .usbCmdRead _ => readReply (usbCmdRead s)
  | .spiOutWrite _ value => writeReply (spiOutWrite value s)
  | .spiOutRead _ => readReply (spiOutRead s)
  | .spiInRead _ => readReply (spiInRead s)
  | .spiInWrite _ value => writeReply (spiInWrite value s)
  | .expBankWrite address value => writeReply (
      match bankIndex s.cfg (maskAddr s.cfg address) with
      | some i => expBankWrite i value s
      | none => unimplementedWrite (maskAddr s.cfg address) value s)
  | .expBankRead address => readReply (
      match bankIndex s.cfg (maskAddr s.cfg address) with
      | some i => expBankRead i s
      | none => unimplementedRead (maskAddr s.cfg address) s)
  | .ioUnimplementedWrite address value => writeReply (unimplementedWrite (maskAddr s.cfg address) value s)
  | .ioUnimplementedRead address => readReply (unimplementedRead (maskAddr s.cfg address) s)
  | .cmd0 _ crc => cardReply s (latchBody s.cfg (stopByte crc) (recognizedTotal (ruleCmd0 s.cfg)) s.card)
  | .cmd1 _ crc => cardReply s (latchBody s.cfg (stopByte crc) (recognizedTotal ruleCmd1) s.card)
  | .cmd8 _ crc => cardReply s (latchBody s.cfg (stopByte crc) (recognizedTotal ruleCmd8) s.card)
  | .cmd9 _ crc => cardReply s (latchBody s.cfg (stopByte crc) (recognizedTotal ruleCmd9) s.card)
  | .cmd10 _ crc => cardReply s (latchBody s.cfg (stopByte crc) (recognizedTotal (ruleCmd10 s.cfg)) s.card)
  | .cmd12 _ crc => cardReply s (latchBody s.cfg (stopByte crc) (recognizedTotal ruleCmd12) s.card)
  | .cmd13 _ crc => cardReply s (latchBody s.cfg (stopByte crc) (recognizedTotal ruleCmd13) s.card)
  | .cmd16 argument crc => cardReply s (latchBody s.cfg (stopByte crc) (recognized (ruleCmd16 s.cfg argument)) s.card)
  | .cmd17 argument crc => cardReply s (latchBody s.cfg (stopByte crc) (recognizedTotal (ruleCmd17 s.cfg argument)) s.card)
  | .cmd18 argument crc => cardReply s (latchBody s.cfg (stopByte crc) (recognizedTotal (ruleCmd18 s.cfg argument)) s.card)
  | .cmd24 argument crc => cardReply s (latchBody s.cfg (stopByte crc) (recognizedTotal (ruleCmd24 argument)) s.card)
  | .acmd41 _ crc => cardReply s (latchBody s.cfg (stopByte crc) (recognizedTotal ruleAcmd41) s.card)
  | .cmd41 _ crc => cardReply s (latchBody s.cfg (stopByte crc) (recognizedTotal ruleCmd41) s.card)
  | .cmd55 _ crc => cardReply s (latchBody s.cfg (stopByte crc) (recognizedTotal ruleCmd55) s.card)
  | .cmd58 _ crc => cardReply s (latchBody s.cfg (stopByte crc) (recognizedTotal (ruleCmd58 s.cfg)) s.card)
  | .cmd59 _ crc => cardReply s (latchBody s.cfg (stopByte crc) (recognizedTotal ruleCmd59) s.card)
  | .cmdUnrecognized _ _ crc => cardReply s (latchBody s.cfg (stopByte crc) (unrecognized) s.card)

/-- Every meaning runs its one operation. -/
theorem exec_eq_perform (i : Instr) (s : State) : exec i s = perform s (operation i) := by
  cases i <;> rfl

/-- From a state with no mark, an instruction answers what its operation leaves. -/
theorem exec_unmarked {s : State} (h : s.unmarked) (i : Instr) :
    exec i s = .next (conclude s (operation i s)) := by
  rw [exec_eq_perform, perform_unmarked h]

/-- What an instruction can answer as a next state. -/
theorem exec_eq_next {i : Instr} {s t : State} :
    exec i s = .next t ↔ s.unmarked ∧ conclude s (operation i s) = t := by
  rw [exec_eq_perform, perform_eq_next]

/-- Everything an instruction can leave: its operation's own result with its reply, or the marked state. -/
theorem exec_cases {i : Instr} {s t : State} (h : exec i s = .next t) :
    s.unmarked ∧ ((∃ u y, operation i s = .done (u, y) ∧ t = { u with reply := y }) ∨
      ∃ x tr, operation i s = .raised x tr ∧ t = mark s x tr) := by
  obtain ⟨hu, rfl⟩ := exec_eq_next.mp h
  refine ⟨hu, ?_⟩
  cases operation i s with
  | done p => exact .inl ⟨p.1, p.2, rfl, rfl⟩
  | raised x tr => exact .inr ⟨x, tr, rfl, rfl⟩

/-- The operation of an SD command row. -/
theorem operation_sdRow {i : Instr} (h : i.isSdRow = true) (s : State) :
    operation i s = cardReply s (latchBody s.cfg (stopByte (crcField i)) (cardTest s.cfg i) s.card) := by
  cases i <;> first | rfl | cases h

end Sys2Proof.Machine
end

