-- ==== Sys2Proof/Laws/Bus.lean ====
section
/-! SUPPORT. What the bus operations do with an access, region by region, and the big-endian values and stored bytes
said in arithmetic. -/

namespace Sys2Proof.Machine

theorem misaligned_eq_false {a : Addr} {n : Width} : misaligned a n = false ↔ aligned a n := by
  cases n <;> simp [misaligned, aligned, BitVec.getLsbD, Nat.testBit_zero]

theorem misaligned_eq_true {a : Addr} {n : Width} : misaligned a n = true ↔ ¬ aligned a n := by
  rw [← misaligned_eq_false]; simp

/-- An access whose bytes all lie in one region is admitted, and lies in that region (20_memory.md R67, R68). -/
theorem lies_admitted {c : Cfg} {a : Addr} {n : Width} {r : Region} (h : lies c a n r) :
    misaligned a n = false ∧ straddles c a n = false ∧ classify c a.toNat = r := by
  obtain ⟨h1, h2⟩ := h
  have hc : classify c a.toNat = r := (h2 0 (width_bytes_pos n)).2.2
  refine ⟨misaligned_eq_false.mpr h1, straddles_eq_false.mpr fun i hi => ?_, hc⟩
  obtain ⟨b1, b2, b3⟩ := h2 i hi
  exact ⟨b1, b2, by rw [b3, hc]⟩

/-- An admitted read does what its region does. -/
theorem memRead_lies {s : State} {address : Addr} {n : Width} {r : Region}
    (h : lies s.cfg (maskAddr s.cfg address) n r) :
    memRead address n s = readAdmitted (maskAddr s.cfg address) n s := by
  obtain ⟨h1, h2, -⟩ := lies_admitted h
  simp [memRead, checkAccess_done .read h1 h2]

/-- An admitted write does what its region does. -/
theorem memWrite_lies {s : State} {address : Addr} {n : Width} {v : BitVec 32} {r : Region}
    (h : lies s.cfg (maskAddr s.cfg address) n r) :
    memWrite address n v s = writeAdmitted (maskAddr s.cfg address) n v s := by
  obtain ⟨h1, h2, -⟩ := lies_admitted h
  simp [memWrite, checkAccess_done .write h1 h2]

/-- Reading is an access instruction's operation. -/
theorem operation_readOf (n : Width) (address : Addr) (s : State) :
    operation (readOf n address) s = memRead address n s := by cases n <;> rfl

/-- Writing is an access instruction's operation, on the value cut to the width. -/
theorem operation_writeOf (n : Width) (address : Addr) (v : BitVec 32) (s : State) :
    operation (writeOf n address v) s = memWrite address n (truncated n v) s := by
  have e8 : (v.setWidth 8).setWidth 32 = BitVec.ofNat 32 (v.toNat % 2 ^ 8) := by
    apply BitVec.eq_of_toNat_eq; simp
  have e16 : (v.setWidth 16).setWidth 32 = BitVec.ofNat 32 (v.toNat % 2 ^ 16) := by
    apply BitVec.eq_of_toNat_eq; simp
  have e32 : v = BitVec.ofNat 32 (v.toNat % 2 ^ 32) := by
    have := v.isLt
    apply BitVec.eq_of_toNat_eq; simp; omega
  cases n
  · simp only [writeOf, operation, truncated, Width.bytes]; rw [e8]
  · simp only [writeOf, operation, truncated, Width.bytes]; rw [e16]
  · simp only [writeOf, operation, truncated, Width.bytes]; rw [← e32]

/-- One byte joined to a big-endian value. -/
theorem beStep_toNat (acc : BitVec 32) (b : Byte) (h : acc.toNat < 2 ^ 24) :
    ((acc <<< 8) ||| b.setWidth 32).toNat = acc.toNat * 256 + b.toNat := by
  have hb := b.isLt
  rw [BitVec.toNat_or, BitVec.toNat_shiftLeft, BitVec.toNat_setWidth, Nat.mod_eq_of_lt (by omega : b.toNat < 2 ^ 32),
    Nat.shiftLeft_eq, Nat.mod_eq_of_lt (by omega), Nat.mul_comm acc.toNat]
  have h1 := Nat.two_pow_add_eq_or_of_lt (i := 8) (b := b.toNat) (by simpa using hb) acc.toNat
  omega

/-- A big-endian value in arithmetic (20_memory.md R65). -/
theorem beValue_toNat (n : Width) (f : Nat → Byte) :
    (beValue ((List.range n.bytes).map f)).toNat = beSum n.bytes f := by
  have h0 := (f 0).isLt
  have h1 := (f 1).isLt
  have h2 := (f 2).isLt
  have h3 := (f 3).isLt
  have z : ((0 : BitVec 32)).toNat = 0 := rfl
  cases n
  · simp only [beValue, Width.bytes, List.range_succ, List.range_zero, List.nil_append, List.map_cons, List.map_nil,
      List.foldl_cons, List.foldl_nil, beSum]
    rw [beStep_toNat _ _ (by rw [z]; omega), z]; simp
  · simp only [beValue, Width.bytes, List.range_succ, List.range_zero, List.nil_append, List.cons_append, List.map_cons,
      List.map_nil, List.foldl_cons, List.foldl_nil, beSum]
    have e := beStep_toNat 0 (f 0) (by rw [z]; omega)
    rw [beStep_toNat _ _ (by rw [e, z]; omega), e, z]; simp
  · simp only [beValue, Width.bytes, List.range_succ, List.range_zero, List.nil_append, List.cons_append, List.map_cons,
      List.map_nil, List.foldl_cons, List.foldl_nil, beSum]
    have e := beStep_toNat 0 (f 0) (by rw [z]; omega)
    have e1 := beStep_toNat _ (f 1) (by rw [e, z]; omega)
    have e2 := beStep_toNat _ (f 2) (by rw [e1, e, z]; omega)
    rw [beStep_toNat _ _ (by rw [e2, e1, e, z]; omega), e2, e1, e, z]; simp; omega

/-- Byte `i` of a value cut to the width is byte `i` of the value (20_memory.md R66). -/
theorem beByte_truncated (n : Width) (v : BitVec 32) (i : Nat) :
    beByte n.bytes (truncated n v) i = BitVec.ofNat 8 (v.toNat / 2 ^ (8 * (n.bytes - 1 - i))) := by
  have hv := v.isLt
  apply BitVec.eq_of_toNat_eq
  simp only [beByte, truncated, BitVec.extractLsb'_toNat, BitVec.toNat_ofNat, Nat.shiftRight_eq_div_pow]
  have key : ∀ k : Nat, k + 8 ≤ 8 * n.bytes → v.toNat % 2 ^ (8 * n.bytes) / 2 ^ k % 2 ^ 8 = v.toNat / 2 ^ k % 2 ^ 8 := by
    intro k hk
    obtain ⟨d, hd⟩ : ∃ d, 8 * n.bytes = k + d := ⟨8 * n.bytes - k, by omega⟩
    rw [hd, Nat.pow_add, Nat.mod_mul_right_div_self]
    exact Nat.mod_mod_of_dvd _ (Nat.pow_dvd_pow 2 (by omega))
  have hlt : v.toNat % 2 ^ (8 * n.bytes) % 2 ^ 32 = v.toNat % 2 ^ (8 * n.bytes) :=
    Nat.mod_eq_of_lt (Nat.lt_of_le_of_lt (Nat.mod_le _ _) hv)
  rw [hlt]
  have := width_bytes_pos n
  exact key _ (by omega)

/-- The bytes of a value cut to the width make up the value cut to the width. -/
theorem beSum_truncated (n : Width) (v : BitVec 32) :
    beSum n.bytes (beByte n.bytes (truncated n v)) = (truncated n v).toNat := by
  have hv := v.isLt
  have e : beByte n.bytes (truncated n v) = fun i => BitVec.ofNat 8 (v.toNat / 2 ^ (8 * (n.bytes - 1 - i))) :=
    funext (beByte_truncated n v)
  rw [e]
  cases n <;> simp [beSum, truncated, Width.bytes, List.range_succ] <;> omega

end Sys2Proof.Machine
end

