-- ==== Sys2Proof/Laws/Framer.lean ====
section
/-! SUPPORT. Everything a bus access, an SPI_OUT write and a latch can do, said once: the inversion lemmas that a
statement over all instructions cites. -/

namespace Sys2Proof.Machine

/-- The framer before a latch: the eighth bit shifted in. -/
def shiftedSpi (s : State) (v : Byte) : Spi :=
  let q := latchPins s.cfg v s.spi
  { q with shiftIn := shiftedIn q, count := s.spi.count + 1 }

/-- The bits of a byte that holds one bit. -/
theorem bitByte_getLsbD (b : Bool) (i : Fin 8) (k : Nat) : (bitByte b i).getLsbD k = (decide (k = i.val) && b) := by
  by_cases hk : k < 8
  · revert b i; revert k; decide
  · have : k ≠ i.val := by omega
    rw [BitVec.getLsbD_of_ge _ k (by omega : 8 ≤ k)]
    simp [this]

/-- The receive register after an edge. -/
theorem shiftedSpi_shiftIn (s : State) (v : Byte) :
    (shiftedSpi s v).shiftIn = (s.spi.shiftIn <<< 1) ||| bitByte (bitAt v s.cfg.spiMosiBit) 0 := rfl

/-- A write that is no rising edge with the card selected sets the framer only. -/
theorem spiOutWrite_noEdge {s : State} {v : Byte} (h : ¬ risesSelected s v) :
    spiOutWrite v s = .done { s with spi := latchedSpi s v } := by
  have hc : (!(latchPins s.cfg v s.spi).csN && !s.spi.sck && (latchPins s.cfg v s.spi).sck) = false := by
    rw [Bool.eq_false_iff]
    intro hc
    simp only [Bool.and_eq_true, Bool.not_eq_true', latchPins] at hc
    exact h ⟨hc.1.1, hc.1.2, hc.2⟩
  unfold spiOutWrite
  simp only [hc]

/-- What such a write leaves in the framer (43_spi_framer.md R191, R192). -/
theorem latchedSpi_eq (s : State) (v : Byte) :
    latchedSpi s v = { s.spi with
      csN := bitAt v s.cfg.spiCsBit, sck := bitAt v s.cfg.spiSckBit, mosi := bitAt v s.cfg.spiMosiBit
      shiftIn := if !s.spi.csN && bitAt v s.cfg.spiCsBit then 0x00 else s.spi.shiftIn
      count := if !s.spi.csN && bitAt v s.cfg.spiCsBit then 0 else s.spi.count } := by
  unfold latchedSpi
  cases h : !s.spi.csN && bitAt v s.cfg.spiCsBit <;> simp [latchPins, deselect, h]

/-- A rising edge shifts a bit in, and the eighth completes the byte. -/
theorem spiOutWrite_edge {s : State} {v : Byte} (h : risesSelected s v) :
    spiOutWrite v s =
      if s.spi.count = 7 then byteComplete { s with spi := shiftedSpi s v } else .done { s with spi := shiftedSpi s v } := by
  obtain ⟨h1, h2, h3⟩ := h
  unfold spiOutWrite risingEdge shiftedSpi latchedSpi
  simp [latchPins, h1, h2, h3]

/-- What completing a byte does: the latch, then one poll. -/
theorem byteComplete_eq (s : State) :
    byteComplete s = (sdLatch s.cfg s.spi.shiftIn s.card).map fun k =>
      { s.withCard k.poll.2 with spi := { s.spi with shiftOut := k.poll.1.getD 0xFF, count := 0 } } := rfl

/-- Everything an SPI_OUT write can complete with. -/
theorem spiOutWrite_done {s u : State} {v : Byte} (h : spiOutWrite v s = .done u) :
    (¬ risesSelected s v ∧ u = { s with spi := latchedSpi s v }) ∨
    (risesSelected s v ∧ s.spi.count ≠ 7 ∧ u = { s with spi := shiftedSpi s v }) ∨
    (risesSelected s v ∧ s.spi.count = 7 ∧ ∃ k, sdLatch s.cfg (shiftedSpi s v).shiftIn s.card = .done k ∧
      u = { s.withCard k.poll.2 with
        spi := { shiftedSpi s v with shiftOut := k.poll.1.getD 0xFF, count := 0 } }) := by
  by_cases hr : risesSelected s v
  · rw [spiOutWrite_edge hr] at h
    split at h
    · next hc =>
      rw [byteComplete_eq] at h
      obtain ⟨k, hk, rfl⟩ := res_map_eq_done.mp h
      exact .inr (.inr ⟨hr, hc, k, hk, rfl⟩)
    · next hc => cases h; exact .inr (.inl ⟨hr, hc, rfl⟩)
  · rw [spiOutWrite_noEdge hr] at h
    cases h; exact .inl ⟨hr, rfl⟩

/-- An SPI_OUT write raises only what its latch raises. -/
theorem spiOutWrite_raised {s : State} {v : Byte} {x : Raise} {tr : List Event} (h : spiOutWrite v s = .raised x tr) :
    sdLatch s.cfg (shiftedSpi s v).shiftIn s.card = .raised x tr := by
  by_cases hr : risesSelected s v
  · rw [spiOutWrite_edge hr] at h
    split at h
    · rw [byteComplete_eq] at h
      cases hk : sdLatch s.cfg (shiftedSpi s v).shiftIn s.card with
      | done k =>
        have : sdLatch s.cfg (shiftedSpi s v).shiftIn (State.card { s with spi := shiftedSpi s v }) = .done k := hk
        simp only [] at h
        rw [this] at h
        cases h
      | raised x' tr' =>
        have : sdLatch s.cfg (shiftedSpi s v).shiftIn (State.card { s with spi := shiftedSpi s v }) = .raised x' tr' := hk
        simp only [] at h
        rw [this] at h
        cases h; rfl
    · cases h
  · rw [spiOutWrite_noEdge hr] at h
    cases h

/-- Everything a bus read can complete with. -/
theorem memRead_done {s u : State} {address : Addr} {n : Width} {y : Reply} (h : memRead address n s = .done (u, y)) :
    u = s ∨ u = emit s (.logBusError (maskAddr s.cfg address) n .read) ∨
      (n = .byte ∧ classify s.cfg (maskAddr s.cfg address).toNat = .io ∧
        ∃ b, ioRead (maskAddr s.cfg address) s = .done (u, b)) := by
  unfold memRead at h
  obtain ⟨a, -, h⟩ := res_bind_eq_done.mp h
  unfold readAdmitted at h
  split at h
  · next hc =>
    unfold readIo at h
    split at h
    · next hn =>
      obtain ⟨p, hp, e⟩ := res_map_eq_done.mp h
      cases e
      exact .inr (.inr ⟨hn, hc, p.2, hp⟩)
    · cases h
  · cases h; exact .inr (.inl rfl)
  all_goals cases h; exact .inl rfl

/-- Everything a bus write can complete with. -/
theorem memWrite_done {s u : State} {address : Addr} {n : Width} {v : BitVec 32} {y : Reply}
    (h : memWrite address n v s = .done (u, y)) :
    (lies s.cfg (maskAddr s.cfg address) n .ram ∧ u = { s with
      ram := Memory.writeRange s.ram ((maskAddr s.cfg address).toNat - s.cfg.ramBase.toNat) (beBytes n.bytes v)
      trace := s.trace ++ [.breakpointWrite (maskAddr s.cfg address)] }) ∨
    (lies s.cfg (maskAddr s.cfg address) n .exp ∧ u = { s with
      exp := storeExp s.cfg s.expBank s.exp (maskAddr s.cfg address).toNat (beBytes n.bytes v)
      trace := s.trace ++ [.breakpointWrite (maskAddr s.cfg address)] }) ∨
    (∃ events, u = { s with trace := s.trace ++ events }) ∨
    (n = .byte ∧ classify s.cfg (maskAddr s.cfg address).toNat = .io ∧
      ioWrite (maskAddr s.cfg address) (v.setWidth 8) s = .done u) := by
  unfold memWrite at h
  obtain ⟨a, ha, h⟩ := res_bind_eq_done.mp h
  have hl : ∀ r, classify s.cfg (maskAddr s.cfg address).toNat = r → lies s.cfg (maskAddr s.cfg address) n r := by
    intro r hc
    rcases checkAccess_cases s (maskAddr s.cfg address) n .write with ⟨-, h1, h2⟩ | ⟨x, tr, h1, -⟩
    · refine ⟨misaligned_eq_false.mp h1, fun i hi => ?_⟩
      obtain ⟨b1, b2, b3⟩ := straddles_eq_false.mp h2 i hi
      exact ⟨b1, b2, by rw [b3, hc]⟩
    · rw [h1] at ha; cases ha
  unfold writeAdmitted at h
  split at h
  · next hc =>
    unfold writeIo at h
    split at h
    · next hn =>
      obtain ⟨p, hp, e⟩ := res_map_eq_done.mp h
      cases e
      exact .inr (.inr (.inr ⟨hn, hc, hp⟩))
    · cases h
  · cases h; exact .inr (.inr (.inl ⟨[_], rfl⟩))
  · cases h; exact .inr (.inr (.inl ⟨_, by simp only [emit, List.append_assoc]; rfl⟩))
  · next hc =>
    cases h
    refine .inl ⟨hl _ hc, ?_⟩
    rw [setRegionBytes_ram _ _ _ (by simpa using (classify_ram hc).1)]
    rfl
  · next hc =>
    cases h
    refine .inr (.inl ⟨hl _ hc, ?_⟩)
    rw [setRegionBytes_exp]
    rfl

/-- A byte read in the I/O window is the operation of its register's row (log 10). -/
theorem operation_byteRead {s : State} {address : Addr} (h : classify s.cfg (maskAddr s.cfg address).toNat = .io) :
    operation (.readByte address) s = operation (decodeByteRead s.cfg address) s := by
  have hs := straddles_byte s.cfg address
  have e : operation (.readByte address) s = readReply (ioRead (maskAddr s.cfg address) s) := by
    simp [operation, memRead, checkAccess_done .read (misaligned_byte _) hs, readAdmitted, h, readIo, readReply]
  rw [e]
  have hi : ∀ i, readRow s.cfg (maskAddr s.cfg address) = .expBank i →
      bankIndex s.cfg (maskAddr s.cfg address) = some i := by
    intro i hr
    unfold readRow at hr
    repeat (split at hr; · cases hr)
    split at hr
    · next hb => cases hr; exact hb
    · repeat (split at hr; · cases hr)
      cases hr
  unfold ioRead decodeByteRead
  rw [if_pos h]
  cases hr : readRow s.cfg (maskAddr s.cfg address) with
  | expBank i => simp only [operation, hi i hr]
  | _ => rfl

/-- A byte write in the I/O window is the operation of its register's row (log 10). -/
theorem operation_byteWrite {s : State} {address : Addr} (v : Byte)
    (h : classify s.cfg (maskAddr s.cfg address).toNat = .io) :
    operation (.writeByte address v) s = operation (decodeByteWrite s.cfg address v) s := by
  have hs := straddles_byte s.cfg address
  have ev : (v.setWidth 32).setWidth 8 = v := by
    apply BitVec.eq_of_toNat_eq
    simp
  have e : operation (.writeByte address v) s = writeReply (ioWrite (maskAddr s.cfg address) v s) := by
    simp [operation, memWrite, checkAccess_done .write (misaligned_byte _) hs, writeAdmitted, h, writeIo, writeReply, ev]
  rw [e]
  have hi : ∀ i, writeRow s.cfg (maskAddr s.cfg address) = .expBank i →
      bankIndex s.cfg (maskAddr s.cfg address) = some i := by
    intro i hr
    unfold writeRow at hr
    repeat (split at hr; · cases hr)
    split at hr
    · next hb => cases hr; exact hb
    · repeat (split at hr; · cases hr)
      cases hr
  unfold ioWrite decodeByteWrite
  rw [if_pos h]
  cases hr : writeRow s.cfg (maskAddr s.cfg address) with
  | expBank i => simp only [operation, hi i hr]
  | _ => rfl

/-- The events of a trace only grow at its end. -/
abbrev Grows (old new : List Event) : Prop := ∃ events, new = old ++ events

theorem grows_refl (l : List Event) : Grows l l := ⟨[], by simp⟩

theorem grows_append (l m : List Event) : Grows l (l ++ m) := ⟨m, rfl⟩

theorem grows_trans {l m n : List Event} (h1 : Grows l m) (h2 : Grows m n) : Grows l n := by
  obtain ⟨a, rfl⟩ := h1
  obtain ⟨b, rfl⟩ := h2
  exact ⟨a ++ b, by simp⟩

/-- A raise of an operation that started with trace `old`: the trace only grew, and the outcome is one that the spec
lists (60_exceptions.md R270, R271). -/
structure RaisedFrom (old : List Event) (x : Raise) (tr : List Event) : Prop where
  grows : Grows old tr
  listed : x.code.isSome = true

/-- What a latch may raise: the block length of a CMD16, or a write past the image (44_sd_commands.md R223,
45_sd_data_phase.md R255). -/
theorem latchBody_raised {c : Cfg} {k : Card} {b : Byte} {test : Card → Res Card} {x : Raise} {tr : List Event}
    (ht : ∀ x tr, test k = .raised x tr → RaisedFrom k.trace x tr) (h : latchBody c b test k = .raised x tr) :
    RaisedFrom k.trace x tr := by
  unfold latchBody at h
  split at h
  · cases h
  · unfold receiveByte at h
    simp only [] at h
    split at h
    · unfold completeWrite at h
      generalize hd : Card.diskWrite c _ _ _ = r at h
      cases r with
      | done p => cases h
      | raised x' tr' =>
        cases h
        rcases card_diskWrite_cases c
          { k with sd := { k.sd with inBuf := k.sd.inBuf ++ [b], inCount := k.sd.inCount + 1 } }
          (blockOffset c k.sd.blockSize k.sd.wrBlock) ((k.sd.inBuf ++ [b]).take k.sd.blockSize.toNat) with
          ⟨k', e, -⟩ | ⟨k', e, -⟩ | e
        · rw [e] at hd; cases hd
        · rw [e] at hd; cases hd
        · rw [e] at hd; cases hd; exact ⟨grows_refl _, rfl⟩
    · cases h
  · split at h
    · cases h
    · generalize hd : test k = r at h
      cases r with
      | done p => cases h
      | raised x' tr' => cases h; exact ht _ _ hd

/-- CMD16 raises, if at all, the block length, with the trace it started from. -/
theorem ruleCmd16_raised {c : Cfg} {g : BitVec 32} {k : Card} {x : Raise} {tr : List Event}
    (h : recognized (ruleCmd16 c g) k = .raised x tr) : RaisedFrom k.trace x tr := by
  unfold recognized ruleCmd16 at h
  simp only [] at h
  split at h
  · cases h; exact ⟨grows_refl _, rfl⟩
  · cases h

theorem dispatch_raised {c : Cfg} {k : Card} {x : Raise} {tr : List Event} (h : dispatch c k = .raised x tr) :
    RaisedFrom k.trace x tr := by
  unfold dispatch at h
  simp only [] at h
  split at h
  case h_8 => exact ruleCmd16_raised h
  all_goals cases h

theorem sdLatch_raised {c : Cfg} {k : Card} {b : Byte} {x : Raise} {tr : List Event}
    (h : sdLatch c b k = .raised x tr) : RaisedFrom k.trace x tr := by
  suffices hl : RaisedFrom (k.shift b).trace x tr from ⟨grows_trans (grows_append _ _) hl.grows, hl.listed⟩
  refine latchBody_raised (fun x tr ht => ?_) h
  unfold frameTest at ht
  split at ht
  · exact dispatch_raised ht
  · cases ht

theorem cardTest_raised {c : Cfg} {i : Instr} {k : Card} {x : Raise} {tr : List Event}
    (h : cardTest c i k = .raised x tr) : RaisedFrom k.trace x tr := by
  cases i with
  | cmd16 g r => exact ruleCmd16_raised h
  | _ => cases h

end Sys2Proof.Machine
end

