-- ==== Sys2Proof/Laws/Cases.lean ====
section
/-! SUPPORT. The case split of a completed instruction, and what every instruction keeps. -/

namespace Sys2Proof.Machine

/-- No operation changes the configuration, the ROM, a mark or the script (00_scope.md R6, 20_memory.md R88). -/
structure Kept (s u : State) : Prop where
  cfg : u.cfg = s.cfg
  rom : u.rom = s.rom
  fault : u.fault = s.fault
  refused : u.refused = s.refused
  calls : u.calls = s.calls

theorem kept_refl (s : State) : Kept s s := ⟨rfl, rfl, rfl, rfl, rfl⟩

theorem spiOutWrite_kept {s u : State} {v : Byte} (h : spiOutWrite v s = .done u) : Kept s u := by
  rcases spiOutWrite_done h with ⟨-, rfl⟩ | ⟨-, -, rfl⟩ | ⟨-, -, k, -, rfl⟩ <;> exact ⟨rfl, rfl, rfl, rfl, rfl⟩

theorem duartDataRead_kept {s : State} {p : State × Byte} (h : duartDataRead s = .done p) : Kept s p.1 := by
  unfold duartDataRead at h
  split at h
  · cases h
  · cases h; exact ⟨rfl, rfl, rfl, rfl, rfl⟩

theorem acknowledge_kept (l : BitVec 32) (s : State) : Kept s (acknowledge l s).1 := by
  unfold acknowledge
  split
  · exact ⟨rfl, rfl, rfl, rfl, rfl⟩
  · split <;> exact ⟨rfl, rfl, rfl, rfl, rfl⟩

/-- The rows of the I/O registers, as operations. -/
def isRegisterRow : Instr → Bool
  | .readByte _ => false
  | .readWord _ => false
  | .readLong _ => false
  | .writeByte _ _ => false
  | .writeWord _ _ => false
  | .writeLong _ _ => false
  | _ => true

theorem operation_kept_row {i : Instr} {s u : State} {y : Reply} (hi : isRegisterRow i = true)
    (h : operation i s = .done (u, y)) : Kept s u := by
  cases i with
  | readByte _ | readWord _ | readLong _ | writeByte _ _ | writeWord _ _ | writeLong _ _ => cases hi
  | duartDataRead a =>
    obtain ⟨p, hp, e⟩ := res_map_eq_done.mp h
    cases e; exact duartDataRead_kept hp
  | spiOutWrite a v =>
    obtain ⟨p, hp, e⟩ := res_map_eq_done.mp h
    cases e; exact spiOutWrite_kept hp
  | iack l => cases h; exact acknowledge_kept l s
  | expBankRead a =>
    obtain ⟨p, hp, e⟩ := res_map_eq_done.mp h
    cases e
    split at hp <;> cases hp <;> exact ⟨rfl, rfl, rfl, rfl, rfl⟩
  | expBankWrite a v =>
    obtain ⟨p, hp, e⟩ := res_map_eq_done.mp h
    cases e
    split at hp <;> cases hp <;> exact ⟨rfl, rfl, rfl, rfl, rfl⟩
  | hostIn _ | tick | setbank _ | duartStatusRead _ | duartDataWrite _ _ | duartImrWrite _ _ | duartOtherWrite _ _
  | duartOtherRead _ | usbCmdWrite _ _ | usbDataWrite _ _ | usbDataRead _ | usbCmdRead _ | spiOutRead _
  | spiInRead _ | spiInWrite _ _ | ioUnimplementedWrite _ _ | ioUnimplementedRead _ =>
    cases h; exact ⟨rfl, rfl, rfl, rfl, rfl⟩
  | _ =>
    obtain ⟨k, -, e⟩ := res_map_eq_done.mp h
    cases e; exact ⟨rfl, rfl, rfl, rfl, rfl⟩

theorem isRegisterRow_byteRead {c : Cfg} {address : Addr} (h : classify c (maskAddr c address).toNat = .io) :
    isRegisterRow (decodeByteRead c address) = true := by
  unfold decodeByteRead
  rw [if_pos h]
  split <;> rfl

theorem isRegisterRow_byteWrite {c : Cfg} {address : Addr} (v : Byte)
    (h : classify c (maskAddr c address).toNat = .io) : isRegisterRow (decodeByteWrite c address v) = true := by
  unfold decodeByteWrite
  rw [if_pos h]
  split <;> rfl

/-- What an instruction's operation can complete with: an access to memory or to nothing, or a register's, a host
event's or a card's own operation. -/
theorem operation_done_cases {i : Instr} {s u : State} {y : Reply} (h : operation i s = .done (u, y)) :
    (∃ events, u = { s with trace := s.trace ++ events }) ∨
    (∃ n address v, i = writeOf n address v ∧
      ((lies s.cfg (maskAddr s.cfg address) n .ram ∧ u = { s with
        ram := Memory.writeRange s.ram ((maskAddr s.cfg address).toNat - s.cfg.ramBase.toNat)
          (beBytes n.bytes (truncated n v))
        trace := s.trace ++ [.breakpointWrite (maskAddr s.cfg address)] }) ∨
      (lies s.cfg (maskAddr s.cfg address) n .exp ∧ u = { s with
        exp := storeExp s.cfg s.expBank s.exp (maskAddr s.cfg address).toNat (beBytes n.bytes (truncated n v))
        trace := s.trace ++ [.breakpointWrite (maskAddr s.cfg address)] }))) ∨
    ∃ j, isRegisterRow j = true ∧ operation j s = .done (u, y) ∧
      (j = i ∨ (∃ address, i = .readByte address ∧ j = decodeByteRead s.cfg address ∧
        classify s.cfg (maskAddr s.cfg address).toNat = .io) ∨
        ∃ address v, i = .writeByte address v ∧ j = decodeByteWrite s.cfg address v ∧
          classify s.cfg (maskAddr s.cfg address).toNat = .io) := by
  cases hi : isRegisterRow i with
  | true => exact .inr (.inr ⟨i, hi, h, .inl rfl⟩)
  | false =>
    cases i with
    | readByte a =>
      rcases memRead_done h with rfl | rfl | ⟨-, hc, b, hb⟩
      · exact .inl ⟨[], by simp⟩
      · exact .inl ⟨_, rfl⟩
      · exact .inr (.inr ⟨_, isRegisterRow_byteRead hc, by rw [← operation_byteRead hc]; exact h,
          .inr (.inl ⟨a, rfl, rfl, hc⟩)⟩)
    | readWord a =>
      rcases memRead_done h with rfl | rfl | ⟨hn, -⟩
      · exact .inl ⟨[], by simp⟩
      · exact .inl ⟨_, rfl⟩
      · cases hn
    | readLong a =>
      rcases memRead_done h with rfl | rfl | ⟨hn, -⟩
      · exact .inl ⟨[], by simp⟩
      · exact .inl ⟨_, rfl⟩
      · cases hn
    | writeByte a v =>
      have e : Instr.writeByte a v = writeOf .byte a (v.setWidth 32) := by simp [writeOf]
      have h' := h
      rw [e, operation_writeOf] at h'
      rcases memWrite_done h' with h1 | h1 | h1 | ⟨-, hc, -⟩
      · exact .inr (.inl ⟨_, _, _, e, .inl h1⟩)
      · exact .inr (.inl ⟨_, _, _, e, .inr h1⟩)
      · exact .inl h1
      · exact .inr (.inr ⟨_, isRegisterRow_byteWrite v hc, by rw [← operation_byteWrite v hc]; exact h,
          .inr (.inr ⟨a, v, rfl, rfl, hc⟩)⟩)
    | writeWord a v =>
      have e : Instr.writeWord a v = writeOf .word a (v.setWidth 32) := by simp [writeOf]
      rw [e, operation_writeOf] at h
      rcases memWrite_done h with h1 | h1 | h1 | ⟨hn, -⟩
      · exact .inr (.inl ⟨_, _, _, e, .inl h1⟩)
      · exact .inr (.inl ⟨_, _, _, e, .inr h1⟩)
      · exact .inl h1
      · cases hn
    | writeLong a v =>
      have e : Instr.writeLong a v = writeOf .long a v := rfl
      rw [e, operation_writeOf] at h
      rcases memWrite_done h with h1 | h1 | h1 | ⟨hn, -⟩
      · exact .inr (.inl ⟨_, _, _, e, .inl h1⟩)
      · exact .inr (.inl ⟨_, _, _, e, .inr h1⟩)
      · exact .inl h1
      · cases hn
    | _ => cases hi

/-- No operation changes the configuration, the ROM, a mark or the script. -/
theorem operation_kept {i : Instr} {s u : State} {y : Reply} (h : operation i s = .done (u, y)) : Kept s u := by
  rcases operation_done_cases h with ⟨ev, rfl⟩ | ⟨n, a, v, -, ⟨-, rfl⟩ | ⟨-, rfl⟩⟩ | ⟨j, hj, h, -⟩
  · exact ⟨rfl, rfl, rfl, rfl, rfl⟩
  · exact ⟨rfl, rfl, rfl, rfl, rfl⟩
  · exact ⟨rfl, rfl, rfl, rfl, rfl⟩
  · exact operation_kept_row hj h

/-- A register's operation that raises has only added to the trace, and the spec lists what it raises. -/
theorem operation_raised_row {j : Instr} {s : State} {x : Raise} {tr : List Event} (hj : isRegisterRow j = true)
    (h : operation j s = .raised x tr) : RaisedFrom s.trace x tr := by
  have hmap : ∀ {α β : Type} {r : Res α} {f : α → β}, r.map f = .raised x tr → r = .raised x tr := by
    intro α β r f hr; cases r <;> cases hr; rfl
  by_cases hs : j.isSdRow = true
  · rw [operation_sdRow hs] at h
    exact latchBody_raised (fun x tr => cardTest_raised) (hmap h)
  · cases j with
    | readByte _ | readWord _ | readLong _ | writeByte _ _ | writeWord _ _ | writeLong _ _ => cases hj
    | duartDataRead a =>
      have h1 := hmap h
      unfold duartDataRead at h1
      split at h1 <;> cases h1
      exact ⟨grows_refl _, rfl⟩
    | spiOutWrite a v => exact sdLatch_raised (spiOutWrite_raised (hmap h))
    | expBankRead a => have h1 := hmap h; split at h1 <;> cases h1
    | expBankWrite a v => have h1 := hmap h; split at h1 <;> cases h1
    | iack _ | hostIn _ | tick | setbank _ | duartStatusRead _ | duartDataWrite _ _ | duartImrWrite _ _
    | duartOtherWrite _ _ | duartOtherRead _ | usbCmdWrite _ _ | usbDataWrite _ _ | usbDataRead _ | usbCmdRead _
    | spiOutRead _ | spiInRead _ | spiInWrite _ _ | ioUnimplementedWrite _ _ | ioUnimplementedRead _ => cases h
    | _ => exact absurd rfl hs

theorem memRead_raised {s : State} {address : Addr} {n : Width} {x : Raise} {tr : List Event}
    (h : memRead address n s = .raised x tr) : RaisedFrom s.trace x tr := by
  rcases checkAccess_cases s (maskAddr s.cfg address) n .read with ⟨ha, h1, h2⟩ | ⟨x', tr', ha, hx, ht⟩
  · have h' := h
    simp only [memRead, ha, res_bind_done, readAdmitted] at h
    split at h
    · next hc =>
      by_cases hn : n = .byte
      · subst hn
        have e : operation (.readByte address) s = .raised x tr := h'
        rw [operation_byteRead hc] at e
        exact operation_raised_row (isRegisterRow_byteRead hc) e
      · simp only [readIo, if_neg hn] at h
        cases h; exact ⟨grows_refl _, rfl⟩
    all_goals cases h
  · simp only [memRead, ha, res_bind_raised] at h
    cases h
    rcases ht with rfl | rfl
    · exact ⟨grows_refl _, hx⟩
    · exact ⟨grows_append _ _, hx⟩

theorem memWrite_raised {s : State} {address : Addr} {n : Width} {v : BitVec 32} {x : Raise} {tr : List Event}
    (h : memWrite address n (truncated n v) s = .raised x tr) : RaisedFrom s.trace x tr := by
  rcases checkAccess_cases s (maskAddr s.cfg address) n .write with ⟨ha, h1, h2⟩ | ⟨x', tr', ha, hx, ht⟩
  · have h' := h
    simp only [memWrite, ha, res_bind_done, writeAdmitted] at h
    split at h
    · next hc =>
      by_cases hn : n = .byte
      · subst hn
        have e : operation (writeOf .byte address v) s = .raised x tr := by rw [operation_writeOf]; exact h'
        rw [writeOf, operation_byteWrite _ hc] at e
        exact operation_raised_row (isRegisterRow_byteWrite _ hc) e
      · simp only [writeIo, if_neg hn] at h
        cases h; exact ⟨grows_refl _, rfl⟩
    all_goals cases h
  · simp only [memWrite, ha, res_bind_raised] at h
    cases h
    rcases ht with rfl | rfl
    · exact ⟨grows_refl _, hx⟩
    · exact ⟨grows_append _ _, hx⟩

/-- An operation that raises has only added to the trace (60_exceptions.md R271), and the spec lists what it raises
(R270). -/
theorem operation_raised {i : Instr} {s : State} {x : Raise} {tr : List Event} (h : operation i s = .raised x tr) :
    RaisedFrom s.trace x tr := by
  cases i with
  | readByte a => exact memRead_raised h
  | readWord a => exact memRead_raised h
  | readLong a => exact memRead_raised h
  | writeByte a v =>
    have e : Instr.writeByte a v = writeOf .byte a (v.setWidth 32) := by simp [writeOf]
    rw [e, operation_writeOf] at h
    exact memWrite_raised h
  | writeWord a v =>
    have e : Instr.writeWord a v = writeOf .word a (v.setWidth 32) := by simp [writeOf]
    rw [e, operation_writeOf] at h
    exact memWrite_raised h
  | writeLong a v =>
    have e : Instr.writeLong a v = writeOf .long a v := rfl
    rw [e, operation_writeOf] at h
    exact memWrite_raised h
  | _ => exact operation_raised_row rfl h

end Sys2Proof.Machine
end

