-- ==== Sys2Proof/Laws/Encoding.lean ====
section
/-! SUPPORT. The fields of an encoded frame, and the row that each dispatch key belongs to. -/

namespace Sys2Proof

theorem frameOf_b0 : ∀ i : BitVec 6, ((0b01 : BitVec 2) ++ i : BitVec 8).extractLsb' 0 6 = i := by decide

/-- An encoded frame is valid (30_encoding.md R108, R109). -/
@[simp] theorem frameOf_valid (i : BitVec 6) (g : BitVec 32) (c : BitVec 7) : (frameOf i g c).valid = true := by
  have h1 : ∀ i : BitVec 6, ((0b01 : BitVec 2) ++ i : BitVec 8) &&& 0xC0 = 0x40 := by decide
  have h2 : ∀ c : BitVec 7, (c ++ (0b1 : BitVec 1) : BitVec 8) &&& 0x01 = 0x01 := by decide
  simp only [Window.valid, frameOf, Bool.and_eq_true]
  exact ⟨decide_eq_true (h1 i), decide_eq_true (h2 c)⟩

/-- The index read back (30_encoding.md R110). -/
@[simp] theorem frameOf_index (i : BitVec 6) (g : BitVec 32) (c : BitVec 7) : (frameOf i g c).index = i :=
  frameOf_b0 i

/-- The argument read back (30_encoding.md R110). -/
@[simp] theorem frameOf_argument (i : BitVec 6) (g : BitVec 32) (c : BitVec 7) : (frameOf i g c).argument = g := by
  apply BitVec.eq_of_getLsbD_eq
  intro k hk
  simp only [Window.argument, frameOf, BitVec.getLsbD_append, BitVec.getLsbD_extractLsb']
  by_cases h1 : k < 8
  · simp [h1]
  · by_cases h2 : k - 8 < 8
    · simp [h1, h2, show 8 + (k - 8) = k by omega]
    · by_cases h3 : k - 8 - 8 < 8
      · simp [h1, h2, h3, show 16 + (k - 8 - 8) = k by omega]
      · simp [h1, h2, h3, show k - 8 - 8 - 8 < 8 by omega, show 24 + (k - 8 - 8 - 8) = k by omega]

/-- The CRC field read back (30_encoding.md R108). -/
@[simp] theorem frameOf_crc (i : BitVec 6) (g : BitVec 32) (c : BitVec 7) : (frameOf i g c).crc = c := by
  have h : ∀ c : BitVec 7, (c ++ (0b1 : BitVec 1) : BitVec 8).extractLsb' 1 7 = c := by decide
  exact h c

/-- A valid frame is the encoding of its own fields: no bit is dropped (30_encoding.md R108, R110). -/
theorem frameOf_fields {f : Window} (h : f.valid = true) : frameOf f.index f.argument f.crc = f := by
  have h1 : ∀ b : BitVec 8, b &&& 0xC0 = 0x40 → ((0b01 : BitVec 2) ++ b.extractLsb' 0 6 : BitVec 8) = b := by decide
  have h2 : ∀ b : BitVec 8, b &&& 0x01 = 0x01 → (b.extractLsb' 1 7 ++ (0b1 : BitVec 1) : BitVec 8) = b := by decide
  simp only [Window.valid, Bool.and_eq_true, decide_eq_true_eq] at h
  obtain ⟨b0, b1, b2, b3, b4, b5⟩ := f
  have e : ∀ k, (b1 ++ b2 ++ b3 ++ b4 : BitVec 32).getLsbD k =
      if k < 8 then b4.getLsbD k else if k - 8 < 8 then b3.getLsbD (k - 8)
      else if k - 8 - 8 < 8 then b2.getLsbD (k - 8 - 8) else b1.getLsbD (k - 8 - 8 - 8) := by
    intro k
    simp only [BitVec.getLsbD_append]
  simp only [frameOf, Window.index, Window.argument, Window.crc, Window.mk.injEq]
  refine ⟨h1 b0 h.1, ?_, ?_, ?_, ?_, h2 b5 h.2⟩ <;>
  · apply BitVec.eq_of_getLsbD_eq
    intro k hk
    rw [BitVec.getLsbD_extractLsb', e]
    simp only [hk, decide_true, Bool.true_and]
    repeat' split
    all_goals first
      | omega
      | (congr 1; omega)

end Sys2Proof
end

