-- ==== Sys2Proof/Tests/Slice0.lean ====
section
/-! SUPPORT. Tests. The expected values are those of 95_test_vectors.md and of the examples in the rules; each test
names its vector or its rule. -/

namespace Sys2Proof.Tests

open Sys2Proof.Machine

/-! ## Well-formedness: one term for each check, which the check refuses -/

/-- EX with the expansion base register at 0x00F00100 (95_test_vectors.md V-EXP-8). -/
def bankCfg : Cfg := { exampleCfg with expBankAddr := some 0x00F00100 }

theorem test_wf_refuses_bytes_of_registers :
    Instr.wellFormed exampleCfg false (.readByte 0x00F00003) = false ∧
      Instr.wellFormed exampleCfg false (.writeByte 0x00F00003 0) = false := by decide

theorem test_wf_refuses_wrong_duart_rows :
    Instr.wellFormed exampleCfg false (.duartStatusRead 0x00F00007) = false ∧
      Instr.wellFormed exampleCfg false (.duartDataRead 0x00F00003) = false ∧
      Instr.wellFormed exampleCfg false (.duartDataWrite 0x00F00003 0) = false ∧
      Instr.wellFormed exampleCfg false (.duartImrWrite 0x00F00007 0) = false ∧
      Instr.wellFormed exampleCfg false (.duartOtherWrite 0x00F00007 0) = false ∧
      Instr.wellFormed exampleCfg false (.duartOtherRead 0x00F00003) = false := by decide

theorem test_wf_refuses_wrong_usb_rows :
    Instr.wellFormed exampleCfg false (.usbCmdWrite 0x00F00041 0) = false ∧
      Instr.wellFormed exampleCfg false (.usbDataWrite 0x00F00043 0) = false ∧
      Instr.wellFormed exampleCfg false (.usbDataRead 0x00F00043) = false ∧
      Instr.wellFormed exampleCfg false (.usbCmdRead 0x00F00041) = false := by decide

theorem test_wf_refuses_wrong_spi_rows :
    Instr.wellFormed exampleCfg false (.spiOutWrite 0x00F00083 0) = false ∧
      Instr.wellFormed exampleCfg false (.spiOutRead 0x00F00083) = false ∧
      Instr.wellFormed exampleCfg false (.spiInRead 0x00F00081) = false ∧
      Instr.wellFormed exampleCfg false (.spiInWrite 0x00F00081 0) = false := by decide

theorem test_wf_refuses_bank_rows_past_the_register :
    Instr.wellFormed bankCfg false (.expBankWrite 0x00F00104 0) = false ∧
      Instr.wellFormed bankCfg false (.expBankRead 0x00F000FF) = false ∧
      Instr.wellFormed exampleCfg false (.expBankRead 0x00F00100) = false := by decide

theorem test_wf_refuses_unimplemented_rows_of_registers :
    Instr.wellFormed exampleCfg false (.ioUnimplementedWrite 0x00F00081 0) = false ∧
      Instr.wellFormed exampleCfg false (.ioUnimplementedRead 0x00200000) = false := by decide

theorem test_wf_refuses_wrong_commands :
    Instr.wellFormed exampleCfg false (.acmd41 0 0) = false ∧ Instr.wellFormed exampleCfg true (.cmd41 0 0) = false ∧
      Instr.wellFormed exampleCfg false (.cmdUnrecognized 17 0 0) = false := by decide

/-! ## Decoding: each row's word, written out from its encoding (30_encoding.md R100, R102, R108, R111). A bus word has
its code in bits 7..0, its address in bits 39..8 and its value in bits 71..40 (log 4). -/

theorem test_decode_bus_reads :
    decodeTableWord 72 0x0000200000 = some (.readByte 0x00002000) ∧
      decodeTableWord 72 0x0000100001 = some (.readWord 0x00001000) ∧
      decodeTableWord 72 0x00FC000002 = some (.readLong 0x00FC0000) := by decide

theorem test_decode_bus_writes :
    decodeTableWord 72 0x5A000FFFFF40 = some (.writeByte 0x000FFFFF 0x5A) ∧
      decodeTableWord 72 0x12340020000041 = some (.writeWord 0x00200000 0x1234) ∧
      decodeTableWord 72 0x112233440000200042 = some (.writeLong 0x00002000 0x11223344) := by decide

theorem test_decode_host_events :
    decodeTableWord 72 0x00000004_00000000_80 = some (.iack 4) ∧ decodeTableWord 72 0x41_00000000_C0 = some (.hostIn 0x41) ∧
      decodeTableWord 8 0xC4 = some .tick ∧ decodeTableWord 72 0x000FFFFF_00000000_C8 = some (.setbank 0x000FFFFF) := by
  decide

theorem test_decode_duart_rows :
    decodeTableWord 72 0x00F0000300 = some (.duartStatusRead 0x00F00003) ∧
      decodeTableWord 72 0x00F0000700 = some (.duartDataRead 0x00F00007) ∧
      decodeTableWord 72 0x48_00F00007_40 = some (.duartDataWrite 0x00F00007 0x48) ∧
      decodeTableWord 72 0x01_00F0000B_40 = some (.duartImrWrite 0x00F0000B 0x01) ∧
      decodeTableWord 72 0x13_00F00001_40 = some (.duartOtherWrite 0x00F00001 0x13) ∧
      decodeTableWord 72 0x00F0000B00 = some (.duartOtherRead 0x00F0000B) := by decide

theorem test_decode_usb_rows :
    decodeTableWord 72 0x01_00F00043_40 = some (.usbCmdWrite 0x00F00043 0x01) ∧
      decodeTableWord 72 0x22_00F00041_40 = some (.usbDataWrite 0x00F00041 0x22) ∧
      decodeTableWord 72 0x00F0004100 = some (.usbDataRead 0x00F00041) ∧
      decodeTableWord 72 0x00F0004300 = some (.usbCmdRead 0x00F00043) := by decide

theorem test_decode_spi_rows :
    decodeTableWord 72 0x03_00F00081_40 = some (.spiOutWrite 0x00F00081 0x03) ∧
      decodeTableWord 72 0x00F0008100 = some (.spiOutRead 0x00F00081) ∧
      decodeTableWord 72 0x00F0008300 = some (.spiInRead 0x00F00083) ∧
      decodeTableWord 72 0x55_00F00083_40 = some (.spiInWrite 0x00F00083 0x55) := by decide

theorem test_decode_bank_rows :
    (decode bankCfg false (.call ⟨0x40, 0x00F00103, 0x10⟩)).toOption = some (.expBankWrite 0x00F00103 0x10) ∧
      (decode bankCfg false (.call ⟨0x00, 0x00F00100, 0⟩)).toOption = some (.expBankRead 0x00F00100) := by decide

theorem test_decode_unimplemented_rows :
    decodeTableWord 72 0x99_00F00200_40 = some (.ioUnimplementedWrite 0x00F00200 0x99) ∧
      decodeTableWord 72 0x00F0020000 = some (.ioUnimplementedRead 0x00F00200) := by decide

theorem test_decode_reserved : decodeTableWord 8 0x03 = none ∧ decodeTableWord 8 0xCC = none := by decide

theorem test_decode_session_commands :
    decodeTableWord 48 0x400000000095 = some (.cmd0 0 0x4A) ∧ decodeTableWord 48 0x4100000000F9 = some (.cmd1 0 0x7C) ∧
      decodeTableWord 48 0x48000001AA87 = some (.cmd8 0x000001AA 0x43) ∧
      decodeTableWord 48 0x490000000001 = some (.cmd9 0 0) ∧ decodeTableWord 48 0x4A0000000001 = some (.cmd10 0 0) ∧
      decodeTableWord 48 0x4C0000000061 = some (.cmd12 0 0x30) ∧ decodeTableWord 48 0x4D0000000001 = some (.cmd13 0 0) := by
  decide

theorem test_decode_data_commands :
    decodeTableWord 48 0x500000020001 = some (.cmd16 0x00000200 0) ∧
      decodeTableWord 48 0x511234567801 = some (.cmd17 0x12345678 0) ∧
      decodeTableWord 48 0x520000000501 = some (.cmd18 5 0) ∧ decodeTableWord 48 0x580000000101 = some (.cmd24 1 0) := by
  decide

theorem test_decode_application_commands :
    (decode exampleCfg true (.frame ⟨0x69, 0x40, 0x00, 0x00, 0x00, 0x77⟩)).toOption = some (.acmd41 0x40000000 0x3B) ∧
      decodeTableWord 48 0x694000000077 = some (.cmd41 0x40000000 0x3B) ∧
      decodeTableWord 48 0x770000000065 = some (.cmd55 0 0x32) := by decide

theorem test_decode_other_commands :
    decodeTableWord 48 0x7A00000000FD = some (.cmd58 0 0x7E) ∧ decodeTableWord 48 0x7B0000000183 = some (.cmd59 1 0x41) ∧
      decodeTableWord 48 0x42000000004D = some (.cmdUnrecognized 2 0 0x26) ∧
      decodeTableWord 48 0x7FFFFFFFFFFF = some (.cmdUnrecognized 63 0xFFFFFFFF 0x7F) := by decide

/-- V-FR-3, V-FR-4. -/
theorem test_decode_invalid_frames :
    decodeTableWord 48 0x400000000094 = none ∧ decodeTableWord 48 0xC00000000001 = none ∧
      decodeTableWord 48 0x000000000001 = none := by decide

/-! ## One instruction at a time -/

/-- The value of `f` in the next state. -/
def after {α : Type} (i : Instr) (s : State) (f : State → α) : Option α := (nextState (exec i s)).map f

/-- The reset state with `bytes` written to RAM from `off` on. -/
def withRam (off : Nat) (bytes : List Byte) : State := { State.reset with ram := Memory.writeRange [] off bytes }

/-- V-MEM-2. -/
theorem test_readByte :
    after (.readByte 0x00002003) (withRam 0x2000 [0x11, 0x22, 0x33, 0x44]) (·.reply) = some (.okValue 0x44) := by
  decide

theorem test_readWord :
    after (.readWord 0x00002002) (withRam 0x2000 [0x11, 0x22, 0x33, 0x44]) (·.reply) = some (.okValue 0x3344) := by
  decide

/-- V-MEM-9. -/
theorem test_readLong : after (.readLong 0x00FC0004) State.reset (·.reply) = some (.okValue 0x00FC0008) := by decide

/-- V-MEM-3: the last byte of RAM. -/
theorem test_writeByte : after (.writeByte 0x000FFFFF 0x5A) State.reset (fun t => (t.ram, t.reply)) =
    some ([(0xFFFFF, 0x5A)], .ok) := by decide

/-- V-EXP-3: the word wraps inside the window. -/
theorem test_writeWord : after (.writeWord 0x00100000 0xCAFE) { State.reset with expBank := 0x000FFFFF } (·.exp) =
    some [(0, 0xFE), (0xFFFFF, 0xCA)] := by decide

/-- V-MEM-1. -/
theorem test_writeLong : after (.writeLong 0x00002000 0x11223344) State.reset (fun t => (t.ram, t.trace)) =
    some ([(0x2000, 0x11), (0x2001, 0x22), (0x2002, 0x33), (0x2003, 0x44)], [.breakpointWrite 0x2000]) := by decide

/-- V-MEM-7. -/
theorem test_readWord_misaligned : after (.readWord 0x00000001) State.reset (fun t => (t.fault, t.trace)) =
    some (some (.addressError 1 .word .read), [.logAddressError 1 .word .read]) := by decide

/-- V-MEM-14: the access runs past 2^32. -/
theorem test_readLong_wraps : after (.readLong 0xFFFFFFFE) State.reset (·.refused) =
    some (some (.straddle 0xFFFFFFFE .long)) := by decide

/-- V-MEM-23: a byte of the access is lost to the mask. -/
theorem test_readLong_masked :
    after (.readLong 0xFF00FFFE) { State.reset with cfg := { exampleCfg with addrMask := 0x0000FFFF } } (·.refused) =
      some (some (.straddle 0xFFFE .long)) := by decide

/-- V-MEM-8. -/
theorem test_writeByte_rom :
    after (.writeByte 0x00FC0000 0x55) State.reset (fun t => (decide (t.rom = State.reset.rom), t.trace)) =
    some (true, [.breakpointWrite 0x00FC0000, .logRomWrite 0x00FC0000 .byte 0x55]) := by decide

/-- V-MEM-12. -/
theorem test_writeWord_unmapped : after (.writeWord 0x00200000 0x1234) State.reset (fun t => (t.reply, t.trace)) =
    some (.okBusError, [.logBusError 0x00200000 .word .write]) := by decide

/-- V-INT-3: both sources pend, and the timer's level is acknowledged. -/
theorem test_iack : after (.iack 4) { State.reset with timerPending := true, usbPending := true }
    (fun t => (t.reply, t.timerPending, t.usbPending, ipl t)) = some (.okValue 0x1C, false, true, 3) := by decide

/-- V-INT-5: a level outside 1..7 is spurious. -/
theorem test_iack_spurious :
    after (.iack 8) { State.reset with timerPending := true } (fun t => (t.reply, t.timerPending)) =
    some (.okValue 0x18, true) := by decide

/-- 41_duart.md R167. -/
theorem test_hostIn :
    after (.hostIn 0x42) { State.reset with hostIn := [0x41] } (·.hostIn) = some [0x41, 0x42] := by decide

/-- V-DU-9: a tick of the disabled timer is lost. -/
theorem test_tick : after .tick State.reset (·.timerPending) = some true ∧
    after .tick { State.reset with timerEnabled := false } (·.timerPending) = some false := by decide

/-- V-EXP-2. -/
theorem test_setbank : after (.setbank 0x10) State.reset (·.expBank) = some 0x10 := by decide

/-- V-DU-1, V-DU-2. -/
theorem test_duartStatusRead : after (.duartStatusRead 0x00F00003) State.reset (·.reply) = some (.okValue 0x04) ∧
    after (.duartStatusRead 0x00F00003) { State.reset with hostIn := [0x41] } (·.reply) = some (.okValue 0x05) := by
  decide

/-- V-DU-3. -/
theorem test_duartDataRead : after (.duartDataRead 0x00F00007) { State.reset with hostIn := [0x41, 0x42] }
    (fun t => (t.reply, t.hostIn)) = some (.okValue 0x41, [0x42]) := by decide

/-- V-DU-4. -/
theorem test_duartDataRead_empty : after (.duartDataRead 0x00F00007) State.reset (·.fault) =
    some (some (.duartEmptyRead 0x00F00007)) := by decide

/-- V-DU-5. -/
theorem test_duartDataWrite :
    after (.duartDataWrite 0x00F00007 0x48) State.reset (·.trace) = some [.consoleOut 0x48] := by
  decide

/-- V-DU-10: a pending tick survives the disable. -/
theorem test_duartImrWrite : after (.duartImrWrite 0x00F0000B 0x00) { State.reset with timerPending := true }
    (fun t => (t.timerEnabled, t.timerPending)) = some (false, true) := by decide

/-- V-DU-11: a non-zero mask changes nothing under EX. -/
theorem test_duartImrWrite_nonzero : after (.duartImrWrite 0x00F0000B 0x01) { State.reset with timerEnabled := false }
    (·.timerEnabled) = some false := by decide

/-- V-DU-6. -/
theorem test_duartOtherWrite : after (.duartOtherWrite 0x00F00003 0x10) State.reset (·.trace) =
    some [.logUnimplemented 0x00F00003 .write 0x10] := by decide

/-- V-DU-8. -/
theorem test_duartOtherRead : after (.duartOtherRead 0x00F0000B) State.reset (fun t => (t.trace, t.draws)) =
    some ([.logUnimplemented 0x00F0000B .read 0], 1) := by decide

/-- V-USB-1. -/
theorem test_usbCmdWrite : after (.usbCmdWrite 0x00F00043 0x01) State.reset (fun t => (t.usb, t.usbPending, ipl t)) =
    some ([0x01], true, 3) := by decide

/-- V-USB-2. -/
theorem test_usbDataWrite :
    after (.usbDataWrite 0x00F00041 0x22) { State.reset with usb := [0x01], usbPending := true }
    (fun t => (t.usb, t.usbPending)) = some ([0x01, 0x22], true) := by decide

/-- V-USB-3. -/
theorem test_usbDataRead : after (.usbDataRead 0x00F00041) { State.reset with usb := [0x01, 0x22] }
    (fun t => (t.reply, t.usb)) = some (.okValue 0x01, [0x22]) := by decide

/-- V-USB-5. -/
theorem test_usbCmdRead :
    after (.usbCmdRead 0x00F00043) { State.reset with usb := [0x01] } (fun t => (t.usb, t.trace)) =
    some ([0x01], [.logUnimplemented 0x00F00043 .read 0]) := by decide

/-- V-SPI-4: one write selects and raises SCK. -/
theorem test_spiOutWrite :
    after (.spiOutWrite 0x00F00081 0x03) State.reset (fun t => (t.spi.csN, t.spi.shiftIn, t.spi.count)) =
    some (false, 0x01, 1) := by decide

/-- V-SPI-7: a deselect discards the bits held. -/
theorem test_spiOutWrite_deselects :
    after (.spiOutWrite 0x00F00081 0x06)
      { State.reset with spi := { Spi.reset with csN := false, sck := true, shiftIn := 0x07, count := 3 } } (·.spi) =
      some Spi.reset := by decide

/-- V-SPI-1. -/
theorem test_spiOutRead : after (.spiOutRead 0x00F00081) State.reset (·.reply) = some (.okValue 0x06) := by decide

/-- 43_spi_framer.md R195: bit 7 - spi_count of the byte going out. -/
theorem test_spiInRead :
    after (.spiInRead 0x00F00083) { State.reset with spi := { Spi.reset with csN := false, shiftOut := 0x01, count := 7 } }
      (·.reply) = some (.okValue 0x01) ∧
    after (.spiInRead 0x00F00083) { State.reset with spi := { Spi.reset with csN := false, shiftOut := 0x01 } }
      (·.reply) = some (.okValue 0x00) := by decide

/-- V-SPI-8. -/
theorem test_spiInWrite : after (.spiInWrite 0x00F00083 0x55) State.reset (·.trace) =
    some [.logUnimplemented 0x00F00083 .write 0x55] := by decide

/-- V-EXP-8: byte 3 is the least significant. -/
theorem test_expBankWrite : after (.expBankWrite 0x00F00103 0x10) { State.reset with cfg := bankCfg } (·.expBank) =
    some 0x00000010 := by decide

theorem test_expBankRead : after (.expBankRead 0x00F00101) { State.reset with cfg := bankCfg, expBank := 0x11223344 }
    (·.reply) = some (.okValue 0x22) := by decide

/-- V-MEM-20. -/
theorem test_ioUnimplementedWrite : after (.ioUnimplementedWrite 0x00F00200 0x99) State.reset (·.trace) =
    some [.logUnimplemented 0x00F00200 .write 0x99] := by decide

/-- V-MEM-19. -/
theorem test_ioUnimplementedRead : after (.ioUnimplementedRead 0x00F00200) State.reset (·.trace) =
    some [.logUnimplemented 0x00F00200 .read 0] := by decide

/-- The session's state and its output, after an instruction. -/
def card (s : State) : SdState × List Byte := (s.sd.state, s.sd.outBuf)

/-- The reset state with another session. -/
def withSd (sd : Sd) : State := { State.reset with sd := sd }

/-- V-SD-1, V-SD-2. -/
theorem test_cmd0 : after (.cmd0 0 0x4A) State.reset card = some (.idle, [0x01]) ∧
    after (.cmd0 0 0x4A) { State.reset with cfg := { exampleCfg with diskAttached := false } } card =
      some (.inactive, [0x00]) := by decide

/-- V-SD-6. -/
theorem test_cmd1 : after (.cmd1 0 0x7C) State.reset card = some (.ready, [0x00]) := by decide

/-- V-SD-8: the argument is not echoed, and the state stays. -/
theorem test_cmd8 : after (.cmd8 0x00000155 0) (withSd { Sd.reset with state := .ready }) card =
    some (.ready, [0x01, 0x00, 0x00, 0x01, 0xAA]) := by decide

/-- V-SD-9. -/
theorem test_cmd9 : after (.cmd9 0 0) State.reset card = some (.standby, [0x00]) := by decide

/-- V-SD-10. -/
theorem test_cmd10 : after (.cmd10 0 0) State.reset card = some (.standby, List.replicate 21 0x00) := by decide

/-- 44_sd_commands.md R221: the rest of the block is discarded. -/
theorem test_cmd12 :
    after (.cmd12 0 0x30) (withSd { Sd.reset with state := .dataMulti, outBuf := [0xFE, 0x01, 0x00, 0x00], outPos := 2 })
      (fun t => (card t, t.sd.outPos)) = some ((.transfer, [0x00]), 0) := by decide

/-- V-SD-12. -/
theorem test_cmd13 : after (.cmd13 0 0) State.reset card = some (.standby, [0x00]) := by decide

/-- V-FR-6: bits 31..16 of the argument are ignored. -/
theorem test_cmd16 : after (.cmd16 0x12340200 0) State.reset (fun t => (card t, t.sd.blockSize)) =
    some ((.transfer, [0x00]), 512) := by decide

/-- V-SD-16. -/
theorem test_cmd16_refused : after (.cmd16 0x00000201 0) State.reset (fun t => (t.refused, t.sd.state)) =
    some (some (.blockSize 513), .idle) := by decide

/-- 44_sd_commands.md R224, with blocks of two bytes: the offset of a high-capacity card is the block number times the
block size. -/
theorem test_cmd17 :
    after (.cmd17 1 0) { withSd { Sd.reset with blockSize := 2 } with disk := [(1, 0x11), (2, 0x22), (3, 0x33)] } card =
      some (.idle, [0x00, 0xFF, 0xFE, 0x22, 0x33, 0x00, 0x00]) := by decide

/-- V-SD-19. -/
theorem test_cmd17_no_disk :
    after (.cmd17 1 0) { State.reset with cfg := { exampleCfg with diskAttached := false } } card = some (.idle, [0xFF]) := by
  decide

/-- V-SD-23. -/
theorem test_cmd18 : after (.cmd18 5 0) State.reset (fun t => (card t, t.sd.nextBlock)) =
    some ((.dataMulti, [0x00]), 5) := by decide

/-- V-SD-25. -/
theorem test_cmd24 : after (.cmd24 1 0) State.reset (fun t => (card t, t.sd.wrBlock)) =
    some ((.awaitingStartToken, [0x00]), 1) := by decide

/-- V-SD-26. -/
theorem test_acmd41 :
    after (.acmd41 0x40000000 0) (withSd { Sd.reset with appCmd := true }) (fun t => (card t, t.sd.appCmd)) =
    some ((.idle, [0x00]), false) := by decide

/-- V-SD-27. -/
theorem test_cmd41 : after (.cmd41 0x40000000 0) State.reset card = some (.inactive, [0xFF]) := by decide

/-- 44_sd_commands.md R214: CMD55 after CMD55 sets the flag again. -/
theorem test_cmd55 :
    after (.cmd55 0 0x32) (withSd { Sd.reset with appCmd := true }) (fun t => (card t, t.sd.appCmd)) =
    some ((.idle, [0x01]), true) := by decide

/-- V-SD-30, V-SD-31. -/
theorem test_cmd58 : after (.cmd58 0 0x7E) State.reset card = some (.idle, [0x00, 0xC0, 0x00, 0x00, 0x00]) ∧
    after (.cmd58 0 0x7E) { State.reset with cfg := { exampleCfg with cardHc := false } } card =
      some (.idle, [0x00, 0x40, 0x00, 0x00, 0x00]) := by decide

/-- V-SD-32. -/
theorem test_cmd59 : after (.cmd59 1 0x41) State.reset card = some (.idle, [0x00]) := by decide

/-- V-SD-33, V-FR-8: nothing queued, and the window keeps the frame. -/
theorem test_cmdUnrecognized :
    after (.cmdUnrecognized 2 0 0x26) (withSd { Sd.reset with win := ⟨0x42, 0, 0, 0, 0, 0x4D⟩, appCmd := true })
      (fun t => (card t, t.sd.appCmd, t.sd.win)) = some ((.idle, []), false, ⟨0x42, 0, 0, 0, 0, 0x4D⟩) := by decide

/-! ## Fetching (log 2, 11) -/

theorem test_step_runs_a_placed_call :
    (nextState (step (State.reset.withFetchWord 72 0x41_00000000_C0))).map (·.hostIn) = some [0x41] := by decide

/-- The placed frame is completed over SPI, and its command is dispatched (V-SD-6). -/
theorem test_step_completes_a_placed_frame :
    (nextState (step (State.reset.withFetchWord 48 0x4100000000F9))).map (fun t => (card t, t.spi.shiftOut)) =
      some ((.ready, [0x00]), 0x00) := by decide

/-! ## Witnesses: states and operands that meet the hypotheses of each statement that has some, each clause at the
boundary of its range -/

/-- EX with a configuration that has no run: MAX_BLOCK_SIZE 0 (70_reset_and_hazards.md R302). -/
def badCfg : Cfg := { exampleCfg with maxBlockSize := 0 }

/-- A tick is waiting. -/
def ticking : State := { State.reset with calls := [⟨0xC4, 0, 0⟩] }

theorem witness_unmarked : State.reset.unmarked := by decide

theorem witness_StepRunsTheDecodedInstruction :
    ticking.calls = ⟨0xC4, 0, 0⟩ :: [] ∧ validCfg ticking.cfg = true ∧
      (decodeCall ticking.cfg ⟨0xC4, 0, 0⟩).toOption = some .tick ∧
      ({ ticking with cfg := badCfg } : State).calls = ⟨0xC4, 0, 0⟩ :: [] ∧ validCfg badCfg = false := by decide

theorem witness_TransactionCodes :
    (0x03 : BitVec 8) ∉ [0x00, 0x01, 0x02, 0x40, 0x41, 0x42, 0x80, 0xC0, 0xC4, 0xC8] ∧
      (0xFF : BitVec 8) ∉ [0x00, 0x01, 0x02, 0x40, 0x41, 0x42, 0x80, 0xC0, 0xC4, 0xC8] ∧
      validCfg exampleCfg = true ∧ ({ State.reset with calls := [⟨0x03, 0, 0⟩] } : State).unmarked := by decide

theorem witness_DecodeAfterEncode :
    Instr.wellFormed exampleCfg false (.readByte 0x00EFFFFF) = true ∧
      Instr.wellFormed bankCfg false (.expBankWrite 0x00F00103 0xFF) = true ∧
      Instr.wellFormed exampleCfg true (.acmd41 0xFFFFFFFF 0x7F) = true ∧
      Instr.wellFormed exampleCfg false (.cmdUnrecognized 63 0 0) = true := by decide

theorem witness_EncodeAfterDecode :
    decode exampleCfg true (.frame ⟨0x69, 0xFF, 0xFF, 0xFF, 0xFF, 0xFF⟩) = .ok (.acmd41 0xFFFFFFFF 0x7F) := rfl

/-- The bank configuration with the transmit register at an address of its own. -/
def unpairedCfg : Cfg := { bankCfg with duartTbAddr := 0x00F0000D }

/-- Each clause: a shared pair, a write-only register alone, the ends of the bank, no register, and the ends of the
window. -/
theorem witness_ByteAccessRunsItsRegisterRow :
    classify exampleCfg (maskAddr exampleCfg 0x00F00000).toNat = .io ∧
      classify exampleCfg (maskAddr exampleCfg 0x00F0FFFF).toNat = .io ∧ validCfg unpairedCfg = true ∧
      decodeByteRead bankCfg bankCfg.duartTbAddr = .duartDataRead 0x00F00007 ∧
      decodeByteWrite bankCfg bankCfg.duartRbAddr 1 = .duartDataWrite 0x00F00007 1 ∧
      decodeByteRead unpairedCfg unpairedCfg.duartTbAddr = .duartOtherRead 0x00F0000D ∧
      decodeByteWrite unpairedCfg unpairedCfg.duartRbAddr 1 = .duartOtherWrite 0x00F00007 1 ∧
      decodeByteRead bankCfg 0x00F00100 = .expBankRead 0x00F00100 ∧
      decodeByteWrite bankCfg 0x00F00103 1 = .expBankWrite 0x00F00103 1 ∧
      decodeByteRead bankCfg 0x00F00104 = .ioUnimplementedRead 0x00F00104 ∧
      decodeByteRead bankCfg 0x00F10000 = .readByte 0x00F10000 := by decide

/-- V-RST-6 to V-RST-9. -/
theorem test_invalid_configurations :
    validCfg { exampleCfg with expBase := 0x00080000, expSize := 0x00100000 } = false ∧
      validCfg { exampleCfg with ioLimit := 2 ^ 32 } = false ∧
      validCfg { exampleCfg with duartSrAddr := exampleCfg.spiOutAddr } = false ∧
      validCfg { exampleCfg with duartSrAddr := 0x00F00007 } = false := by decide

/-- 92_eei_decisions.md D60: EX is valid. -/
theorem exampleCfg_valid : ValidConfiguration exampleCfg where
  inside := by decide
  disjoint := by
    simp only [regionIntervals, exampleCfg, List.pairwise_cons, List.forall_mem_cons]
    refine ⟨⟨?_, ?_, ?_, ?_⟩, ⟨?_, ?_, ?_⟩, ⟨?_, ?_⟩, ?_, List.Pairwise.nil⟩ <;> simp <;> omega
  expSize := by decide
  romImage := by decide
  ramImage := by decide
  registersInIo := by decide
  registersDistinct := by decide
  statusBits := by decide
  pinBits := by decide
  levels := by decide
  maxBlockSize := by decide
  cardBytes := by decide

theorem witness_ResetContents :
    ¬ ValidConfiguration badCfg ∧ ValidConfiguration exampleCfg ∧ exampleCfg.diskAttached = true :=
  ⟨fun h => absurd h.maxBlockSize (by decide), exampleCfg_valid, by decide⟩

/-- 60_exceptions.md R270: every code of its table. -/
theorem test_outcome_codes :
    Reply.ok.code = some 0x00 ∧ (Reply.okValue 5).code = some 0x00 ∧ Reply.okBusError.code = some 0x01 ∧
      (Reply.okBusErrorValue 0).code = some 0x01 ∧ (Fault.addressError 1 .word .read).code = 0x10 ∧
      (Fault.duartEmptyRead 0x00F00007).code = 0x11 ∧ (Refusal.misalignedUnchecked 1 .long .write).code = some 0x20 ∧
      (Refusal.straddle 2 .long).code = some 0x21 ∧ (Refusal.ioWidth 0x00F00002 .word .read).code = some 0x22 ∧
      (Refusal.blockSize 0).code = some 0x23 ∧ (Refusal.diskExtend 0 512).code = some 0x24 ∧
      (Refusal.reservedTransaction 0x03).code = some 0x25 := by decide

theorem witness_ResetKeepsInv : State.boot bankCfg ⟨[(0, 1)], [(7, 1)], [], [(5, 2)]⟩ =
    some (State.resetWith bankCfg ⟨[(0, 1)], [(7, 1)], [], [(5, 2)]⟩) := rfl

/-- A state that meets the invariant: a tick is waiting. -/
theorem ticking_inv : ticking.Inv where
  cfg := by decide
  ram := by decide
  rom := by decide
  exp := by decide
  disk := by decide
  blockSize := by decide
  output := by decide
  inCount := by decide
  inBuf := by decide
  session := by decide
  framer := by decide
  marks := by decide

theorem witness_StepKeepsInv : ticking.Inv ∧ ∃ t, step ticking = .next t := ⟨ticking_inv, _, rfl⟩

theorem witness_OutputCursorStaysInside :
    ∃ t, exec .tick (withSd { Sd.reset with outBuf := [0], outPos := 1 }) = .next t ∧
      (withSd { Sd.reset with outBuf := [0], outPos := 1 }).sd.outPos ≤
        (withSd { Sd.reset with outBuf := [0], outPos := 1 }).sd.outBuf.length := ⟨_, rfl, by decide⟩

theorem witness_FourStatesNeverEntered :
    ∃ t, exec .tick (withSd { Sd.reset with state := .program }) = .next t ∧
      t.sd.state ∈ [SdState.ident, .data, .receive, .program] := ⟨_, rfl, by decide⟩

theorem witness_CanonicalArraysAreDetermined :
    Memory.wf 2 [(0, 7), (1, 5)] = true ∧
      ∀ i < 2, Memory.read [(0, 7), (1, 5)] i = Memory.read [(0, 7), (1, 5)] i := by decide

theorem witness_RaiseKeepsState :
    (∃ t, step ticking = .next t) ∧ ∃ t, exec (.duartDataRead 0x00F00007) State.reset = .next t ∧ ¬ t.unmarked :=
  ⟨⟨_, rfl⟩, _, rfl, by decide⟩

theorem witness_MarkedStateAnswersItsMark :
    ({ State.reset with fault := some (.duartEmptyRead 0) } : State).fault = some (.duartEmptyRead 0) ∧
      ({ State.reset with refused := some (.blockSize 0) } : State).fault = none ∧
      ({ State.reset with refused := some (.blockSize 0) } : State).refused = some (.blockSize 0) := by decide

theorem witness_MemoryReads :
    lies exampleCfg (maskAddr exampleCfg 0x000FFFFE) .word .ram ∧
      lies exampleCfg (maskAddr exampleCfg 0x00FFFFFC) .long .rom ∧
      lies exampleCfg (maskAddr exampleCfg 0x001FFFFF) .byte .exp := by decide

theorem witness_RamWrites :
    State.reset.unmarked ∧ Memory.wf State.reset.cfg.ramSize State.reset.ram = true ∧
      lies exampleCfg (maskAddr exampleCfg 0x00000000) .long .ram ∧
      lies exampleCfg (maskAddr exampleCfg 0x000FFFFF) .byte .ram := by decide

theorem witness_ExpansionWindow :
    0 < exampleCfg.expSize ∧ Memory.wf exampleCfg.expSize State.reset.exp = true ∧
      lies exampleCfg (maskAddr exampleCfg 0x001FFFFE) .word .exp ∧ exampleCfg.expSize ∣ exampleCfg.expBase.toNat ∧
      ∀ i < 2, ∀ j < 2, i < j → (0x001FFFFE + j + 1) % exampleCfg.expSize ≠ (0x001FFFFE + i + 1) % exampleCfg.expSize := by
  decide

theorem witness_WrittenValueReadsBack :
    lies exampleCfg (maskAddr exampleCfg 0x000FFFFE) .word .ram ∧
      lies exampleCfg (maskAddr exampleCfg 0x001FFFFC) .long .exp ∧ Width.long.bytes ≤ exampleCfg.expSize ∧
      (∃ t, exec (writeOf .word 0x000FFFFE 0x1234) State.reset = .next t ∧ t.unmarked) ∧
      ∃ t, exec (writeOf .long 0x001FFFFC 0x1234) State.reset = .next t ∧ t.unmarked :=
  ⟨by decide, by decide, by decide, ⟨_, rfl, by decide⟩, _, rfl, by decide⟩

theorem witness_RomWritesAreDiscarded :
    State.reset.unmarked ∧ lies exampleCfg (maskAddr exampleCfg 0x00FC0000) .long .rom ∧
      lies exampleCfg (maskAddr exampleCfg 0x00FFFFFF) .byte .rom := by decide

theorem witness_RomNeverChanges :
    (∃ t, Reaches ticking t ∧ t ≠ ticking ∧ t.unmarked) ∧
      classify ticking.cfg (maskAddr ticking.cfg 0x00FFFFFF).toNat = .rom :=
  ⟨⟨_, .next .here rfl, by decide, by decide⟩, by decide⟩

theorem witness_UnmappedAccesses :
    State.reset.unmarked ∧ lies exampleCfg (maskAddr exampleCfg 0x00200000) .long .unmapped ∧
      lies exampleCfg (maskAddr exampleCfg 0xFFFFFFFE) .word .unmapped := by decide

/-- EX without the alignment check. -/
def uncheckedCfg : Cfg := { exampleCfg with addrErrCheck := false }

theorem witness_Misalignment :
    ¬ aligned (maskAddr exampleCfg 0x00000001) .word ∧ ¬ aligned (maskAddr exampleCfg 0xFFFFFFFF) .long ∧
      exampleCfg.addrErrCheck = true ∧ uncheckedCfg.addrErrCheck = false ∧
      aligned (maskAddr exampleCfg 0x00000002) .long ∧ aligned (maskAddr exampleCfg 0xFFFFFFFF) .byte ∧
      ∃ t, exec (readOf .long 0x00000002) State.reset = .next t :=
  ⟨by decide, by decide, by decide, by decide, by decide, by decide, _, rfl⟩

/-- V-MEM-13, V-MEM-14. -/
theorem witness_StraddleIsRefused :
    (aligned (maskAddr exampleCfg 0x00FBFFFE) .long ∧
      ∃ i < Width.long.bytes, ¬ byteIn exampleCfg (maskAddr exampleCfg 0x00FBFFFE)
        (classify exampleCfg (maskAddr exampleCfg 0x00FBFFFE).toNat) i) ∧
      aligned (maskAddr exampleCfg 0xFFFFFFFE) .long ∧
      ∃ i < Width.long.bytes, ¬ byteIn exampleCfg (maskAddr exampleCfg 0xFFFFFFFE)
        (classify exampleCfg (maskAddr exampleCfg 0xFFFFFFFE).toNat) i := by decide

theorem witness_WideIoIsRefused :
    Width.word ≠ .byte ∧ lies exampleCfg (maskAddr exampleCfg 0x00F00000) .long .io ∧
      lies exampleCfg (maskAddr exampleCfg 0x00F0FFFE) .word .io := by decide

theorem witness_ExpansionBaseRegister :
    bankCfg.expBankAddr = some 0x00F00100 ∧
      (maskAddr bankCfg 0x00F00100).toNat = (0x00F00100 : Addr).toNat + 0 ∧
      (maskAddr bankCfg 0x00F00103).toNat = (0x00F00100 : Addr).toNat + 3 ∧ State.reset.cfg.expBankAddr = none ∧
      (∃ t, exec (.setbank 1) State.reset = .next t ∧ t.expBank ≠ State.reset.expBank) ∧
      ∃ t, exec (.writeByte 0x00F00103 1) { State.reset with cfg := bankCfg } = .next t ∧
        t.expBank ≠ State.reset.expBank :=
  ⟨by decide, by decide, by decide, by decide, ⟨_, rfl, by decide⟩, _, rfl, by decide⟩

/-- Both sources pend under configuration `c`. -/
def bothPending (c : Cfg) : State := { State.reset with cfg := c, timerPending := true, usbPending := true }

theorem witness_Acknowledge :
    ((4 : BitVec 32).toNat = (bothPending exampleCfg).cfg.timerIrqLevel ∧ (bothPending exampleCfg).timerPending = true) ∧
      (¬((3 : BitVec 32).toNat = (bothPending exampleCfg).cfg.timerIrqLevel ∧
          (bothPending exampleCfg).timerPending = true) ∧
        (3 : BitVec 32).toNat = (bothPending exampleCfg).cfg.usbIrqLevel) ∧
      ¬((0 : BitVec 32).toNat = (bothPending exampleCfg).cfg.timerIrqLevel ∧
          (bothPending exampleCfg).timerPending = true) ∧
      ¬((0 : BitVec 32).toNat = (bothPending exampleCfg).cfg.usbIrqLevel ∧ (bothPending exampleCfg).usbPending = true) := by
  decide

theorem witness_SimultaneousRequests :
    (exampleCfg.usbIrqLevel < exampleCfg.timerIrqLevel ∧ (4 : BitVec 32).toNat = ipl (bothPending exampleCfg)) ∧
      (4 : BitVec 32).toNat = ipl (bothPending { exampleCfg with usbIrqLevel := 4 }) ∧
      (7 : BitVec 32).toNat = ipl (bothPending { exampleCfg with usbIrqLevel := 7 }) := by decide

theorem witness_TimerTick :
    State.reset.timerEnabled = true ∧ ({ State.reset with timerEnabled := false } : State).timerEnabled = false := by
  decide

theorem witness_PendingFlagsChangeOnlySo :
    (∃ t, exec .tick State.reset = .next t ∧ State.reset.timerPending = false ∧ t.timerPending = true) ∧
      (∃ t, exec (.iack 4) (bothPending exampleCfg) = .next t ∧ t.timerPending = false) ∧
      (∃ t, exec (.usbCmdWrite 0x00F00043 1) State.reset = .next t ∧ State.reset.usbPending = false ∧
        t.usbPending = true) ∧
      ∃ t, exec (.iack 3) (bothPending exampleCfg) = .next t ∧ t.usbPending = false :=
  ⟨⟨_, rfl, by decide, by decide⟩, ⟨_, rfl, by decide⟩, ⟨_, rfl, by decide, by decide⟩, _, rfl, by decide⟩

theorem witness_InterruptStateIsNotReadable :
    Instr.duartStatusRead 0x00F00003 ∈ busReads 0x00F00003 ∧
      ∃ t, exec (.duartStatusRead 0x00F00003) State.reset = .next t := ⟨by decide, _, rfl⟩

theorem witness_DuartReceive :
    ({ State.reset with hostIn := [0x41] } : State).hostIn = 0x41 :: [] ∧ State.reset.hostIn = [] := by decide

theorem witness_PollThenReceive :
    validCfg State.reset.cfg = true ∧
      ∃ t, exec (.duartStatusRead 0x00F00003) { State.reset with hostIn := [0x41] } = .next t ∧
        t.reply = .okValue 0x05 ∧ (0x05 : BitVec 32).getLsbD exampleCfg.duartRxrdyBit.val = true :=
  ⟨by decide, _, rfl, by decide, by decide⟩

theorem witness_DuartInterruptMask :
    (0xFF : Byte) ≠ 0x00 ∧ ({ exampleCfg with imrNonzeroEnables := true } : Cfg).imrNonzeroEnables = true ∧
      exampleCfg.imrNonzeroEnables = false := by decide

theorem witness_UsbRegisters :
    exampleCfg.usbSharesDisk = false ∧ ({ exampleCfg with usbSharesDisk := true } : Cfg).usbSharesDisk = true ∧
      Memory.wf exampleCfg.diskLen (exampleCfg.usbHandler.cmdWrite [] State.reset.disk 1).2.1 = true ∧
      ∃ t, exec (.usbDataRead 0x00F00041) State.reset = .next t :=
  ⟨by decide, by decide, by decide, _, rfl⟩

/-- The card selected, with `count` bits held and SCK low. -/
def selected (count : Fin 8) (shiftIn : Byte) : State :=
  { State.reset with spi := { Spi.reset with csN := false, count := count, shiftIn := shiftIn } }

theorem witness_SpiWriteWithoutEdge :
    ¬ risesSelected State.reset 0x07 ∧ ¬ risesSelected (selected 3 7) 0x06 ∧ ¬ risesSelected (selected 3 7) 0x02 := by
  unfold risesSelected; decide

theorem witness_SpiEdgeShiftsOneBit :
    risesSelected (selected 0 0) 0x03 ∧ (selected 0 0).spi.count.val < 7 ∧ risesSelected (selected 6 0) 0x01 ∧
      (selected 6 0).spi.count.val < 7 := by
  unfold risesSelected; decide

/-- The first five bytes of CMD16 with length 0 are in the window, and seven bits of the sixth (V-SD-15). -/
def beforeRefusal : State := { selected 7 0 with sd := { Sd.reset with win := ⟨0, 0x50, 0, 0, 0, 0⟩ } }

theorem witness_EighthEdgeCompletesTheByte :
    risesSelected (selected 7 0x20) 0x01 ∧ (selected 7 0x20).spi.count = 7 ∧
      (∃ k, sdLatch exampleCfg 0x40 (selected 7 0x20).card = .done k) ∧ risesSelected beforeRefusal 0x03 ∧
      ∃ trace, sdLatch exampleCfg 0x01 beforeRefusal.card = .raised (.refuse (.blockSize 0)) trace :=
  ⟨by unfold risesSelected; decide, by decide, ⟨_, rfl⟩, by unfold risesSelected; decide, _, rfl⟩

theorem witness_ByteExchange :
    validCfg State.reset.cfg = true ∧ State.reset.spi.count = 0 ∧
      ∃ k, sdLatch State.reset.cfg 0x40 State.reset.card = .done k := ⟨by decide, by decide, _, rfl⟩

theorem witness_SessionChangesOnlyByLatch :
    ∃ t, exec (.spiOutWrite 0x00F00081 0x01) (selected 7 0x20) = .next t ∧
      (Instr.spiOutWrite 0x00F00081 0x01).isSdRow = false ∧ t.sd ≠ (selected 7 0x20).sd :=
  ⟨_, rfl, by decide, by decide⟩

/-- The card holds the first five bytes of a frame. -/
def beforeLast (b0 b4 : Byte) : State := withSd { Sd.reset with win := ⟨0, b0, 0, 0, 0, b4⟩ }

theorem witness_LatchRunsTheDecodedRow :
    decodeFrame false (shiftWindow (beforeLast 0x41 0).sd.win 0xF9) = .ok (.cmd1 0 0x7C) ∧
      (∃ k, sdLatch exampleCfg 0xF9 (beforeLast 0x41 0).card = .done k) ∧
      decodeFrame false (shiftWindow (beforeLast 0x50 0).sd.win 0x01) = .ok (.cmd16 0 0) ∧
      ∃ x trace, sdLatch exampleCfg 0x01 (beforeLast 0x50 0).card = .raised x trace :=
  ⟨rfl, ⟨_, rfl⟩, rfl, _, _, rfl⟩

/-- The states that scan for commands, INACTIVE among them. -/
theorem witness_scanning :
    State.reset.unmarked ∧ State.reset.scanning ∧ (withSd { Sd.reset with state := .inactive }).scanning ∧
      (withSd { Sd.reset with state := .dataMulti }).scanning := by decide

theorem witness_SdSetBlockLength :
    (0xFFFF0001 : BitVec 32).toNat % 2 ^ 16 = 1 ∧ 1 ≤ State.reset.cfg.maxBlockSize ∧
      (0x00000200 : BitVec 32).toNat % 2 ^ 16 = State.reset.cfg.maxBlockSize ∧
      (0x00010000 : BitVec 32).toNat % 2 ^ 16 = 0 ∧
      State.reset.cfg.maxBlockSize < (0x00000201 : BitVec 32).toNat % 2 ^ 16 := by decide

/-- V-DP-9: the last block of the disk; and the states without a disk. -/
theorem witness_SdReadBlock :
    0x7FF * State.reset.sd.blockSize.toNat + State.reset.sd.blockSize.toNat = exampleCfg.diskLen ∧
      exampleCfg.diskAttached = true ∧ exampleCfg.reliableDisk = true ∧ State.reset.scanning ∧
      ({ State.reset with cfg := { exampleCfg with diskAttached := false } } : State).scanning := by decide

/-- V-DP-9: block 2047 can be read, and block 2048 cannot. -/
theorem witness_StreamProducesTheNextBlock :
    (withSd { Sd.reset with state := .dataMulti, nextBlock := 0x7FF }).sd.state = .dataMulti ∧
      Sd.reset.outBuf.length ≤ Sd.reset.outPos ∧ 0x7FF * 512 + 512 ≤ exampleCfg.diskLen ∧
      exampleCfg.diskLen < 0x800 * 512 + 512 ∧ exampleCfg.diskAttached = true ∧ exampleCfg.reliableDisk = true ∧
      ({ exampleCfg with reliableDisk := false } : Cfg).reliableDisk = false ∧
      ¬(Sd.reset.win.b1 &&& 0xC0 = 0x40 ∧ (0xFF : Byte) &&& 0x01 = 0x01) := by decide

theorem witness_UnrecognizedCommands :
    (withSd { Sd.reset with state := .dataMulti, outBuf := [0], outPos := 0 }).scanning ∧
      (withSd { Sd.reset with state := .dataMulti, outBuf := [0], outPos := 0 }).sd.outPos <
        (withSd { Sd.reset with state := .dataMulti, outBuf := [0], outPos := 0 }).sd.outBuf.length ∧
      Sd.reset.state ≠ .awaitingStartToken ∧ Sd.reset.state ≠ .receivingBlock ∧
      ¬(Sd.reset.win.b1 &&& 0xC0 = 0x40 ∧ (0xFF : Byte) &&& 0x01 = 0x01) ∧
      ¬((0x42 : Byte) &&& 0xC0 = 0x40 ∧ (0xFE : Byte) &&& 0x01 = 0x01) := by decide

theorem witness_FramesAreSwallowed :
    (Instr.cmd0 0 0x4A).isSdRow = true ∧ encode (.cmd0 0 0x4A) = .frame ⟨0x40, 0, 0, 0, 0, 0x95⟩ ∧
      (withSd { Sd.reset with state := .awaitingStartToken }).unmarked ∧
      ({ exampleCfg with inactiveIgnoresCommands := true } : Cfg).inactiveIgnoresCommands = true ∧
      (withSd { Sd.reset with state := .receivingBlock, inBuf := List.replicate 512 0, inCount := 512 }).sd.inCount + 1 ≠
        Sd.reset.blockSize.toNat + 2 := by decide

theorem witness_StartToken : (withSd { Sd.reset with state := .awaitingStartToken }).card.sd.state = .awaitingStartToken := by
  decide

/-- A block of two bytes is being received, and holds `held`, under destination `block`. -/
def receiving (held : List Byte) (block : BitVec 32) : Card :=
  (withSd { Sd.reset with
    state := .receivingBlock, blockSize := 2, wrBlock := block, inBuf := held, inCount := held.length }).card

/-- A byte short of the last one; the last one of the image's last block; the last one with no image; and the last one
past the image. -/
theorem witness_BlockWrite :
    (receiving [1, 2] 0).sd.state = .receivingBlock ∧
      (receiving [1, 2] 0).sd.inCount + 1 ≠ (receiving [1, 2] 0).sd.blockSize.toNat + 2 ∧
      (receiving [1, 2, 3] 0x7FFFF).sd.inCount + 1 = (receiving [1, 2, 3] 0x7FFFF).sd.blockSize.toNat + 2 ∧
      exampleCfg.diskAttached = true ∧ 0x7FFFF * 2 + ([1, 2, 3, 4].take 2).length ≤ exampleCfg.diskLen ∧
      exampleCfg.diskLen < 0x80000 * 2 + ([1, 2, 3, 4].take 2).length ∧
      ({ exampleCfg with diskAttached := false } : Cfg).diskAttached = false := by decide

/-- The first and the last block of the image can be written. -/
theorem witness_WriteReadRoundTrip :
    ticking.Inv ∧ ticking.unmarked ∧ ticking.spi.count = 0 ∧ ticking.cfg.diskAttached = true ∧
      ticking.cfg.reliableDisk = true ∧ ticking.sd.state ∈ [SdState.idle, .ready, .standby, .transfer] ∧
      ticking.sd.win = ⟨0, 0, 0, 0, 0, 0⟩ ∧ 0 * 512 + 512 ≤ ticking.cfg.diskLen ∧
      0x7FF * 512 + 512 = ticking.cfg.diskLen ∧ (List.replicate 514 (0xFF : Byte)).length = ticking.sd.blockSize.toNat + 2 :=
  ⟨ticking_inv, by decide, by decide, by decide, by decide, by decide, by decide, by decide, by decide, by
    rw [List.length_replicate]; decide⟩

end Sys2Proof.Tests
end

namespace Sys2Proof.Laws

/-! Arrays in canonical form are determined by their bytes (10_state.md R21). -/

@[simp] theorem memory_read_head (k : Nat) (x : Byte) (m : Memory) : Memory.read ((k, x) :: m) k = x := by
  simp [Memory.read]

theorem memory_read_tail {i k : Nat} (x : Byte) (m : Memory) (h : i ≠ k) :
    Memory.read ((k, x) :: m) i = Memory.read m i := by
  simp [Memory.read, h]

/-- The first listed index of a canonical array is at most that of any canonical array that reads like it: below its
own first index an array reads 0, and a listed byte is not 0. -/
theorem memory_head_le {lo lo' n k k' : Nat} {x x' : Byte} {m m' : Memory}
    (hm : Memory.wfFrom lo n ((k, x) :: m) = true) (hm' : Memory.wfFrom lo' n ((k', x') :: m') = true)
    (h : ∀ i, Memory.read ((k, x) :: m) i = Memory.read ((k', x') :: m') i) : k ≤ k' := by
  obtain ⟨-, hk, hx, htail⟩ := memory_wfFrom_cons.mp hm
  obtain ⟨-, -, hx', -⟩ := memory_wfFrom_cons.mp hm'
  refine Nat.le_of_not_lt fun hlt => ?_
  have hfrom : Memory.wfFrom k n ((k, x) :: m) = true := memory_wfFrom_cons.mpr ⟨Nat.le_refl k, hk, hx, htail⟩
  have hread : Memory.read ((k, x) :: m) k' = 0 := memory_read_below hfrom hlt
  rw [h, memory_read_head] at hread
  exact hx' hread

/-- Canonical arrays that read alike at every index are equal. -/
theorem memory_ext_from {lo lo' n : Nat} {m m' : Memory} (hm : Memory.wfFrom lo n m = true)
    (hm' : Memory.wfFrom lo' n m' = true) (h : ∀ i, Memory.read m i = Memory.read m' i) : m = m' := by
  induction m generalizing lo lo' m' with
  | nil =>
    cases m' with
    | nil => rfl
    | cons p' m' =>
      obtain ⟨k', x'⟩ := p'
      obtain ⟨-, -, hx', -⟩ := memory_wfFrom_cons.mp hm'
      exact absurd (by simpa using (h k').symm) hx'
  | cons p m ih =>
    obtain ⟨k, x⟩ := p
    obtain ⟨-, -, hx, htail⟩ := memory_wfFrom_cons.mp hm
    cases m' with
    | nil => exact absurd (by simpa using h k) hx
    | cons p' m' =>
      obtain ⟨k', x'⟩ := p'
      obtain ⟨-, -, -, htail'⟩ := memory_wfFrom_cons.mp hm'
      obtain rfl : k = k' := Nat.le_antisymm (memory_head_le hm hm' h) (memory_head_le hm' hm fun i => (h i).symm)
      obtain rfl : x = x' := by simpa using h k
      have htails : ∀ i, Memory.read m i = Memory.read m' i := by
        intro i
        by_cases hi : i = k
        · subst hi
          rw [memory_read_below htail (Nat.lt_succ_self i), memory_read_below htail' (Nat.lt_succ_self i)]
        · rw [← memory_read_tail x m hi, h, memory_read_tail x m' hi]
      rw [ih htail htail' htails]

/-- Canonical arrays of one size that read alike inside it are equal: past the size both read 0. -/
theorem memory_ext {n : Nat} {m m' : Memory} (hm : Memory.wf n m = true) (hm' : Memory.wf n m' = true)
    (h : ∀ i < n, Memory.read m i = Memory.read m' i) : m = m' := by
  refine memory_ext_from hm hm' fun i => ?_
  by_cases hi : i < n
  · exact h i hi
  · rw [memory_read_past hm (by omega), memory_read_past hm' (by omega)]

/-- Settles O13, by induction on the listed pairs (`memory_ext_from`). -/
theorem canonicalArraysAreDetermined : Obligations.CanonicalArraysAreDetermined :=
  fun _ _ _ hm hm' h => memory_ext hm hm' h

end Sys2Proof.Laws

namespace Sys2Proof.Machine

/-! The invariant under each update of the state. A change to a field the invariant does not read keeps it. -/

/-- The card's part of the invariant. -/
theorem inv_card {s : State} (h : s.Inv) : CardInv s.cfg s.card :=
  ⟨h.disk, h.blockSize, h.output, h.inCount, h.inBuf, h.session⟩

theorem inv_withCard {s : State} {k : Card} (h : s.Inv) (hk : CardInv s.cfg k) : (s.withCard k).Inv :=
  { h with
    disk := hk.disk, blockSize := hk.blockSize, output := hk.output, inCount := hk.inCount, inBuf := hk.inBuf,
    session := hk.session }

theorem inv_withTrace {s : State} (h : s.Inv) (tr : List Event) : State.Inv { s with trace := tr } := { h with }

theorem inv_withReply {s : State} (h : s.Inv) (y : Reply) : State.Inv { s with reply := y } := { h with }

theorem inv_withCalls {s : State} (h : s.Inv) (ks : List Call) : State.Inv { s with calls := ks } := { h with }

/-- A framer that holds no bit while the card is deselected (43_spi_framer.md R192). -/
theorem inv_withSpi {s : State} {p : Spi} (h : s.Inv) (hp : p.csN = true → p.count = 0 ∧ p.shiftIn = 0) :
    State.Inv { s with spi := p } :=
  { h with framer := hp }

/-- A raise from an unmarked state sets the one mark (60_exceptions.md R271, R276). -/
theorem inv_mark {s : State} (h : s.Inv) (hu : s.unmarked) (x : Raise) (tr : List Event) : (mark s x tr).Inv :=
  { h with
    marks := by
      obtain ⟨hf, hr⟩ := hu
      cases x with
      | fault f => exact .inr hr
      | refuse r => exact .inl hf }

/-- A handler may leave any disk: it is cut to its size, or not shared (42_usb_bridge.md R186, log 7). -/
theorem sharedDisk_wf {s : State} (h : s.Inv) (d : Memory) : Memory.wf s.cfg.diskLen (sharedDisk s d) = true := by
  unfold sharedDisk
  split
  · exact Laws.memory_ofCells_wf _ d
  · exact h.disk

/-! The invariant under each operation. -/

/-- A store in RAM keeps RAM canonical: the first and the last byte of the access lie in the region. -/
theorem inv_storeRam {s : State} {a : Addr} {n : Width} (h : s.Inv) (ha : lies s.cfg a n .ram) (v : BitVec 32)
    (tr : List Event) :
    State.Inv { s with
      ram := Memory.writeRange s.ram (a.toNat - s.cfg.ramBase.toNat) (beBytes n.bytes v)
      trace := tr } := by
  have hn := width_bytes_pos n
  have first := classify_ram (ha.2 0 hn).2.2
  have last := classify_ram (ha.2 (n.bytes - 1) (by omega)).2.2
  have hram : Memory.wf s.cfg.ramSize
      (Memory.writeRange s.ram (a.toNat - s.cfg.ramBase.toNat) (beBytes n.bytes v)) = true :=
    Laws.memory_writeRange_wf h.ram (by rw [beBytes_length]; omega)
  exact { h with ram := hram }

/-- A store in the expansion window keeps the expansion RAM canonical: each index is taken mod EXP_SIZE
(20_memory.md R73), which is positive where an address lies in the window. -/
theorem inv_storeExp {s : State} {a : Addr} {n : Width} (h : s.Inv) (ha : lies s.cfg a n .exp) (bs : List Byte)
    (tr : List Event) :
    State.Inv { s with exp := storeExp s.cfg s.expBank s.exp a.toNat bs, trace := tr } := by
  have first := classify_exp (ha.2 0 (width_bytes_pos n)).2.2
  have hsize : 0 < s.cfg.expSize := by omega
  exact { h with exp := storeExp_wf s.expBank a.toNat bs hsize h.exp }

/-- An SPI_OUT write keeps the invariant: deselecting drops the held bits, and an edge is taken only with the card
selected (43_spi_framer.md R191 to R194). -/
theorem inv_spiOutWrite {s u : State} {v : Byte} (h : s.Inv) (hu : spiOutWrite v s = .done u) : u.Inv := by
  have selected {p : Spi} (hr : risesSelected s v) (hp : p.csN = bitAt v s.cfg.spiCsBit) :
      p.csN = true → p.count = 0 ∧ p.shiftIn = 0 := by
    intro hc
    rw [hp, hr.1] at hc
    cases hc
  rcases spiOutWrite_done hu with ⟨-, rfl⟩ | ⟨hr, -, rfl⟩ | ⟨hr, -, k, hk, rfl⟩
  · refine inv_withSpi h fun hc => ?_
    rw [latchedSpi_eq] at hc ⊢
    have hbit : bitAt v s.cfg.spiCsBit = true := hc
    cases hcs : s.spi.csN with
    | false => simp [hbit]
    | true => simpa [hbit] using h.framer hcs
  · exact inv_withSpi h (selected hr rfl)
  · exact inv_withSpi (inv_withCard h (cardInv_poll (cardInv_sdLatch (inv_card h) hk))) (selected hr rfl)

/-- What a command row does in a scanning state keeps the card at rest (44_sd_commands.md R213 to R232). -/
theorem cardRest_cardTest {c : Cfg} {i : Instr} {k k' : Card} (h : CardRest c k) (hk : cardTest c i k = .done k') :
    CardRest c k' := by
  cases i with
  | cmd0 _ _ => exact cardRest_recognizedTotal h (fun _ => cardRest_ruleCmd0) hk
  | cmd16 _ _ => exact cardRest_recognized h (fun _ _ => cardRest_ruleCmd16) hk
  | cmd17 g _ => exact cardRest_recognizedTotal h (fun _ => cardRest_ruleCmd17 g) hk
  | cmd18 g _ => exact cardRest_recognizedTotal h (fun _ => cardRest_ruleCmd18 g) hk
  | cmd24 g _ => exact cardRest_recognizedTotal h (fun _ => cardRest_ruleCmd24 g) hk
  | cmd55 _ _ => exact cardRest_recognizedTotal h (fun _ => cardRest_ruleCmd55) hk
  | cmd8 _ _ | cmd58 _ _ | cmd59 _ _ => exact cardRest_recognizedTotal h (fun _ h => cardRest_queue _ h) hk
  | cmd1 _ _ | cmd9 _ _ | cmd10 _ _ | cmd12 _ _ | cmd13 _ _ | acmd41 _ _ | cmd41 _ _ =>
    exact cardRest_recognizedTotal h (fun _ h => cardRest_queue_enter _ h (by decide) (by decide)) hk
  | cmdUnrecognized _ _ _ => cases hk; exact cardRest_takeAppFlag h
  | _ => cases hk; exact h

/-- A register, a host event or an SD row keeps the invariant. -/
theorem inv_operation_row {j : Instr} {s u : State} {y : Reply} (hj : isRegisterRow j = true) (h : s.Inv)
    (hu : operation j s = .done (u, y)) : u.Inv := by
  by_cases hsd : j.isSdRow = true
  · rw [operation_sdRow hsd] at hu
    obtain ⟨k, hk, e⟩ := res_map_eq_done.mp hu
    cases e
    exact inv_withCard h (cardInv_latchBody (inv_card h) (fun _ _ => cardRest_cardTest) hk)
  · cases j with
    | readByte _ | readWord _ | readLong _ | writeByte _ _ | writeWord _ _ | writeLong _ _ => cases hj
    | spiOutWrite _ v =>
      obtain ⟨p, hp, e⟩ := res_map_eq_done.mp hu
      cases e
      exact inv_spiOutWrite h hp
    | usbCmdWrite _ _ | usbDataWrite _ _ | usbDataRead _ => cases hu; exact { h with disk := sharedDisk_wf h _ }
    | duartDataRead _ =>
      obtain ⟨p, hp, e⟩ := res_map_eq_done.mp hu
      cases e
      unfold duartDataRead at hp
      split at hp <;> cases hp
      exact { h with }
    | iack l =>
      cases hu
      unfold acknowledge
      split
      · exact { h with }
      · split <;> exact { h with }
    | expBankRead _ | expBankWrite _ _ =>
      obtain ⟨p, hp, e⟩ := res_map_eq_done.mp hu
      cases e
      split at hp <;> cases hp <;> exact { h with }
    | hostIn _ | tick | setbank _ | duartStatusRead _ | duartDataWrite _ _ | duartImrWrite _ _ | duartOtherWrite _ _
    | duartOtherRead _ | usbCmdRead _ | spiOutRead _ | spiInRead _ | spiInWrite _ _ | ioUnimplementedWrite _ _
    | ioUnimplementedRead _ => cases hu; exact { h with }
    | _ => exact absurd rfl hsd

/-- Every operation that completes keeps the invariant. -/
theorem inv_operation {i : Instr} {s u : State} {y : Reply} (h : s.Inv) (hu : operation i s = .done (u, y)) :
    u.Inv := by
  rcases operation_done_cases hu with ⟨_, rfl⟩ | ⟨n, a, v, -, ⟨ha, rfl⟩ | ⟨ha, rfl⟩⟩ | ⟨j, hj, hrow, -⟩
  · exact inv_withTrace h _
  · exact inv_storeRam h ha _ _
  · exact inv_storeExp h ha _ _
  · exact inv_operation_row hj h hrow

/-- Every instruction keeps the invariant: it completes, or it marks an unmarked state. -/
theorem inv_exec {i : Instr} {s t : State} (h : s.Inv) (ht : exec i s = .next t) : t.Inv := by
  obtain ⟨hu, ⟨u, y, hdone, rfl⟩ | ⟨x, tr, -, rfl⟩⟩ := exec_cases ht
  · exact inv_withReply (inv_operation h hdone) y
  · exact inv_mark h hu x tr

/-- Everything a step can do: run the next call's instruction, or mark an unmarked state with the refusal of a reserved
code (30_encoding.md R100). -/
theorem step_cases {s t : State} (h : step s = .next t) :
    ∃ k rest, s.calls = k :: rest ∧ validCfg s.cfg = true ∧
      ((∃ i, decodeCall s.cfg k = .ok i ∧ exec i { s with calls := rest } = .next t) ∨
        s.unmarked ∧ t = mark { s with calls := rest } (.refuse (.reservedTransaction k.tcode)) s.trace) := by
  unfold step fetch at h
  cases hc : s.calls with
  | nil =>
    simp only [hc, noCallStep, ifUnmarked_eq_next] at h
    cases h.2
  | cons k rest =>
    simp only [hc] at h
    split at h
    · next hv =>
      refine ⟨k, rest, rfl, hv, ?_⟩
      split at h
      · next i hi => exact .inl ⟨i, hi, h⟩
      · obtain ⟨hu, rfl⟩ := perform_eq_next.mp h
        exact .inr ⟨hu, rfl⟩
    · cases h

/-- Settles O10: the state past the call meets the invariant, and the instruction or the refusal keeps it. -/
theorem stepKeepsInv : Obligations.StepKeepsInv := by
  intro s t h ht
  obtain ⟨k, rest, -, -, ⟨i, -, hexec⟩ | ⟨hu, rfl⟩⟩ := step_cases ht
  · exact inv_exec (inv_withCalls h rest) hexec
  · exact inv_mark (inv_withCalls h rest) hu _ _

end Sys2Proof.Machine

namespace Sys2Proof.Machine

/-! What a bus access answers, said once for each region (20_memory.md R69 to R77). -/

/-- From an unmarked state a read answers what its bus operation leaves. -/
theorem exec_readOf {s : State} (hu : s.unmarked) (n : Width) (address : Addr) :
    exec (readOf n address) s = .next (conclude s (memRead address n s)) := by
  rw [exec_unmarked hu, operation_readOf]

/-- From an unmarked state a write answers what its bus operation leaves, on the value cut to the width. -/
theorem exec_writeOf {s : State} (hu : s.unmarked) (n : Width) (address : Addr) (v : BitVec 32) :
    exec (writeOf n address v) s = .next (conclude s (memWrite address n (truncated n v) s)) := by
  rw [exec_unmarked hu, operation_writeOf]

/-- A masked address is in the region `classify` names, as an access of one byte. -/
theorem lies_byte {c : Cfg} {address : Addr} {r : Region} (h : classify c (maskAddr c address).toNat = r) :
    lies c (maskAddr c address) .byte r := by
  refine ⟨fun hn => absurd rfl hn, fun i hi => ?_⟩
  obtain ⟨below, kept, same⟩ := straddles_eq_false.mp (straddles_byte c address) i hi
  exact ⟨below, kept, same.trans h⟩

/-- The regions that hold bytes: RAM, ROM and the expansion window (20_memory.md R62). -/
def Region.isMemory : Region → Bool
  | .ram => true
  | .rom => true
  | .exp => true
  | .io => false
  | .unmapped => false

/-- A read inside one memory region answers that region's bytes, and changes nothing (20_memory.md R65, R70). -/
theorem exec_readOf_memory {s : State} {n : Width} {address : Addr} {r : Region} (hu : s.unmarked)
    (hr : r.isMemory = true) (h : lies s.cfg (maskAddr s.cfg address) n r) :
    exec (readOf n address) s = .next { s with
      reply := .okValue (beValue (regionBytes s r (maskAddr s.cfg address).toNat n.bytes)) } := by
  obtain ⟨-, -, hc⟩ := lies_admitted h
  rw [exec_readOf hu, memRead_lies h]
  cases r with
  | ram | rom | exp => simp only [readAdmitted, hc, conclude_done]
  | io | unmapped => cases hr

/-- The value of a run of a region's bytes (20_memory.md R65). -/
theorem beValue_regionBytes (s : State) (r : Region) (a : Nat) (n : Width) :
    (beValue (regionBytes s r a n.bytes)).toNat = beSum n.bytes fun i => regionByte s r (a + i) :=
  beValue_toNat n _

/-- A write inside RAM stores its bytes as a run of RAM, after the breakpoint event (20_memory.md R66, R69, R78). -/
theorem exec_writeOf_ram {s : State} {n : Width} {address : Addr} (v : BitVec 32) (hu : s.unmarked)
    (h : lies s.cfg (maskAddr s.cfg address) n .ram) :
    exec (writeOf n address v) s = .next { s with
      ram := Memory.writeRange s.ram ((maskAddr s.cfg address).toNat - s.cfg.ramBase.toNat)
        (beBytes n.bytes (truncated n v))
      trace := s.trace ++ [.breakpointWrite (maskAddr s.cfg address)]
      reply := .ok } := by
  obtain ⟨-, -, hc⟩ := lies_admitted h
  rw [exec_writeOf hu, memWrite_lies h]
  simp only [writeAdmitted, hc, conclude_done]
  rw [setRegionBytes_ram _ _ _ (by simpa using (classify_ram hc).1)]
  rfl

/-- A write inside the expansion window stores each byte at its physical index, after the breakpoint event
(20_memory.md R66, R73, R78). -/
theorem exec_writeOf_exp {s : State} {n : Width} {address : Addr} (v : BitVec 32) (hu : s.unmarked)
    (h : lies s.cfg (maskAddr s.cfg address) n .exp) :
    exec (writeOf n address v) s = .next { s with
      exp := storeExp s.cfg s.expBank s.exp (maskAddr s.cfg address).toNat (beBytes n.bytes (truncated n v))
      trace := s.trace ++ [.breakpointWrite (maskAddr s.cfg address)]
      reply := .ok } := by
  obtain ⟨-, -, hc⟩ := lies_admitted h
  rw [exec_writeOf hu, memWrite_lies h]
  simp only [writeAdmitted, hc, conclude_done]
  rw [setRegionBytes_exp]
  rfl

/-- The bytes of an access in RAM are indices of the array (20_memory.md R62, R68). -/
theorem lies_ram_inside {c : Cfg} {a : Addr} {n : Width} (h : lies c a n .ram) :
    c.ramBase.toNat ≤ a.toNat ∧ a.toNat - c.ramBase.toNat + n.bytes ≤ c.ramSize := by
  obtain ⟨-, inside⟩ := h
  have hn := width_bytes_pos n
  obtain ⟨-, -, first⟩ := inside 0 hn
  obtain ⟨-, -, last⟩ := inside (n.bytes - 1) (by omega)
  have := classify_ram first
  have := classify_ram last
  omega

/-- A byte of RAM after a run of RAM is stored: the byte of the value inside the run, the old byte outside it. -/
theorem read_writeRange_beBytes {size off : Nat} {n : Width} {m : Memory} (v : BitVec 32)
    (hm : Memory.wf size m = true) (hn : off + n.bytes ≤ size) (j : Nat) :
    Memory.read (Memory.writeRange m off (beBytes n.bytes (truncated n v))) j =
      if off ≤ j ∧ j < off + n.bytes then BitVec.ofNat 8 (v.toNat / 2 ^ (8 * (n.bytes - 1 - (j - off))))
      else Memory.read m j := by
  rw [Laws.memory_read_writeRange hm (by simpa using hn), beBytes_length]
  split
  · next hj =>
    have hi : j - off < (beBytes n.bytes (truncated n v)).length := by rw [beBytes_length]; omega
    rw [← List.getElem_eq_getD (h := hi), beBytes_getElem, beByte_truncated]
  · rfl

/-- Settles O16: `exec_readOf_memory` in each of the three regions, and the big-endian value in arithmetic. -/
theorem memoryReads : Obligations.MemoryReads := by
  intro s n address hu a
  have answer {r : Region} (hr : r.isMemory = true) (h : lies s.cfg a n r) :
      ∃ v, exec (readOf n address) s = .next { s with reply := .okValue v } ∧
        v.toNat = beSum n.bytes fun i => regionByte s r (a.toNat + i) :=
    ⟨_, exec_readOf_memory hu hr h, beValue_regionBytes s r a.toNat n⟩
  exact ⟨answer rfl, answer rfl, answer rfl⟩

/-- Settles O17: the write is a run of RAM (`exec_writeOf_ram`), read back byte by byte. -/
theorem ramWrites : Obligations.RamWrites := by
  intro s n address v hu hm a h
  exact ⟨_, exec_writeOf_ram v hu h, read_writeRange_beBytes v hm (lies_ram_inside h).2⟩

/-! The expansion window (20_memory.md R73). -/

/-- Where EXP_BASE is a multiple of EXP_SIZE, the offset mode does not matter. -/
theorem expPhys_of_dvd {c : Cfg} (hd : c.expSize ∣ c.expBase.toNat) (bank : BitVec 32) {a : Nat}
    (ha : c.expBase.toNat ≤ a) : expPhys c bank a = (a + bank.toNat) % c.expSize := by
  unfold expPhys
  cases c.expOffsetMode with
  | absolute => rfl
  | relative =>
    obtain ⟨k, hk⟩ := hd
    have split : a + bank.toNat = (a - c.expBase.toNat + bank.toNat) + c.expSize * k := by omega
    rw [split, Nat.add_mul_mod_self_left]

/-- Numbers nearer to one another than `m` differ mod `m`. -/
theorem add_mod_inj {m k i j : Nat} (hij : i < j) (hj : j < m + i) : (k + j) % m ≠ (k + i) % m := by
  intro h
  have zero : (k + j - (k + i)) % m = 0 := Nat.sub_mod_eq_zero_of_mod_eq h
  rw [Nat.mod_eq_of_lt (by omega)] at zero
  omega

/-- Two bytes of an access no longer than the store have two indices. -/
theorem expPhys_ne {c : Cfg} (bank : BitVec 32) {a i j : Nat} (ha : c.expBase.toNat ≤ a) (hij : i < j)
    (hj : j < c.expSize) : expPhys c bank (a + j) ≠ expPhys c bank (a + i) := by
  unfold expPhys
  cases c.expOffsetMode with
  | absolute =>
    have := add_mod_inj (m := c.expSize) (k := a + bank.toNat) hij (by omega)
    simpa only [Nat.add_right_comm] using this
  | relative =>
    have := add_mod_inj (m := c.expSize) (k := a - c.expBase.toNat + bank.toNat) hij (by omega)
    simpa only [Nat.add_right_comm, Nat.sub_add_comm ha] using this

/-- An address of the expansion window is not below EXP_BASE. -/
theorem lies_exp_base_le {c : Cfg} {a : Addr} {n : Width} (h : lies c a n .exp) : c.expBase.toNat ≤ a.toNat := by
  obtain ⟨-, -, hc⟩ := lies_admitted h
  exact (classify_exp hc).1

/-- The last byte of a value stored at an index is the one it holds. -/
theorem storeExp_beBytes_read {c : Cfg} {bank : BitVec 32} {m : Memory} {a i : Nat} {n : Width} (v : BitVec 32)
    (hsize : 0 < c.expSize) (hm : Memory.wf c.expSize m = true) (hi : i < n.bytes)
    (hlast : ∀ j < n.bytes, i < j → expPhys c bank (a + j) ≠ expPhys c bank (a + i)) :
    Memory.read (storeExp c bank m a (beBytes n.bytes (truncated n v))) (expPhys c bank (a + i)) =
      BitVec.ofNat 8 (v.toNat / 2 ^ (8 * (n.bytes - 1 - i))) := by
  rw [storeExp_read_last hsize hm (by simpa using hi) (by simpa using hlast), beBytes_getElem, beByte_truncated]

/-- Settles O18: the stated index is `expPhys`, where the write stores (`exec_writeOf_exp`) and the read looks. -/
theorem expansionWindow : Obligations.ExpansionWindow := by
  intro s n address v hu hsize hm a phys h
  have hphys : phys = fun i => expPhys s.cfg s.expBank (a.toNat + i) := rfl
  rw [hphys]
  refine ⟨⟨_, exec_writeOf_exp v hu h, ?stored, ?other⟩, ?read, ?modes⟩
  case stored => exact fun i hi hlast => storeExp_beBytes_read v hsize hm hi hlast
  case other => exact fun p hp => storeExp_read_other hsize hm (by simpa using hp)
  case read => exact ⟨_, exec_readOf_memory hu rfl h, beValue_regionBytes s .exp a.toNat n⟩
  case modes =>
    have base := lies_exp_base_le h
    exact fun hd i _ => expPhys_of_dvd hd s.expBank (by omega)

/-! A value reads back (20_memory.md R87). -/

theorem beSum_congr {n : Nat} {f g : Nat → Byte} (h : ∀ i < n, f i = g i) : beSum n f = beSum n g := by
  unfold beSum
  congr 1
  exact List.map_congr_left fun i hi => by rw [h i (List.mem_range.mp hi)]

/-- A read of bytes that hold a value cut to the width answers it. -/
theorem exec_readOf_stored {s : State} {n : Width} {address : Addr} {v : BitVec 32} {r : Region} (hu : s.unmarked)
    (hr : r.isMemory = true) (h : lies s.cfg (maskAddr s.cfg address) n r)
    (hv : ∀ i < n.bytes, regionByte s r ((maskAddr s.cfg address).toNat + i) =
      BitVec.ofNat 8 (v.toNat / 2 ^ (8 * (n.bytes - 1 - i)))) :
    exec (readOf n address) s = .next { s with reply := .okValue (truncated n v) } := by
  have value : beValue (regionBytes s r (maskAddr s.cfg address).toNat n.bytes) = truncated n v := by
    apply BitVec.eq_of_toNat_eq
    rw [beValue_regionBytes, ← beSum_truncated]
    exact beSum_congr fun i hi => by rw [hv i hi, beByte_truncated]
  rw [exec_readOf_memory hu hr h, value]

/-- Settles O19: every byte of the access holds its byte of the value after the write (`exec_readOf_stored`). -/
theorem writtenValueReadsBack : Obligations.WrittenValueReadsBack := by
  intro s t u n address v hram hexp hlies hwrite hcfg huram huexp hbank hu
  have hs : s.unmarked := (exec_eq_next.mp hwrite).1
  rcases hlies with h | ⟨h, hfit⟩
  · rw [exec_writeOf_ram v hs h] at hwrite
    cases hwrite
    refine exec_readOf_stored (r := .ram) hu rfl (by rw [hcfg]; exact h) fun i hi => ?_
    obtain ⟨base, inside⟩ := lies_ram_inside h
    have offset : (maskAddr s.cfg address).toNat + i - s.cfg.ramBase.toNat -
        ((maskAddr s.cfg address).toNat - s.cfg.ramBase.toNat) = i := by omega
    simp only [regionByte, hcfg, huram]
    rw [read_writeRange_beBytes v hram inside, if_pos (by omega), offset]
  · rw [exec_writeOf_exp v hs h] at hwrite
    cases hwrite
    refine exec_readOf_stored (r := .exp) hu rfl (by rw [hcfg]; exact h) fun i hi => ?_
    have base := lies_exp_base_le h
    simp only [regionByte, hcfg, huexp, hbank]
    exact storeExp_beBytes_read v (by omega) hexp hi fun j hj hij => expPhys_ne _ base hij (by omega)

/-! ROM and unmapped addresses (20_memory.md R71, R74, R88). -/

/-- Settles O20: the ROM branch of an admitted write. -/
theorem romWritesAreDiscarded : Obligations.RomWritesAreDiscarded := by
  intro s n address v hu h
  obtain ⟨-, -, hc⟩ := lies_admitted h
  rw [exec_writeOf hu, memWrite_lies h]
  simp only [writeAdmitted, hc, conclude_done, emit, List.append_assoc, List.cons_append, List.nil_append]

/-- Settles O22: the unmapped branch of an admitted read and of an admitted write. -/
theorem unmappedAccesses : Obligations.UnmappedAccesses := by
  intro s n address v hu h
  obtain ⟨-, -, hc⟩ := lies_admitted h
  rw [exec_readOf hu, memRead_lies h, exec_writeOf hu, memWrite_lies h]
  simp only [readAdmitted, writeAdmitted, hc, conclude_done, emit, and_self]

/-- No instruction changes the ROM or the configuration. -/
theorem exec_keeps_rom {i : Instr} {s t : State} (h : exec i s = .next t) : t.rom = s.rom ∧ t.cfg = s.cfg := by
  obtain ⟨-, ⟨u, y, hdone, rfl⟩ | ⟨x, tr, -, rfl⟩⟩ := exec_cases h
  · have kept := operation_kept hdone
    exact ⟨kept.rom, kept.cfg⟩
  · exact ⟨rfl, rfl⟩

/-- No step changes the ROM or the configuration. -/
theorem step_keeps_rom {s t : State} (h : step s = .next t) : t.rom = s.rom ∧ t.cfg = s.cfg := by
  obtain ⟨k, rest, -, -, ⟨i, -, hexec⟩ | ⟨-, rfl⟩⟩ := step_cases h
  · have kept := exec_keeps_rom hexec
    exact kept
  · exact ⟨rfl, rfl⟩

/-- No run changes the ROM or the configuration. -/
theorem reaches_keeps_rom {s t : State} (h : Reaches s t) : t.rom = s.rom ∧ t.cfg = s.cfg := by
  induction h with
  | here => exact ⟨rfl, rfl⟩
  | next before last ih =>
    obtain ⟨hrom, hcfg⟩ := step_keeps_rom last
    exact ⟨hrom.trans ih.1, hcfg.trans ih.2⟩

/-- The value of one byte is the byte, zero-extended. -/
theorem beValue_singleton (b : Byte) : beValue [b] = b.setWidth 32 := by
  simp [beValue]

/-- Settles O21: the run keeps the ROM (`reaches_keeps_rom`), and a byte read in the window answers its byte. -/
theorem romNeverChanges : Obligations.RomNeverChanges := by
  intro s t h
  obtain ⟨hrom, hcfg⟩ := reaches_keeps_rom h
  refine ⟨hrom, hcfg, fun hu address hc => ?_⟩
  rw [← hcfg] at hc
  have answer := exec_readOf_memory hu rfl (lies_byte hc)
  simpa only [readOf, Width.bytes, regionBytes, List.range_one, List.map_cons, List.map_nil, Nat.add_zero,
    beValue_singleton, regionByte, hrom, hcfg] using answer

/-! Accesses that are not admitted (20_memory.md R67, R68, R77). -/

/-- What a check of the access raises, the read and the write raise. -/
theorem exec_access_of_raised {s : State} {n : Width} {address : Addr} (hu : s.unmarked) (v : BitVec 32)
    {x : Dir → Raise} {tr : Dir → List Event}
    (h : ∀ d, checkAccess s (maskAddr s.cfg address) n d = .raised (x d) (tr d)) :
    exec (readOf n address) s = .next (mark s (x .read) (tr .read)) ∧
      exec (writeOf n address v) s = .next (mark s (x .write) (tr .write)) := by
  rw [exec_readOf hu, exec_writeOf hu]
  simp only [memRead, memWrite, h, res_bind_raised, conclude_raised, and_self]

theorem checkAccess_misaligned_checked {s : State} {a : Addr} {n : Width} (h : ¬ aligned a n)
    (hc : s.cfg.addrErrCheck = true) (d : Dir) :
    checkAccess s a n d = .raised (.fault (.addressError a n d)) (s.trace ++ [.logAddressError a n d]) := by
  simp only [checkAccess, misaligned_eq_true.mpr h, hc, if_true]

theorem checkAccess_misaligned_unchecked {s : State} {a : Addr} {n : Width} (h : ¬ aligned a n)
    (hc : s.cfg.addrErrCheck = false) (d : Dir) :
    checkAccess s a n d = .raised (.refuse (.misalignedUnchecked a n d)) s.trace := by
  simp only [checkAccess, misaligned_eq_true.mpr h, hc, if_true, Bool.false_eq_true, if_false]

/-- An access straddles when one of its bytes is not in the region of the first. -/
theorem straddles_eq_true {c : Cfg} {a : Addr} {n : Width} (h : ∃ i < n.bytes, ¬ byteIn c a (classify c a.toNat) i) :
    straddles c a n = true := by
  obtain ⟨i, hi, hout⟩ := h
  cases hs : straddles c a n with
  | true => rfl
  | false => exact absurd (straddles_eq_false.mp hs i hi) hout

theorem checkAccess_straddle {s : State} {a : Addr} {n : Width} (h : aligned a n) (hs : straddles s.cfg a n = true)
    (d : Dir) : checkAccess s a n d = .raised (.refuse (.straddle a n)) s.trace := by
  simp only [checkAccess, misaligned_eq_false.mpr h, hs, if_true, Bool.false_eq_true, if_false]

/-- Settles O24: the access check refuses the access before its region is looked at. -/
theorem straddleIsRefused : Obligations.StraddleIsRefused := by
  intro s n address v hu a h hout
  obtain ⟨hread, hwrite⟩ := exec_access_of_raised hu v (checkAccess_straddle h (straddles_eq_true hout))
  exact ⟨⟨_, hread⟩, _, hwrite⟩

/-- Settles O25: the I/O branch of an admitted access takes bytes only. -/
theorem wideIoIsRefused : Obligations.WideIoIsRefused := by
  intro s n address v hu hn a h
  obtain ⟨-, -, (hc : classify s.cfg (maskAddr s.cfg address).toNat = .io)⟩ := lies_admitted h
  rw [exec_readOf hu, memRead_lies h, exec_writeOf hu, memWrite_lies h]
  simp only [readAdmitted, writeAdmitted, hc, readIo, writeIo, if_neg hn, conclude_raised]
  exact ⟨⟨_, rfl⟩, _, rfl⟩

/-! Which raises are the alignment check's (20_memory.md R67; 60_exceptions.md R272). -/

/-- The raise is the address error, or the refusal of an unchecked misaligned access. -/
def Raise.isAlignment : Raise → Bool
  | .fault (.addressError _ _ _) => true
  | .refuse (.misalignedUnchecked _ _ _) => true
  | _ => false

theorem res_map_eq_raised {α β : Type} {r : Res α} {f : α → β} {x : Raise} {tr : List Event} :
    r.map f = .raised x tr ↔ r = .raised x tr := by
  cases r <;> simp

/-- A byte of a block raises at most that the write is past the image (45_sd_data_phase.md R255, R257). -/
theorem receiveByte_not_alignment {c : Cfg} {b : Byte} {k : Card} {x : Raise} {tr : List Event}
    (h : receiveByte c b k = .raised x tr) : x.isAlignment = false := by
  unfold receiveByte at h
  simp only [] at h
  split at h
  · have hd := res_map_eq_raised.mp h
    rcases card_diskWrite_cases c _ _ _ with ⟨_, e, -⟩ | ⟨_, e, -⟩ | e <;> rw [e] at hd <;> cases hd
    rfl
  · cases h

/-- A command raises at most its block length (44_sd_commands.md R223). -/
theorem dispatch_not_alignment {c : Cfg} {k : Card} {x : Raise} {tr : List Event}
    (h : dispatch c k = .raised x tr) : x.isAlignment = false := by
  unfold dispatch at h
  simp only [] at h
  split at h
  case h_8 =>
    have hr := res_map_eq_raised.mp h
    unfold ruleCmd16 at hr
    simp only [] at hr
    split at hr <;> cases hr
    rfl
  all_goals cases h

theorem sdLatch_not_alignment {c : Cfg} {b : Byte} {k : Card} {x : Raise} {tr : List Event}
    (h : sdLatch c b k = .raised x tr) : x.isAlignment = false := by
  unfold sdLatch latchBody at h
  split at h
  · cases h
  · exact receiveByte_not_alignment h
  · have ht := res_map_eq_raised.mp h
    unfold frameTest at ht
    split at ht
    · cases ht
    · split at ht
      · exact dispatch_not_alignment ht
      · cases ht

/-- A register read raises at most the empty receive register (60_exceptions.md R275). -/
theorem ioRead_not_alignment {a : Addr} {s : State} {x : Raise} {tr : List Event}
    (h : ioRead a s = .raised x tr) : x.isAlignment = false := by
  unfold ioRead at h
  split at h
  case h_2 =>
    unfold duartDataRead at h
    split at h <;> cases h
    rfl
  all_goals cases h

/-- A register write raises at most what a latch raises. -/
theorem ioWrite_not_alignment {a : Addr} {b : Byte} {s : State} {x : Raise} {tr : List Event}
    (h : ioWrite a b s = .raised x tr) : x.isAlignment = false := by
  unfold ioWrite at h
  split at h
  case h_6 => exact sdLatch_not_alignment (spiOutWrite_raised h)
  all_goals cases h

/-- Past its alignment, the check of an access raises at most a straddle (20_memory.md R68). -/
theorem checkAccess_not_alignment {s : State} {a : Addr} {n : Width} {d : Dir} {x : Raise} {tr : List Event}
    (ha : aligned a n) (h : checkAccess s a n d = .raised x tr) : x.isAlignment = false := by
  unfold checkAccess at h
  rw [misaligned_eq_false.mpr ha] at h
  simp only [Bool.false_eq_true, if_false] at h
  split at h <;> cases h
  rfl

theorem memRead_not_alignment {s : State} {address : Addr} {n : Width} {x : Raise} {tr : List Event}
    (ha : aligned (maskAddr s.cfg address) n) (h : memRead address n s = .raised x tr) : x.isAlignment = false := by
  unfold memRead at h
  cases hc : checkAccess s (maskAddr s.cfg address) n .read with
  | raised x' tr' =>
    rw [hc] at h
    cases h
    exact checkAccess_not_alignment ha hc
  | done u =>
    rw [hc] at h
    simp only [res_bind_done, readAdmitted] at h
    split at h
    · unfold readIo at h
      split at h
      · exact ioRead_not_alignment (res_map_eq_raised.mp h)
      · cases h; rfl
    all_goals cases h

theorem memWrite_not_alignment {s : State} {address : Addr} {n : Width} {v : BitVec 32} {x : Raise}
    {tr : List Event} (ha : aligned (maskAddr s.cfg address) n) (h : memWrite address n v s = .raised x tr) :
    x.isAlignment = false := by
  unfold memWrite at h
  cases hc : checkAccess s (maskAddr s.cfg address) n .write with
  | raised x' tr' =>
    rw [hc] at h
    cases h
    exact checkAccess_not_alignment ha hc
  | done u =>
    rw [hc] at h
    simp only [res_bind_done, writeAdmitted] at h
    split at h
    · unfold writeIo at h
      split at h
      · exact ioWrite_not_alignment (res_map_eq_raised.mp h)
      · cases h; rfl
    all_goals cases h

/-- The state shows no outcome of the alignment check. -/
def State.noAlignmentMark (t : State) : Prop :=
  ∀ a n d, t.fault ≠ some (.addressError a n d) ∧ t.refused ≠ some (.misalignedUnchecked a n d)

/-- An unmarked state shows no outcome of the alignment check, nor does one marked by another raise. -/
theorem mark_noAlignmentMark {s : State} (hu : s.unmarked) {x : Raise} (hx : x.isAlignment = false)
    (tr : List Event) : (mark s x tr).noAlignmentMark := by
  intro a n d
  obtain ⟨hf, hr⟩ := hu
  constructor
  · rintro (e : x.faultMark s.fault = _)
    cases x with
    | fault f => cases e; cases hx
    | refuse r => cases hf.symm.trans e
  · rintro (e : x.refusalMark s.refused = _)
    cases x with
    | fault f => cases hr.symm.trans e
    | refuse r => cases e; cases hx

/-- An instruction whose operation raises nothing of the alignment check leaves no outcome of it. -/
theorem exec_noAlignmentMark {i : Instr} {s t : State}
    (hi : ∀ x tr, operation i s = .raised x tr → x.isAlignment = false) (h : exec i s = .next t) :
    t.noAlignmentMark := by
  obtain ⟨hu, ⟨u, y, hdone, rfl⟩ | ⟨x, tr, hraised, rfl⟩⟩ := exec_cases h
  · have kept := operation_kept hdone
    intro a n d
    simp [kept.fault, kept.refused, hu.1, hu.2]
  · exact mark_noAlignmentMark hu (hi x tr hraised) tr

/-- Settles O23: a misaligned access stops at its check, and no other check or register raises what that one does. -/
theorem misalignment : Obligations.Misalignment := by
  intro s n address v hu a
  refine ⟨fun ha hc => ?checked, fun ha hc => ?unchecked, fun ha i hi t ht d => ?aligned⟩
  case checked =>
    obtain ⟨hread, hwrite⟩ := exec_access_of_raised hu v (checkAccess_misaligned_checked ha hc)
    exact ⟨⟨_, hread⟩, _, hwrite⟩
  case unchecked =>
    obtain ⟨hread, hwrite⟩ := exec_access_of_raised hu v (checkAccess_misaligned_unchecked ha hc)
    exact ⟨⟨_, hread⟩, _, hwrite⟩
  case aligned =>
    refine exec_noAlignmentMark (fun x tr hx => ?_) ht a n d
    simp only [List.mem_cons, List.not_mem_nil, or_false] at hi
    rcases hi with rfl | rfl
    · rw [operation_readOf] at hx
      exact memRead_not_alignment ha hx
    · rw [operation_writeOf] at hx
      exact memWrite_not_alignment ha hx

/-! The step (20_memory.md R80). -/

/-- Settles O1: what `step` does with the call that `fetch` takes, under either verdict on the configuration. -/
theorem stepRunsTheDecodedInstruction : Obligations.StepRunsTheDecodedInstruction := by
  intro s k rest hcalls
  have hfetch : fetch s = some (k, { s with calls := rest }) := by simp only [fetch, hcalls]
  constructor
  · intro hv i hi
    simp only [step, hfetch, hv, if_true, hi]
  · intro hv
    simp only [step, hfetch, hv, Bool.false_eq_true, if_false]

/-! The expansion base register (20_memory.md R72). -/

/-- The byte of the register at `a`: `a` is EXP_BANK_ADDR + i. -/
theorem bankIndex_eq_some {c : Cfg} {a : Addr} {i : Fin 4} :
    bankIndex c a = some i ↔ ∃ b, c.expBankAddr = some b ∧ a.toNat = b.toNat + i.val := by
  unfold bankIndex
  cases c.expBankAddr with
  | none => simp
  | some b =>
    have hi := i.isLt
    simp only [Option.some.injEq, exists_eq_left']
    repeat' split
    all_goals simp [Fin.ext_iff]
    all_goals omega

/-- The low byte of a register of 32 bits. -/
theorem lowByte_getLsbD (k : Nat) : (0xFF : BitVec 32).getLsbD k = decide (k < 8) := by
  by_cases hk : k < 32
  · revert k; decide
  · rw [BitVec.getLsbD_of_ge _ k (by omega)]
    simp; omega

/-- Replacing byte `i` replaces bits 31-8i to 24-8i. -/
theorem setBankByte_getLsbD (bank : BitVec 32) (i : Fin 4) (b : Byte) (k : Nat) :
    (setBankByte bank i b).getLsbD k =
      if 24 - 8 * i.val ≤ k ∧ k < 32 - 8 * i.val then b.getLsbD (k - (24 - 8 * i.val)) else bank.getLsbD k := by
  have hi := i.isLt
  simp only [setBankByte, BitVec.getLsbD_or, BitVec.getLsbD_and, BitVec.getLsbD_not, BitVec.getLsbD_shiftLeft,
    BitVec.getLsbD_setWidth, lowByte_getLsbD]
  by_cases hk : k < 32
  · by_cases hlow : k < 24 - 8 * i.val
    · rw [if_neg (by omega)]
      simp [hk, hlow]
    · by_cases hin : k - (24 - 8 * i.val) < 8
      · rw [if_pos (by omega)]
        have : k - (24 - 8 * i.val) < 32 := by omega
        simp [hk, hlow, hin, this]
      · rw [if_neg (by omega)]
        simp [hk, hlow, hin, BitVec.getLsbD_of_ge b _ (by omega : 8 ≤ k - (24 - 8 * i.val))]
  · rw [if_neg (by omega)]
    simp [hk, BitVec.getLsbD_of_ge bank k (by omega)]

/-- Byte `i` of the register, in arithmetic. -/
theorem bankByte_toNat (bank : BitVec 32) (i : Fin 4) :
    (bankByte bank i).toNat = bank.toNat / 2 ^ (24 - 8 * i.val) % 256 := by
  simp only [bankByte, BitVec.extractLsb'_toNat, Nat.shiftRight_eq_div_pow]

/-- A register, a host event or an SD row changes the expansion base only as SETBANK, or as a write at one of the four
addresses. -/
theorem operation_expBank_row {j : Instr} {s u : State} {y : Reply} (hj : isRegisterRow j = true)
    (h : operation j s = .done (u, y)) (hne : u.expBank ≠ s.expBank) :
    (∃ v, j = .setbank v) ∨
      ∃ address v i, j = .expBankWrite address v ∧ bankIndex s.cfg (maskAddr s.cfg address) = some i := by
  by_cases hsd : j.isSdRow = true
  · rw [operation_sdRow hsd] at h
    obtain ⟨k, -, e⟩ := res_map_eq_done.mp h
    cases e
    exact absurd rfl hne
  · cases j with
    | readByte _ | readWord _ | readLong _ | writeByte _ _ | writeWord _ _ | writeLong _ _ => cases hj
    | setbank v => exact .inl ⟨v, rfl⟩
    | expBankWrite a v =>
      obtain ⟨p, hp, e⟩ := res_map_eq_done.mp h
      cases e
      split at hp
      · next i hi => exact .inr ⟨a, v, i, rfl, hi⟩
      · cases hp
        exact absurd rfl hne
    | expBankRead a =>
      obtain ⟨p, hp, e⟩ := res_map_eq_done.mp h
      cases e
      split at hp <;> cases hp <;> exact absurd rfl hne
    | spiOutWrite a v =>
      obtain ⟨p, hp, e⟩ := res_map_eq_done.mp h
      cases e
      rcases spiOutWrite_done hp with ⟨-, rfl⟩ | ⟨-, -, rfl⟩ | ⟨-, -, k, -, rfl⟩ <;> exact absurd rfl hne
    | duartDataRead a =>
      obtain ⟨p, hp, e⟩ := res_map_eq_done.mp h
      cases e
      unfold duartDataRead at hp
      split at hp <;> cases hp
      exact absurd rfl hne
    | iack l =>
      cases h
      refine absurd ?_ hne
      unfold acknowledge
      split
      · rfl
      · split <;> rfl
    | hostIn _ | tick | duartStatusRead _ | duartDataWrite _ _ | duartImrWrite _ _ | duartOtherWrite _ _
    | duartOtherRead _ | usbCmdWrite _ _ | usbDataWrite _ _ | usbDataRead _ | usbCmdRead _ | spiOutRead _
    | spiInRead _ | spiInWrite _ _ | ioUnimplementedWrite _ _ | ioUnimplementedRead _ =>
      cases h
      exact absurd rfl hne
    | _ => exact absurd rfl hsd

/-- A byte read in the I/O window decodes to a read row, which is neither SETBANK nor a write. -/
theorem decodeByteRead_ne_write {c : Cfg} {address : Addr} :
    (∀ v, decodeByteRead c address ≠ .setbank v) ∧ ∀ a v, decodeByteRead c address ≠ .expBankWrite a v := by
  unfold decodeByteRead
  split
  · split <;> exact ⟨nofun, nofun⟩
  · exact ⟨nofun, nofun⟩

/-- A byte write decodes to no host event, and to the bank's row only at its own address. -/
theorem decodeByteWrite_bank {c : Cfg} {address : Addr} {v : Byte} :
    (∀ w, decodeByteWrite c address v ≠ .setbank w) ∧
      ∀ a w, decodeByteWrite c address v = .expBankWrite a w → a = address := by
  unfold decodeByteWrite
  split
  · split
    case h_8 => exact ⟨nofun, fun a w e => by cases e; rfl⟩
    all_goals exact ⟨nofun, nofun⟩
  · exact ⟨nofun, nofun⟩

/-- SETBANK, and a byte write at one of the four addresses, alone change the expansion base. -/
theorem exec_expBank_changes {i : Instr} {s t : State} (h : exec i s = .next t) (hne : t.expBank ≠ s.expBank) :
    (∃ v, i = .setbank v) ∨ ∃ address v n, bankIndex s.cfg (maskAddr s.cfg address) = some n ∧
      (i = .expBankWrite address v ∨
        i = .writeByte address v ∧ classify s.cfg (maskAddr s.cfg address).toNat = .io) := by
  obtain ⟨-, ⟨u, y, hdone, rfl⟩ | ⟨x, tr, -, rfl⟩⟩ := exec_cases h
  · rcases operation_done_cases hdone with ⟨ev, rfl⟩ | ⟨n, a, v, -, ⟨-, rfl⟩ | ⟨-, rfl⟩⟩ | ⟨j, hj, hrow, hji⟩
    · exact absurd rfl hne
    · exact absurd rfl hne
    · exact absurd rfl hne
    · have changed := operation_expBank_row hj hrow hne
      rcases hji with rfl | ⟨address, rfl, rfl, hc⟩ | ⟨address, v, rfl, rfl, hc⟩
      · rcases changed with hset | ⟨a, v, n, rfl, hn⟩
        · exact .inl hset
        · exact .inr ⟨a, v, n, hn, .inl rfl⟩
      · rcases changed with ⟨v, e⟩ | ⟨a, v, n, e, -⟩
        · exact absurd e (decodeByteRead_ne_write.1 v)
        · exact absurd e (decodeByteRead_ne_write.2 a v)
      · rcases changed with ⟨w, e⟩ | ⟨a, w, n, e, hn⟩
        · exact absurd e (decodeByteWrite_bank.1 w)
        · obtain rfl := decodeByteWrite_bank.2 a w e
          exact .inr ⟨a, v, n, hn, .inr ⟨rfl, hc⟩⟩
  · exact absurd rfl hne

/-- Settles O26: the register's two rows at byte `i`, and `exec_expBank_changes` for the frame. -/
theorem expansionBaseRegister : Obligations.ExpansionBaseRegister := by
  refine ⟨fun s v hu => ?set, fun s b i address v hu hb hi ha => ?rows, fun i s t h hne => ?frame⟩
  case set => exact ⟨_, exec_unmarked hu (.setbank v)⟩
  case rows =>
    have hbank : bankIndex s.cfg (maskAddr s.cfg address) = some ⟨i, hi⟩ := bankIndex_eq_some.mpr ⟨b, hb, ha⟩
    refine ⟨⟨setBankByte s.expBank ⟨i, hi⟩ v, ?_, setBankByte_getLsbD s.expBank ⟨i, hi⟩ v⟩,
      bankByte s.expBank ⟨i, hi⟩, ?_, bankByte_toNat s.expBank ⟨i, hi⟩⟩
    · rw [exec_unmarked hu]
      simp only [operation, hbank, writeReply, expBankWrite, res_map_done, conclude_done]
    · rw [exec_unmarked hu]
      simp only [operation, hbank, readReply, expBankRead, res_map_done, conclude_done]
  case frame =>
    rcases exec_expBank_changes h hne with hset | ⟨address, v, n, hn, hi⟩
    · exact .inl hset
    · obtain ⟨b, hb, ha⟩ := bankIndex_eq_some.mp hn
      exact .inr ⟨b, address, v, hb, by omega, by omega, hi⟩

/-! The regions of a valid configuration (20_memory.md R62 to R64). -/

/-- What a valid configuration says of the address map (70_reset_and_hazards.md R302). -/
theorem validCfg_map {c : Cfg} (h : validCfg c = true) :
    regionsDisjoint c = true ∧ registersInIo c = true ∧ registersDistinct c = true := by
  simp only [validCfg, Bool.and_eq_true, and_assoc] at h
  obtain ⟨-, hregions, -, -, hio, hregisters, -⟩ := h
  exact ⟨hregions, hio, hregisters⟩

theorem inWindow_iff {base : Addr} {size a : Nat} :
    inWindow base size a = true ↔ base.toNat ≤ a ∧ a < base.toNat + size := by
  simp [inWindow]

theorem inIo_iff {c : Cfg} {a : Nat} : inIo c a = true ↔ c.ioBase.toNat ≤ a ∧ a < c.ioLimit := by
  simp [inIo]

/-- Disjoint intervals share no address. -/
theorem disjoint_not_both {b e b' e' a : Nat} (h : disjoint b e b' e' = true) (ha : b' ≤ a ∧ a < e') :
    ¬(b ≤ a ∧ a < e) := by
  simp only [disjoint, Bool.or_eq_true, decide_eq_true_eq] at h
  omega

/-- An address of the I/O window (20_memory.md R62). -/
theorem classify_io {c : Cfg} {a : Nat} (h : classify c a = .io) : c.ioBase.toNat ≤ a ∧ a < c.ioLimit := by
  unfold classify at h
  repeat (split at h; · cases h)
  split at h
  · next h' => exact inIo_iff.mp h'
  · cases h

/-- Under a valid configuration each region is its interval: no earlier region of `classify` holds the address. -/
theorem classify_iff {c : Cfg} (hv : validCfg c = true) (a : Nat) :
    (classify c a = .ram ↔ c.ramBase.toNat ≤ a ∧ a < c.ramBase.toNat + c.ramSize) ∧
    (classify c a = .rom ↔ c.romBase.toNat ≤ a ∧ a < c.romBase.toNat + c.romSize) ∧
    (classify c a = .exp ↔ c.expBase.toNat ≤ a ∧ a < c.expBase.toNat + c.expSize) ∧
    (classify c a = .io ↔ c.ioBase.toNat ≤ a ∧ a < c.ioLimit) := by
  obtain ⟨hregions, -, -⟩ := validCfg_map hv
  simp only [regionsDisjoint, Bool.and_eq_true, and_assoc] at hregions
  obtain ⟨ramRom, ramExp, ramIo, romExp, romIo, expIo⟩ := hregions
  refine ⟨⟨classify_ram, fun h => ?_⟩, ⟨classify_rom, fun h => ?_⟩, ⟨classify_exp, fun h => ?_⟩,
    ⟨classify_io, fun h => ?_⟩⟩
  · simp only [classify, inWindow_iff, h, and_self, if_true]
  · simp only [classify, inWindow_iff, if_neg (disjoint_not_both ramRom h), h, and_self, if_true]
  · simp only [classify, inWindow_iff, if_neg (disjoint_not_both ramExp h), if_neg (disjoint_not_both romExp h), h,
      and_self, if_true]
  · simp only [classify, inWindow_iff, inIo_iff, if_neg (disjoint_not_both ramIo h),
      if_neg (disjoint_not_both romIo h), if_neg (disjoint_not_both expIo h), h, and_self, if_true]

/-! The register an I/O address selects (20_memory.md R76; 30_encoding.md R103). -/

/-- The read-only registers of 30_encoding.md R103(b). -/
def readOnlyRegisters (c : Cfg) : List Addr := [c.duartSrAddr, c.duartRbAddr, c.spiInAddr]

/-- The write-only registers of 30_encoding.md R103(b). -/
def writeOnlyRegisters (c : Cfg) : List Addr := [c.duartTbAddr, c.duartImrAddr, c.usbCmdAddr]

theorem mem_readOnlyAddrs {c : Cfg} {a : Addr} : a.toNat ∈ readOnlyAddrs c ↔ a ∈ readOnlyRegisters c := by
  simp [readOnlyAddrs, readOnlyRegisters, BitVec.toNat_inj]

theorem mem_writeOnlyAddrs {c : Cfg} {a : Addr} : a.toNat ∈ writeOnlyAddrs c ↔ a ∈ writeOnlyRegisters c := by
  simp [writeOnlyAddrs, writeOnlyRegisters, BitVec.toNat_inj]

/-- An address is one of the bank's four if it selects a byte of the register. -/
theorem mem_bankAddrs {c : Cfg} {a : Addr} : a.toNat ∈ bankAddrs c ↔ bankIndex c a ≠ none := by
  unfold bankAddrs bankIndex
  cases c.expBankAddr with
  | none => simp
  | some b =>
    simp only [List.mem_cons, List.not_mem_nil, or_false]
    repeat' split
    all_goals simp [*]

theorem mem_otherAddrs {c : Cfg} {a : Addr} :
    a.toNat ∈ c.duartOtherAddrs.map (·.toNat) ↔ a ∈ c.duartOtherAddrs := by
  simp [BitVec.toNat_inj]

theorem mem_unsharedAddrs {c : Cfg} {a : Addr} : a.toNat ∈ unsharedAddrs c ↔
    a = c.usbDataAddr ∨ a = c.spiOutAddr ∨ bankIndex c a ≠ none ∨ a ∈ c.duartOtherAddrs := by
  simp only [unsharedAddrs, List.mem_cons, List.mem_append, mem_bankAddrs, mem_otherAddrs, BitVec.toNat_inj]

/-- A read-only or write-only register is no unshared one (30_encoding.md R103(c)). -/
theorem shared_not_unshared {c : Cfg} (hd : registersDistinct c = true) {a : Addr}
    (h : a ∈ readOnlyRegisters c ∨ a ∈ writeOnlyRegisters c) :
    a ≠ c.usbDataAddr ∧ a ≠ c.spiOutAddr ∧ bankIndex c a = none ∧ a ∉ c.duartOtherAddrs := by
  simp only [registersDistinct, Bool.and_eq_true, decide_eq_true_eq, List.nodup_append] at hd
  obtain ⟨⟨-, -, hread⟩, -, -, hwrite⟩ := hd
  have hout : a.toNat ∉ unsharedAddrs c := fun hu => by
    rcases h with h | h
    · exact hread _ (mem_readOnlyAddrs.mpr h) _ hu rfl
    · exact hwrite _ (mem_writeOnlyAddrs.mpr h) _ hu rfl
  simpa only [mem_unsharedAddrs, not_or, Decidable.not_not, ne_eq] using hout

/-- The unshared registers are distinct among themselves (30_encoding.md R103(c)). -/
theorem unsharedAddrs_nodup {c : Cfg} (hd : registersDistinct c = true) : (unsharedAddrs c).Nodup := by
  simp only [registersDistinct, Bool.and_eq_true, decide_eq_true_eq, List.nodup_append] at hd
  obtain ⟨⟨-, unshared, -⟩, -⟩ := hd
  exact unshared

/-- A byte of the bank is no other register that a read or a write has an effect on. -/
theorem bank_alone {c : Cfg} (hd : registersDistinct c = true) {a : Addr} (h : bankIndex c a ≠ none) :
    a ∉ readOnlyRegisters c ∧ a ∉ writeOnlyRegisters c ∧ a ≠ c.usbDataAddr ∧ a ≠ c.spiOutAddr := by
  have hn := unsharedAddrs_nodup hd
  simp only [unsharedAddrs, List.nodup_cons, List.mem_cons, List.mem_append, not_or] at hn
  obtain ⟨⟨-, usbBank, -⟩, ⟨spiBank, -⟩, -⟩ := hn
  have not_shared : ¬(a ∈ readOnlyRegisters c ∨ a ∈ writeOnlyRegisters c) := fun hs => by
    obtain ⟨-, -, noBank, -⟩ := shared_not_unshared hd hs
    exact h noBank
  refine ⟨fun hr => not_shared (.inl hr), fun hw => not_shared (.inr hw), ?_, ?_⟩
  · rintro rfl
    exact usbBank (mem_bankAddrs.mpr h)
  · rintro rfl
    exact spiBank (mem_bankAddrs.mpr h)

/-- An address of DUART_OTHER_ADDRS is no other register. -/
theorem other_alone {c : Cfg} (hd : registersDistinct c = true) {a : Addr} (h : a ∈ c.duartOtherAddrs) :
    a ∉ readOnlyRegisters c ∧ a ∉ writeOnlyRegisters c ∧ a ≠ c.usbDataAddr ∧ a ≠ c.spiOutAddr ∧
      bankIndex c a = none := by
  have hn := unsharedAddrs_nodup hd
  simp only [unsharedAddrs, List.nodup_cons, List.mem_cons, List.mem_append, not_or, List.nodup_append] at hn
  obtain ⟨⟨-, -, usbOther⟩, ⟨-, spiOther⟩, -, -, bankOther⟩ := hn
  have not_shared : ¬(a ∈ readOnlyRegisters c ∨ a ∈ writeOnlyRegisters c) := fun hs => by
    obtain ⟨-, -, -, noOther⟩ := shared_not_unshared hd hs
    exact noOther h
  refine ⟨fun hr => not_shared (.inl hr), fun hw => not_shared (.inr hw), ?_, ?_, ?_⟩
  · rintro rfl
    exact usbOther (mem_otherAddrs.mpr h)
  · rintro rfl
    exact spiOther (mem_otherAddrs.mpr h)
  · exact Decidable.not_not.mp fun hb => bankOther _ (mem_bankAddrs.mpr hb) _ (mem_otherAddrs.mpr h) rfl

/-- Addresses are distinct if their numbers are. -/
theorem addrs_nodup {as : List Addr} (h : (as.map (·.toNat)).Nodup) : as.Nodup :=
  List.Pairwise.of_map (·.toNat) (fun _ _ hne e => hne (congrArg _ e)) h

/-- The registers that a read has an effect on are distinct. -/
theorem readEffects_nodup {c : Cfg} (hd : registersDistinct c = true) :
    [c.duartSrAddr, c.duartRbAddr, c.spiInAddr, c.usbDataAddr, c.spiOutAddr].Nodup := by
  simp only [registersDistinct, Bool.and_eq_true, decide_eq_true_eq] at hd
  refine addrs_nodup (hd.1.sublist (List.IsPrefix.sublist ?_))
  exact ⟨bankAddrs c ++ c.duartOtherAddrs.map (·.toNat), rfl⟩

/-- The registers that a write has an effect on are distinct. -/
theorem writeEffects_nodup {c : Cfg} (hd : registersDistinct c = true) :
    [c.duartTbAddr, c.duartImrAddr, c.usbCmdAddr, c.usbDataAddr, c.spiOutAddr].Nodup := by
  simp only [registersDistinct, Bool.and_eq_true, decide_eq_true_eq] at hd
  refine addrs_nodup (hd.2.sublist (List.IsPrefix.sublist ?_))
  exact ⟨bankAddrs c ++ c.duartOtherAddrs.map (·.toNat), rfl⟩

/-- A read of a byte of the bank. -/
theorem readRow_bank {c : Cfg} {a : Addr} {i : Fin 4} (hr : a ∉ readOnlyRegisters c) (hu : a ≠ c.usbDataAddr)
    (hs : a ≠ c.spiOutAddr) (hb : bankIndex c a = some i) : readRow c a = .expBank i := by
  simp only [readOnlyRegisters, List.mem_cons, List.not_mem_nil, or_false, not_or] at hr
  simp only [readRow, hr, hu, hs, hb, if_false]

/-- A write of a byte of the bank. -/
theorem writeRow_bank {c : Cfg} {a : Addr} {i : Fin 4} (hw : a ∉ writeOnlyRegisters c) (hu : a ≠ c.usbDataAddr)
    (hs : a ≠ c.spiOutAddr) (hb : bankIndex c a = some i) : writeRow c a = .expBank i := by
  simp only [writeOnlyRegisters, List.mem_cons, List.not_mem_nil, or_false, not_or] at hw
  simp only [writeRow, hw, hu, hs, hb, if_false]

/-- Three branches with one answer are one. -/
theorem ite_or_or {α : Type} {p q r : Prop} [Decidable p] [Decidable q] [Decidable r] [Decidable (p ∨ q ∨ r)]
    (x y : α) : (if p then x else if q then x else if r then x else y) = if p ∨ q ∨ r then x else y := by
  by_cases hp : p
  · rw [if_pos hp, if_pos (.inl hp)]
  · by_cases hq : q
    · rw [if_neg hp, if_pos hq, if_pos (.inr (.inl hq))]
    · by_cases hr : r
      · rw [if_neg hp, if_neg hq, if_pos hr, if_pos (.inr (.inr hr))]
      · have none : ¬(p ∨ q ∨ r) := fun h => h.elim hp fun h => h.elim hq hr
        rw [if_neg hp, if_neg hq, if_neg hr, if_neg none]

/-- A read of an address that no read has an effect on. -/
theorem readRow_noEffect {c : Cfg} {a : Addr} (hr : a ∉ readOnlyRegisters c) (hu : a ≠ c.usbDataAddr)
    (hs : a ≠ c.spiOutAddr) (hb : bankIndex c a = none) :
    readRow c a = if a = c.duartTbAddr ∨ a = c.duartImrAddr ∨ a ∈ c.duartOtherAddrs then .duartOther
      else if a = c.usbCmdAddr then .usbCmd else .unimplemented := by
  simp only [readOnlyRegisters, List.mem_cons, List.not_mem_nil, or_false, not_or] at hr
  simp only [readRow, hr, hu, hs, hb, if_false, List.contains_iff_mem, ite_or_or]

/-- A write of an address that no write has an effect on. -/
theorem writeRow_noEffect {c : Cfg} {a : Addr} (hw : a ∉ writeOnlyRegisters c) (hu : a ≠ c.usbDataAddr)
    (hs : a ≠ c.spiOutAddr) (hb : bankIndex c a = none) :
    writeRow c a = if a = c.duartSrAddr ∨ a = c.duartRbAddr ∨ a ∈ c.duartOtherAddrs then .duartOther
      else if a = c.spiInAddr then .spiIn else .unimplemented := by
  simp only [writeOnlyRegisters, List.mem_cons, List.not_mem_nil, or_false, not_or] at hw
  simp only [writeRow, hw, hu, hs, hb, if_false, List.contains_iff_mem, ite_or_or]

/-- The rows of the registers that a read has an effect on. -/
theorem readRow_effects {c : Cfg} (hd : registersDistinct c = true) :
    readRow c c.duartSrAddr = .duartStatus ∧ readRow c c.duartRbAddr = .duartData ∧
      readRow c c.spiInAddr = .spiIn ∧ readRow c c.usbDataAddr = .usbData ∧ readRow c c.spiOutAddr = .spiOut := by
  have hn := readEffects_nodup hd
  simp only [List.nodup_cons, List.mem_cons, List.not_mem_nil, or_false, not_or] at hn
  obtain ⟨⟨sr1, sr2, sr3, sr4⟩, ⟨rb1, rb2, rb3⟩, ⟨in1, in2⟩, usb1, -⟩ := hn
  refine ⟨?_, ?_, ?_, ?_, ?_⟩
  · simp only [readRow, if_true]
  · simp only [readRow, Ne.symm sr1, if_true, if_false]
  · simp only [readRow, Ne.symm sr2, Ne.symm rb1, if_true, if_false]
  · simp only [readRow, Ne.symm sr3, Ne.symm rb2, Ne.symm in1, if_true, if_false]
  · simp only [readRow, Ne.symm sr4, Ne.symm rb3, Ne.symm in2, Ne.symm usb1, if_true, if_false]

/-- The rows of the registers that a write has an effect on. -/
theorem writeRow_effects {c : Cfg} (hd : registersDistinct c = true) :
    writeRow c c.duartTbAddr = .duartData ∧ writeRow c c.duartImrAddr = .duartImr ∧
      writeRow c c.usbCmdAddr = .usbCmd ∧ writeRow c c.usbDataAddr = .usbData ∧
      writeRow c c.spiOutAddr = .spiOut := by
  have hn := writeEffects_nodup hd
  simp only [List.nodup_cons, List.mem_cons, List.not_mem_nil, or_false, not_or] at hn
  obtain ⟨⟨tb1, tb2, tb3, tb4⟩, ⟨imr1, imr2, imr3⟩, ⟨cmd1, cmd2⟩, usb1, -⟩ := hn
  refine ⟨?_, ?_, ?_, ?_, ?_⟩
  · simp only [writeRow, if_true]
  · simp only [writeRow, Ne.symm tb1, if_true, if_false]
  · simp only [writeRow, Ne.symm tb2, Ne.symm imr1, if_true, if_false]
  · simp only [writeRow, Ne.symm tb3, Ne.symm imr2, Ne.symm cmd1, if_true, if_false]
  · simp only [writeRow, Ne.symm tb4, Ne.symm imr3, Ne.symm cmd2, Ne.symm usb1, if_true, if_false]

/-- Every register lies in the I/O window (30_encoding.md R103(a)). -/
theorem classify_register {c : Cfg} (hv : validCfg c = true) {a : Addr}
    (h : a ∈ readOnlyRegisters c ∨ a ∈ writeOnlyRegisters c ∨ a = c.usbDataAddr ∨ a = c.spiOutAddr ∨
      bankIndex c a ≠ none ∨ a ∈ c.duartOtherAddrs) : classify c a.toNat = .io := by
  obtain ⟨-, hio, -⟩ := validCfg_map hv
  obtain ⟨-, -, -, io_iff⟩ := classify_iff hv a.toNat
  simp only [registersInIo, List.all_eq_true, Bool.and_eq_true, decide_eq_true_eq] at hio
  refine io_iff.mpr (hio a.toNat ?_)
  rw [← mem_unsharedAddrs, ← mem_readOnlyAddrs, ← mem_writeOnlyAddrs] at h
  simpa only [List.mem_append, or_assoc] using h

/-- The byte of the bank at an address in it. -/
theorem bankIndex_of_inBank {c : Cfg} {a : Addr}
    (h : ∃ b, c.expBankAddr = some b ∧ b.toNat ≤ a.toNat ∧ a.toNat < b.toNat + 4) : ∃ i, bankIndex c a = some i := by
  obtain ⟨b, hb, lo, hi⟩ := h
  exact ⟨⟨a.toNat - b.toNat, by omega⟩, bankIndex_eq_some.mpr ⟨b, hb, by simp only; omega⟩⟩

/-- An address out of the bank selects no byte of it. -/
theorem bankIndex_of_not_inBank {c : Cfg} {a : Addr}
    (h : ¬ ∃ b, c.expBankAddr = some b ∧ b.toNat ≤ a.toNat ∧ a.toNat < b.toNat + 4) : bankIndex c a = none := by
  cases hi : bankIndex c a with
  | none => rfl
  | some i =>
    obtain ⟨b, hb, ha⟩ := bankIndex_eq_some.mp hi
    exact absurd ⟨b, hb, by omega, by omega⟩ h

/-- An I/O byte access is its row's instruction; any other is the bus row. -/
theorem decodeByte_not_io {c : Cfg} {address : Addr} (h : classify c (maskAddr c address).toNat ≠ .io) (v : Byte) :
    decodeByteRead c address = .readByte address ∧ decodeByteWrite c address v = .writeByte address v := by
  simp only [decodeByteRead, decodeByteWrite, h, if_false, and_self]

section
variable {c : Cfg} {address : Addr}

/-- The read column of 20_memory.md R76: registers that a read has an effect on. -/
theorem decodeByteRead_effects (hv : validCfg c = true) :
    ∀ r ∈ [(c.duartSrAddr, Instr.duartStatusRead address), (c.duartRbAddr, .duartDataRead address),
        (c.spiInAddr, .spiInRead address), (c.usbDataAddr, .usbDataRead address),
        (c.spiOutAddr, .spiOutRead address)],
      maskAddr c address = r.1 → decodeByteRead c address = r.2 := by
  obtain ⟨-, -, hd⟩ := validCfg_map hv
  obtain ⟨sr, rb, spiIn, usb, spiOut⟩ := readRow_effects hd
  have io {a : Addr} (h : a ∈ readOnlyRegisters c) : classify c a.toNat = .io := classify_register hv (.inl h)
  intro r hr ha
  simp only [List.mem_cons, List.not_mem_nil, or_false] at hr
  unfold decodeByteRead
  rw [ha]
  rcases hr with rfl | rfl | rfl | rfl | rfl
  · rw [if_pos (io (by simp [readOnlyRegisters])), sr]
  · rw [if_pos (io (by simp [readOnlyRegisters])), rb]
  · rw [if_pos (io (by simp [readOnlyRegisters])), spiIn]
  · rw [if_pos (classify_register hv (.inr (.inr (.inl rfl)))), usb]
  · rw [if_pos (classify_register hv (.inr (.inr (.inr (.inl rfl))))), spiOut]

/-- The write column of 20_memory.md R76: registers that a write has an effect on. -/
theorem decodeByteWrite_effects (hv : validCfg c = true) (v : Byte) :
    ∀ r ∈ [(c.duartTbAddr, Instr.duartDataWrite address v), (c.duartImrAddr, .duartImrWrite address v),
        (c.usbCmdAddr, .usbCmdWrite address v), (c.usbDataAddr, .usbDataWrite address v),
        (c.spiOutAddr, .spiOutWrite address v)],
      maskAddr c address = r.1 → decodeByteWrite c address v = r.2 := by
  obtain ⟨-, -, hd⟩ := validCfg_map hv
  obtain ⟨tb, imr, cmd, usb, spiOut⟩ := writeRow_effects hd
  have io {a : Addr} (h : a ∈ writeOnlyRegisters c) : classify c a.toNat = .io := classify_register hv (.inr (.inl h))
  intro r hr ha
  simp only [List.mem_cons, List.not_mem_nil, or_false] at hr
  unfold decodeByteWrite
  rw [ha]
  rcases hr with rfl | rfl | rfl | rfl | rfl
  · rw [if_pos (io (by simp [writeOnlyRegisters])), tb]
  · rw [if_pos (io (by simp [writeOnlyRegisters])), imr]
  · rw [if_pos (io (by simp [writeOnlyRegisters])), cmd]
  · rw [if_pos (classify_register hv (.inr (.inr (.inl rfl)))), usb]
  · rw [if_pos (classify_register hv (.inr (.inr (.inr (.inl rfl))))), spiOut]

/-- A read of a write-only register that is not shared. -/
theorem decodeByteRead_writeOnly (hv : validCfg c = true) :
    ∀ r ∈ [(c.duartTbAddr, Instr.duartOtherRead address), (c.duartImrAddr, .duartOtherRead address),
        (c.usbCmdAddr, .usbCmdRead address)],
      maskAddr c address = r.1 → maskAddr c address ∉ readOnlyRegisters c → decodeByteRead c address = r.2 := by
  obtain ⟨-, -, hd⟩ := validCfg_map hv
  intro r hr ha hnot
  have hw : maskAddr c address ∈ writeOnlyRegisters c := by
    rw [ha]
    simp only [List.mem_cons, List.not_mem_nil, or_false] at hr
    rcases hr with rfl | rfl | rfl <;> simp [writeOnlyRegisters]
  obtain ⟨hu, hs, hb, ho⟩ := shared_not_unshared hd (.inr hw)
  have distinct := writeEffects_nodup hd
  simp only [List.nodup_cons, List.mem_cons, List.not_mem_nil, or_false, not_or] at distinct
  obtain ⟨⟨-, tbCmd, -⟩, ⟨imrCmd, -⟩, -⟩ := distinct
  simp only [decodeByteRead, classify_register hv (.inr (.inl hw)), if_true, readRow_noEffect hnot hu hs hb, ho,
    or_false]
  rw [ha]
  simp only [List.mem_cons, List.not_mem_nil, or_false] at hr
  rcases hr with rfl | rfl | rfl
  · simp
  · simp
  · simp [Ne.symm tbCmd, Ne.symm imrCmd]

/-- A write of a read-only register that is not shared. -/
theorem decodeByteWrite_readOnly (hv : validCfg c = true) (v : Byte) :
    ∀ r ∈ [(c.duartSrAddr, Instr.duartOtherWrite address v), (c.duartRbAddr, .duartOtherWrite address v),
        (c.spiInAddr, .spiInWrite address v)],
      maskAddr c address = r.1 → maskAddr c address ∉ writeOnlyRegisters c →
        decodeByteWrite c address v = r.2 := by
  obtain ⟨-, -, hd⟩ := validCfg_map hv
  intro r hr ha hnot
  have hr' : maskAddr c address ∈ readOnlyRegisters c := by
    rw [ha]
    simp only [List.mem_cons, List.not_mem_nil, or_false] at hr
    rcases hr with rfl | rfl | rfl <;> simp [readOnlyRegisters]
  obtain ⟨hu, hs, hb, ho⟩ := shared_not_unshared hd (.inl hr')
  have distinct := readEffects_nodup hd
  simp only [List.nodup_cons, List.mem_cons, List.not_mem_nil, or_false, not_or] at distinct
  obtain ⟨⟨-, srIn, -⟩, ⟨rbIn, -⟩, -⟩ := distinct
  simp only [decodeByteWrite, classify_register hv (.inl hr'), if_true, writeRow_noEffect hnot hu hs hb, ho, or_false]
  rw [ha]
  simp only [List.mem_cons, List.not_mem_nil, or_false] at hr
  rcases hr with rfl | rfl | rfl
  · simp
  · simp
  · simp [Ne.symm srIn, Ne.symm rbIn]

/-- A read and a write of an address of DUART_OTHER_ADDRS. -/
theorem decodeByte_other (hv : validCfg c = true) (h : maskAddr c address ∈ c.duartOtherAddrs) (v : Byte) :
    decodeByteRead c address = .duartOtherRead address ∧
      decodeByteWrite c address v = .duartOtherWrite address v := by
  obtain ⟨-, -, hd⟩ := validCfg_map hv
  obtain ⟨hr, hw, hu, hs, hb⟩ := other_alone hd h
  have io := classify_register hv (.inr (.inr (.inr (.inr (.inr h)))))
  simp only [decodeByteRead, decodeByteWrite, io, if_true, readRow_noEffect hr hu hs hb,
    writeRow_noEffect hw hu hs hb, h, or_true, and_self]

/-- A read and a write of a byte of the bank. -/
theorem decodeByte_bank (hv : validCfg c = true) {i : Fin 4} (h : bankIndex c (maskAddr c address) = some i)
    (v : Byte) :
    decodeByteRead c address = .expBankRead address ∧ decodeByteWrite c address v = .expBankWrite address v := by
  obtain ⟨-, -, hd⟩ := validCfg_map hv
  have some_ne : bankIndex c (maskAddr c address) ≠ none := by simp [h]
  obtain ⟨hr, hw, hu, hs⟩ := bank_alone hd some_ne
  have io := classify_register hv (.inr (.inr (.inr (.inr (.inl some_ne)))))
  simp only [decodeByteRead, decodeByteWrite, io, if_true, readRow_bank hr hu hs h, writeRow_bank hw hu hs h, and_self]

/-- A read and a write of an I/O address with no register. -/
theorem decodeByte_unimplemented (hio : classify c (maskAddr c address).toNat = .io)
    (h : maskAddr c address ∉ readOnlyRegisters c ++ writeOnlyRegisters c ++ [c.usbDataAddr, c.spiOutAddr] ++
      c.duartOtherAddrs) (hb : bankIndex c (maskAddr c address) = none) (v : Byte) :
    decodeByteRead c address = .ioUnimplementedRead address ∧
      decodeByteWrite c address v = .ioUnimplementedWrite address v := by
  simp only [List.mem_append, List.mem_cons, List.not_mem_nil, or_false, not_or] at h
  obtain ⟨⟨⟨hr, hw⟩, hu, hs⟩, ho⟩ := h
  simp only [decodeByteRead, decodeByteWrite, hio, if_true, readRow_noEffect hr hu hs hb,
    writeRow_noEffect hw hu hs hb]
  simp only [readOnlyRegisters, writeOnlyRegisters, List.mem_cons, List.not_mem_nil, or_false, not_or] at hr hw
  simp only [hr, hw, ho, or_self, if_false, and_self]

end

/-- Two instructions that run one operation answer alike. -/
theorem exec_congr {i j : Instr} {s : State} (h : operation i s = operation j s) : exec i s = exec j s := by
  simp only [exec_eq_perform, perform, h]

/-- Settles O7: a byte access in the I/O window is its row's operation, and the map gives the row of each address. -/
theorem byteAccessRunsItsRegisterRow : Obligations.ByteAccessRunsItsRegisterRow := by
  refine ⟨fun s address v h => ⟨exec_congr (operation_byteRead h), exec_congr (operation_byteWrite v h)⟩,
    fun c hv => ⟨classify_iff hv, fun address v => ?_⟩⟩
  intro a readOnly writeOnly inBank
  obtain ⟨-, -, -, io_iff⟩ := classify_iff hv a.toNat
  refine ⟨decodeByteRead_effects hv, decodeByteRead_writeOnly hv, fun h => (decodeByte_other hv h v).1, fun h => ?_,
    decodeByteWrite_effects hv v, decodeByteWrite_readOnly hv v, fun h => (decodeByte_other hv h v).2, fun h => ?_,
    fun hio h hb => ?_, fun hio => ?_⟩
  · obtain ⟨i, hi⟩ := bankIndex_of_inBank h
    exact (decodeByte_bank hv hi v).1
  · obtain ⟨i, hi⟩ := bankIndex_of_inBank h
    exact (decodeByte_bank hv hi v).2
  · exact decodeByte_unimplemented (io_iff.mpr hio) h (bankIndex_of_not_inBank hb) v
  · exact decodeByte_not_io (fun h => hio (io_iff.mp h)) v

end Sys2Proof.Machine

namespace Sys2Proof.Machine

/-! The instruction of a register, and of a command (20_memory.md R76; 30_encoding.md R111). -/

/-- The row of a read that selects `row`, at `address`. -/
def readInstr (row : ReadRow) (address : Addr) : Instr :=
  match row with
  | .duartStatus => .duartStatusRead address
  | .duartData => .duartDataRead address
  | .duartOther => .duartOtherRead address
  | .usbData => .usbDataRead address
  | .usbCmd => .usbCmdRead address
  | .spiOut => .spiOutRead address
  | .spiIn => .spiInRead address
  | .expBank _ => .expBankRead address
  | .unimplemented => .ioUnimplementedRead address

/-- The row of a write of `v` that selects `row`, at `address`. -/
def writeInstr (row : WriteRow) (address : Addr) (v : Byte) : Instr :=
  match row with
  | .duartData => .duartDataWrite address v
  | .duartImr => .duartImrWrite address v
  | .duartOther => .duartOtherWrite address v
  | .usbData => .usbDataWrite address v
  | .usbCmd => .usbCmdWrite address v
  | .spiOut => .spiOutWrite address v
  | .spiIn => .spiInWrite address v
  | .expBank _ => .expBankWrite address v
  | .unimplemented => .ioUnimplementedWrite address v

/-- The row of the command that `key` selects; only an unrecognized one carries its index. -/
def sdInstr (key : SdKey) (index : BitVec 6) (argument : BitVec 32) (crc : BitVec 7) : Instr :=
  match key with
  | .cmd0 => .cmd0 argument crc
  | .cmd1 => .cmd1 argument crc
  | .cmd8 => .cmd8 argument crc
  | .cmd9 => .cmd9 argument crc
  | .cmd10 => .cmd10 argument crc
  | .cmd12 => .cmd12 argument crc
  | .cmd13 => .cmd13 argument crc
  | .cmd16 => .cmd16 argument crc
  | .cmd17 => .cmd17 argument crc
  | .cmd18 => .cmd18 argument crc
  | .cmd24 => .cmd24 argument crc
  | .acmd41 => .acmd41 argument crc
  | .cmd41 => .cmd41 argument crc
  | .cmd55 => .cmd55 argument crc
  | .cmd58 => .cmd58 argument crc
  | .cmd59 => .cmd59 argument crc
  | .unrecognized => .cmdUnrecognized index argument crc

/-- The index of the command that `key` selects, which for an unrecognized one is the frame's own (30_encoding.md
R111). -/
def sdIndex (key : SdKey) (index : BitVec 6) : BitVec 6 :=
  match key with
  | .cmd0 => 0
  | .cmd1 => 1
  | .cmd8 => 8
  | .cmd9 => 9
  | .cmd10 => 10
  | .cmd12 => 12
  | .cmd13 => 13
  | .cmd16 => 16
  | .cmd17 => 17
  | .cmd18 => 18
  | .cmd24 => 24
  | .acmd41 => 41
  | .cmd41 => 41
  | .cmd55 => 55
  | .cmd58 => 58
  | .cmd59 => 59
  | .unrecognized => index

/-! The dispatch key (30_encoding.md R111). -/

/-- A key is selected by its own index only. -/
theorem sdIndex_sdKey : ∀ (index : BitVec 6) (app : Bool), sdIndex (sdKey index app) index = index := by decide

theorem sdKey_unrecognized_iff : ∀ (index : BitVec 6) (app : Bool),
    sdKey index app = .unrecognized ↔ sdIndices.contains index.toNat = false := by decide

/-- The flag tells the two commands of index 41 apart. -/
theorem sdKey_flag : ∀ (index : BitVec 6) (app : Bool),
    (sdKey index app = .acmd41 → app = true) ∧ (sdKey index app = .cmd41 → app = false) := by decide

theorem wellFormed_sdInstr (c : Cfg) (app : Bool) (index : BitVec 6) (argument : BitVec 32) (crc : BitVec 7) :
    (sdInstr (sdKey index app) index argument crc).wellFormed c app = true := by
  obtain ⟨hacmd, hcmd⟩ := sdKey_flag index app
  cases hkey : sdKey index app with
  | acmd41 => exact hacmd hkey
  | cmd41 => simp only [sdInstr, Instr.wellFormed, hcmd hkey, Bool.not_false]
  | unrecognized =>
    simp only [sdInstr, Instr.wellFormed, (sdKey_unrecognized_iff index app).mp hkey, Bool.not_false]
  | _ => rfl

/-! Frames (30_encoding.md R108 to R111). -/

/-- The two fields that are checked (30_encoding.md R109). -/
theorem window_valid_iff {f : Window} : f.valid = true ↔ f.b0 &&& 0xC0 = 0x40 ∧ f.b5 &&& 0x01 = 0x01 := by
  simp only [Window.valid, Bool.and_eq_true, decide_eq_true_eq]

theorem decodeFrame_valid {f : Window} (h : f.valid = true) (app : Bool) :
    decodeFrame app f = .ok (sdInstr (sdKey f.index app) f.index f.argument f.crc) := by
  rw [decodeFrame, if_pos h]
  cases sdKey f.index app <;> rfl

theorem decodeFrame_ok_iff {app : Bool} {f : Window} {i : Instr} :
    decodeFrame app f = .ok i ↔ f.valid = true ∧ i = sdInstr (sdKey f.index app) f.index f.argument f.crc := by
  by_cases h : f.valid = true
  · simp only [decodeFrame_valid h, h, Except.ok.injEq, true_and, eq_comm]
  · simp only [decodeFrame, h, Bool.false_eq_true, if_false, reduceCtorEq, false_and]

/-- The frame of a command decodes to the row of its index. -/
theorem decode_frameOf (c : Cfg) (app : Bool) (index : BitVec 6) (argument : BitVec 32) (crc : BitVec 7) :
    decode c app (.frame (frameOf index argument crc)) = .ok (sdInstr (sdKey index app) index argument crc) := by
  rw [decode, decodeFrame_valid (frameOf_valid index argument crc), frameOf_index, frameOf_argument, frameOf_crc]

theorem encode_sdInstr (key : SdKey) (index : BitVec 6) (argument : BitVec 32) (crc : BitVec 7) :
    encode (sdInstr key index argument crc) = .frame (frameOf (sdIndex key index) argument crc) := by
  cases key <;> rfl

/-- A frame is the encoding of what it decodes to. -/
theorem encode_of_decodeFrame {app : Bool} {f : Window} {i : Instr} (h : decodeFrame app f = .ok i) :
    encode i = .frame f := by
  obtain ⟨hf, rfl⟩ := decodeFrame_ok_iff.mp h
  rw [encode_sdInstr, sdIndex_sdKey, frameOf_fields hf]

/-! Byte accesses (20_memory.md R75, R76). -/

theorem decodeByteRead_io {c : Cfg} {address : Addr} (h : classify c (maskAddr c address).toNat = .io) :
    decodeByteRead c address = readInstr (readRow c (maskAddr c address)) address := by
  rw [decodeByteRead, if_pos h]
  cases readRow c (maskAddr c address) <;> rfl

theorem decodeByteWrite_io {c : Cfg} {address : Addr} (h : classify c (maskAddr c address).toNat = .io) (v : Byte) :
    decodeByteWrite c address v = writeInstr (writeRow c (maskAddr c address)) address v := by
  rw [decodeByteWrite, if_pos h]
  cases writeRow c (maskAddr c address) <;> rfl

theorem not_isIo_iff {c : Cfg} {address : Addr} :
    (!Instr.isIo c address) = true ↔ classify c (maskAddr c address).toNat ≠ .io := by
  simp only [Instr.isIo, Bool.not_eq_true', decide_eq_false_iff_not, ne_eq]

theorem readsRow_iff {c : Cfg} {address : Addr} {row : ReadRow} : Instr.readsRow c address row = true ↔
    classify c (maskAddr c address).toNat = .io ∧ readRow c (maskAddr c address) = row := by
  simp only [Instr.readsRow, Bool.and_eq_true, decide_eq_true_eq]

theorem writesRow_iff {c : Cfg} {address : Addr} {row : WriteRow} : Instr.writesRow c address row = true ↔
    classify c (maskAddr c address).toNat = .io ∧ writeRow c (maskAddr c address) = row := by
  simp only [Instr.writesRow, Bool.and_eq_true, decide_eq_true_eq]

/-- The row of a register read is well-formed where the read selects that register; the four bytes of the bank share a
row. -/
theorem wellFormed_readInstr {c : Cfg} {address : Addr} {row : ReadRow} (app : Bool)
    (h : Instr.readsRow c address row = true) : (readInstr row address).wellFormed c app = true := by
  cases row with
  | expBank i => exact List.any_eq_true.mpr ⟨i, List.mem_finRange i, h⟩
  | _ => exact h

theorem wellFormed_writeInstr {c : Cfg} {address : Addr} {row : WriteRow} (app : Bool) (v : Byte)
    (h : Instr.writesRow c address row = true) : (writeInstr row address v).wellFormed c app = true := by
  cases row with
  | expBank i => exact List.any_eq_true.mpr ⟨i, List.mem_finRange i, h⟩
  | _ => exact h

theorem wellFormed_decodeByteRead (c : Cfg) (app : Bool) (address : Addr) :
    (decodeByteRead c address).wellFormed c app = true := by
  by_cases h : classify c (maskAddr c address).toNat = .io
  · rw [decodeByteRead_io h]
    exact wellFormed_readInstr app (readsRow_iff.mpr ⟨h, rfl⟩)
  · rw [(decodeByte_not_io h 0).1]
    exact not_isIo_iff.mpr h

theorem wellFormed_decodeByteWrite (c : Cfg) (app : Bool) (address : Addr) (v : Byte) :
    (decodeByteWrite c address v).wellFormed c app = true := by
  by_cases h : classify c (maskAddr c address).toNat = .io
  · rw [decodeByteWrite_io h]
    exact wellFormed_writeInstr app v (writesRow_iff.mpr ⟨h, rfl⟩)
  · rw [(decodeByte_not_io h v).2]
    exact not_isIo_iff.mpr h

/-! Calls (30_encoding.md R100). -/

/-- The value of a narrow operand comes back from the 32 bits of a call (20_memory.md R66). -/
theorem setWidth_setWidth_call {n : Nat} (h : n ≤ 32) (v : BitVec n) : (v.setWidth 32).setWidth n = v := by
  rw [BitVec.setWidth_setWidth_of_le v h, BitVec.setWidth_eq]

theorem decode_byteReadCall (c : Cfg) (app : Bool) (address : Addr) :
    decode c app (byteReadCall address) = .ok (decodeByteRead c address) := rfl

theorem decode_byteWriteCall (c : Cfg) (app : Bool) (address : Addr) (v : Byte) :
    decode c app (byteWriteCall address v) = .ok (decodeByteWrite c address v) := by
  change Except.ok (decodeByteWrite c address ((v.setWidth 32).setWidth 8)) = _
  rw [setWidth_setWidth_call (by decide)]

theorem encode_readInstr (row : ReadRow) (address : Addr) : encode (readInstr row address) = byteReadCall address := by
  cases row <;> rfl

theorem encode_writeInstr (row : WriteRow) (address : Addr) (v : Byte) :
    encode (writeInstr row address v) = byteWriteCall address v := by
  cases row <;> rfl

/-- The row of a register read comes back where the read selects that register. -/
theorem decode_encode_readInstr {c : Cfg} {address : Addr} {row : ReadRow} (app : Bool)
    (h : Instr.readsRow c address row = true) :
    decode c app (encode (readInstr row address)) = .ok (readInstr row address) := by
  obtain ⟨hio, hrow⟩ := readsRow_iff.mp h
  rw [encode_readInstr, decode_byteReadCall, decodeByteRead_io hio, hrow]

theorem decode_encode_writeInstr {c : Cfg} {address : Addr} {row : WriteRow} (app : Bool) (v : Byte)
    (h : Instr.writesRow c address row = true) :
    decode c app (encode (writeInstr row address v)) = .ok (writeInstr row address v) := by
  obtain ⟨hio, hrow⟩ := writesRow_iff.mp h
  rw [encode_writeInstr, decode_byteWriteCall, decodeByteWrite_io hio, hrow]

/-- The codes of 30_encoding.md R100. -/
def listedCodes : List (BitVec 8) := [0x00, 0x01, 0x02, 0x40, 0x41, 0x42, 0x80, 0xC0, 0xC4, 0xC8]

theorem decodeCall_reserved {k : Call} (h : k.tcode ∉ listedCodes) (c : Cfg) :
    decodeCall c k = .error (.reservedTransaction k.tcode) := by
  unfold decodeCall
  split
  case h_11 => rfl
  all_goals
    next hcode => exact absurd (by simp [listedCodes, ← BitVec.toNat_inj, hcode]) h

theorem wellFormed_of_decodeCall {c : Cfg} {k : Call} {i : Instr} (app : Bool) (h : decodeCall c k = .ok i) :
    i.wellFormed c app = true := by
  unfold decodeCall at h
  split at h <;> cases h
  case h_1 => exact wellFormed_decodeByteRead c app k.address
  case h_4 => exact wellFormed_decodeByteWrite c app k.address _
  all_goals rfl

/-- What is decoded is well-formed (30_encoding.md R100, R111). -/
theorem wellFormed_of_decode {c : Cfg} {app : Bool} {e : Encoded} {i : Instr} (h : decode c app e = .ok i) :
    i.wellFormed c app = true := by
  cases e with
  | call k => exact wellFormed_of_decodeCall app h
  | frame f =>
    obtain ⟨-, rfl⟩ := decodeFrame_ok_iff.mp h
    exact wellFormed_sdInstr c app _ _ _

/-- A call with a reserved code is taken, and its refusal marked (30_encoding.md R100; log 2). -/
theorem step_reserved {s : State} {k : Call} {rest : List Call} (hk : k.tcode ∉ listedCodes)
    (hv : validCfg s.cfg = true) (hu : s.unmarked) (hcalls : s.calls = k :: rest) :
    step s = .next (mark { s with calls := rest } (.refuse (.reservedTransaction k.tcode)) s.trace) := by
  have hfetch : fetch s = some (k, { s with calls := rest }) := by simp only [fetch, hcalls]
  have hrest : State.unmarked { s with calls := rest } := hu
  simp only [step, hfetch, hv, if_true, decodeCall_reserved hk, reservedStep, perform_unmarked hrest, conclude_raised]

/-- Settles O4: a call comes back by its code and the row its address selects, a frame by its key. -/
theorem decodeAfterEncode : Obligations.DecodeAfterEncode := by
  intro c app i h
  cases i with
  | readByte address =>
    rw [encode, decode_byteReadCall, (decodeByte_not_io (not_isIo_iff.mp h) 0).1]
  | writeByte address v =>
    rw [encode, decode_byteWriteCall, (decodeByte_not_io (not_isIo_iff.mp h) v).2]
  | writeWord address v =>
    exact congrArg (fun w => Except.ok (Instr.writeWord address w)) (setWidth_setWidth_call (by decide) v)
  | hostIn b => exact congrArg (fun w => Except.ok (Instr.hostIn w)) (setWidth_setWidth_call (by decide) b)
  | readWord _ | readLong _ | writeLong _ _ | iack _ | tick | setbank _ => rfl
  | expBankRead address =>
    obtain ⟨n, -, hn⟩ := List.any_eq_true.mp h
    exact decode_encode_readInstr app hn
  | expBankWrite address v =>
    obtain ⟨n, -, hn⟩ := List.any_eq_true.mp h
    exact decode_encode_writeInstr app v hn
  | duartStatusRead _ | duartDataRead _ | duartOtherRead _ | usbDataRead _ | usbCmdRead _ | spiOutRead _ | spiInRead _
  | ioUnimplementedRead _ => exact (decode_encode_readInstr app h :)
  | duartDataWrite _ v | duartImrWrite _ v | duartOtherWrite _ v | usbCmdWrite _ v | usbDataWrite _ v | spiOutWrite _ v
  | spiInWrite _ v | ioUnimplementedWrite _ v => exact (decode_encode_writeInstr app v h :)
  | acmd41 argument crc =>
    obtain rfl : app = true := h
    exact decode_frameOf c true 41 argument crc
  | cmd41 argument crc =>
    obtain rfl : app = false := by simpa only [Instr.wellFormed, Bool.not_eq_true'] using h
    exact decode_frameOf c false 41 argument crc
  | cmdUnrecognized index argument crc =>
    have hkey : sdKey index app = .unrecognized :=
      (sdKey_unrecognized_iff index app).mpr (by simpa only [Instr.wellFormed, Bool.not_eq_true'] using h)
    rw [encode, decode_frameOf, hkey, sdInstr]
  | cmd0 _ _ | cmd1 _ _ | cmd8 _ _ | cmd9 _ _ | cmd10 _ _ | cmd12 _ _ | cmd13 _ _ | cmd16 _ _ | cmd17 _ _ | cmd18 _ _
  | cmd24 _ _ | cmd55 _ _ | cmd58 _ _ | cmd59 _ _ => exact decode_frameOf c app _ _ _

/-- Settles O2: each code picks its arm of the decoder, and every other code stops the step at its refusal. -/
theorem transactionCodes : Obligations.TransactionCodes := by
  intro c k
  have low : ∀ n ≤ 32, k.value.extractLsb' 0 n = k.value.setWidth n := fun n hn =>
    (BitVec.setWidth_eq_extractLsb' hn).symm
  rw [low 8 (by decide), low 16 (by decide)]
  refine ⟨?_, ?_, ?_, ?_, ?_, ?_, ?_, ?_, ?_, ?_, ?reserved⟩
  case reserved =>
    rintro hk s rest rfl hv hu hcalls
    exact step_reserved hk hv hu hcalls
  all_goals
    intro hcode
    rw [decodeCall, hcode]
    rfl

/-- Settles O5: well-formedness of what is decoded, then O4, and for a frame the fields it was read from. -/
theorem encodeAfterDecode : Obligations.EncodeAfterDecode := by
  intro c app e i h
  have hwf := wellFormed_of_decode h
  refine ⟨hwf, decodeAfterEncode c app i hwf, ?_⟩
  rintro f rfl
  exact encode_of_decodeFrame h

/-- Settles O6: a frame decodes exactly if it is valid, whatever key its index and the flag select. -/
theorem frameValidity : Obligations.FrameValidity := by
  intro app f
  simp only [decodeFrame_ok_iff, exists_and_left, exists_eq, and_true, window_valid_iff]

/-- Settles O3: each word is a closed term, which the decoder evaluates. -/
theorem sampleWordsDecode : Obligations.SampleWordsDecode := by
  unfold Obligations.SampleWordsDecode
  decide

end Sys2Proof.Machine

namespace Sys2Proof.Machine

/-! Accesses with no modelled effect (41_duart.md R165, R166; 20_memory.md R76). -/

/-- A write with no modelled effect, whichever row makes it (41_duart.md R165; 20_memory.md R76). -/
theorem exec_unimplementedWrite {i : Instr} {s : State} {a : Addr} {b : Byte} (hu : s.unmarked)
    (ho : operation i s = writeReply (unimplementedWrite a b s)) :
    exec i s = .next { s with trace := s.trace ++ [.logUnimplemented a .write b], reply := .ok } := by
  rw [exec_unmarked hu, ho]
  rfl

/-- A read with no modelled value, whichever row makes it: it answers the next draw (41_duart.md R166; 20_memory.md
R76; log 5). -/
theorem exec_unimplementedRead {i : Instr} {s : State} {a : Addr} (hu : s.unmarked)
    (ho : operation i s = readReply (unimplementedRead a s)) :
    exec i s = .next { s with
      trace := s.trace ++ [.logUnimplemented a .read 0], draws := s.draws + 1
      reply := .okValue ((Config.drawByte s.draws).setWidth 32) } := by
  rw [exec_unmarked hu, ho]
  rfl

/-! The status byte (30_encoding.md R104; 41_duart.md R161). -/

theorem duartStatusByte_getLsbD (c : Cfg) (pending : List Byte) (k : Nat) :
    (duartStatusByte c pending).getLsbD k =
      (decide (k = c.duartTxrdyBit.val) || (decide (k = c.duartRxrdyBit.val) && decide (pending ≠ []))) := by
  have nonempty : (!pending.isEmpty) = decide (pending ≠ []) := by cases pending <;> rfl
  rw [duartStatusByte, BitVec.getLsbD_or, bitByte_getLsbD, bitByte_getLsbD, Bool.and_true, nonempty]

/-- The two status bits of a valid configuration are two bits (70_reset_and_hazards.md R302). -/
theorem validCfg_statusBits {c : Cfg} (h : validCfg c = true) : c.duartRxrdyBit ≠ c.duartTxrdyBit := by
  simp only [validCfg, Bool.and_eq_true, decide_eq_true_eq] at h
  obtain ⟨⟨⟨⟨⟨⟨⟨⟨⟨-, hbits⟩, -⟩, -⟩, -⟩, -⟩, -⟩, -⟩, -⟩, -⟩ := h
  exact hbits

/-- Only a pending character sets RxRDY, since TxRDY is another bit. -/
theorem duartStatusByte_rxrdy {c : Cfg} (h : validCfg c = true) (pending : List Byte) :
    (duartStatusByte c pending).getLsbD c.duartRxrdyBit.val = true ↔ pending ≠ [] := by
  have apart : c.duartRxrdyBit.val ≠ c.duartTxrdyBit.val := Fin.val_ne_of_ne (validCfg_statusBits h)
  rw [duartStatusByte_getLsbD]
  simp [apart]

/-! The DUART registers (41_duart.md R161 to R164). -/

theorem exec_duartStatusRead {s : State} (hu : s.unmarked) (address : Addr) :
    exec (.duartStatusRead address) s =
      .next { s with reply := .okValue ((duartStatusByte s.cfg s.hostIn).setWidth 32) } :=
  exec_unmarked hu _

theorem duartDataRead_nil {s : State} (h : s.hostIn = []) :
    duartDataRead s = .raised (.fault (.duartEmptyRead s.cfg.duartRbAddr)) s.trace := by
  simp only [duartDataRead, h]

theorem duartDataRead_cons {s : State} {b : Byte} {rest : List Byte} (h : s.hostIn = b :: rest) :
    duartDataRead s = .done ({ s with hostIn := rest }, b) := by
  simp only [duartDataRead, h]

theorem exec_duartDataRead_nil {s : State} (hu : s.unmarked) (address : Addr) (h : s.hostIn = []) :
    exec (.duartDataRead address) s =
      .next (mark s (.fault (.duartEmptyRead s.cfg.duartRbAddr)) s.trace) := by
  rw [exec_unmarked hu, operation, duartDataRead_nil h]
  rfl

theorem exec_duartDataRead_cons {s : State} {b : Byte} {rest : List Byte} (hu : s.unmarked) (address : Addr)
    (h : s.hostIn = b :: rest) :
    exec (.duartDataRead address) s = .next { s with hostIn := rest, reply := .okValue (b.setWidth 32) } := by
  rw [exec_unmarked hu, operation, duartDataRead_cons h]
  rfl

theorem exec_duartImrWrite {s : State} (hu : s.unmarked) (address : Addr) (b : Byte) :
    exec (.duartImrWrite address b) s = .next { s with
      timerEnabled := if b = 0x00 then false else if s.cfg.imrNonzeroEnables then true else s.timerEnabled
      reply := .ok } :=
  exec_unmarked hu _

/-- A receive-data read leaves a fault exactly where no character is pending (41_duart.md R168). -/
theorem duartDataRead_faults_iff {s : State} (hu : s.unmarked) (address : Addr) :
    (∃ t, exec (.duartDataRead address) s = .next t ∧ t.fault ≠ none) ↔ s.hostIn = [] := by
  constructor
  · rintro ⟨t, ht, hfault⟩
    cases hin : s.hostIn with
    | nil => rfl
    | cons b rest =>
      rw [exec_duartDataRead_cons hu address hin] at ht
      cases ht
      exact absurd hu.1 hfault
  · intro hin
    exact ⟨_, exec_duartDataRead_nil hu address hin, Option.some_ne_none _⟩

/-- Settles O33: the two bits that make the status byte, and a read that leaves the state alone. -/
theorem duartStatus : Obligations.DuartStatus := by
  intro s address hu
  exact ⟨_, exec_duartStatusRead hu address, fun k _ => duartStatusByte_getLsbD s.cfg s.hostIn k⟩

/-- Settles O35: a poll that shows RxRDY saw a pending character and left it pending. -/
theorem pollThenReceive : Obligations.PollThenReceive := by
  intro s address address' hu hv
  refine ⟨fun t v ht hreply hready => ?_, duartDataRead_faults_iff hu address'⟩
  rw [exec_duartStatusRead hu] at ht
  cases ht
  cases hreply
  rw [BitVec.getLsbD_setWidth, Bool.and_eq_true] at hready
  obtain ⟨-, ready⟩ := hready
  obtain ⟨b, rest, hin⟩ := List.exists_cons_of_ne_nil ((duartStatusByte_rxrdy hv s.hostIn).mp ready)
  refine ⟨b, rest, hin, ?_⟩
  apply exec_duartDataRead_cons
  · exact hu
  · exact hin

/-- Settles O34: the receive register with a character pending, and with none. -/
theorem duartReceive : Obligations.DuartReceive := by
  intro s address hu
  exact ⟨fun _ _ hin => exec_duartDataRead_cons hu address hin,
    fun hin => ⟨_, exec_duartDataRead_nil hu address hin⟩⟩

/-- Settles O36: the write's operation is its one event. -/
theorem duartTransmit : Obligations.DuartTransmit := by
  intro s address b hu
  exact exec_unmarked hu (.duartDataWrite address b)

/-- Settles O37: the mask's three cases. -/
theorem duartInterruptMask : Obligations.DuartInterruptMask := by
  intro s address b hu
  rw [exec_duartImrWrite hu]
  refine ⟨fun zero => ?_, fun nonzero enables => ?_, fun nonzero keeps => ?_⟩
  · rw [if_pos zero]
  · rw [if_neg nonzero, if_pos enables]
  · rw [if_neg nonzero, keeps, if_neg Bool.false_ne_true]

/-- Settles O38: every row named runs the unimplemented access of its address. -/
theorem unimplementedAccesses : Obligations.UnimplementedAccesses := by
  intro s address b hu
  simp only [List.forall_mem_cons, List.not_mem_nil, false_imp_iff, implies_true, and_true]
  exact ⟨⟨exec_unimplementedWrite hu rfl, exec_unimplementedWrite hu rfl⟩,
    ⟨⟨_, _, exec_unimplementedRead hu rfl⟩, ⟨_, _, exec_unimplementedRead hu rfl⟩⟩,
    ⟨_, _, exec_unimplementedRead hu rfl⟩⟩

end Sys2Proof.Machine

namespace Sys2Proof.Laws

open Sys2Proof.Machine

/-- Settles O39: the host event raises nothing, and its operation appends the byte. It stands here since
`Machine.hostInput` is that operation. -/
theorem hostInput : Obligations.HostInput := by
  intro s b hu
  exact ⟨_, exec_unmarked hu (.hostIn b)⟩

end Sys2Proof.Laws

namespace Sys2Proof.Machine

/-! The disk of a handler call (42_usb_bridge.md R186; log 7). -/

/-- A shared disk follows the handler, which leaves a canonical one: the cut changes nothing of it. -/
theorem sharedDisk_shared {s : State} {after : Memory} (shares : s.cfg.usbSharesDisk = true)
    (canonical : Memory.wf s.cfg.diskLen after = true) : sharedDisk s after = after := by
  rw [sharedDisk, if_pos shares, Laws.memory_ofCells_of_wf canonical]

theorem sharedDisk_unshared {s : State} (apart : s.cfg.usbSharesDisk = false) (after : Memory) :
    sharedDisk s after = s.disk := by
  rw [sharedDisk, apart, if_neg Bool.false_ne_true]

/-- The two cases of the disk after a handler call (42_usb_bridge.md R186). -/
theorem sharedDisk_follows (s : State) (after : Memory) :
    (s.cfg.usbSharesDisk = false → sharedDisk s after = s.disk) ∧
      (s.cfg.usbSharesDisk = true → Memory.wf s.cfg.diskLen after = true → sharedDisk s after = after) :=
  ⟨fun apart => sharedDisk_unshared apart after, sharedDisk_shared⟩

/-- A handler that does not share the disk is passed the same array whatever the disk holds. -/
theorem handlerDisk_otherDisk {s : State} (apart : s.cfg.usbSharesDisk = false) (disk : Memory) :
    handlerDisk { s with disk := disk } = handlerDisk s := by
  rw [handlerDisk_unshared apart, handlerDisk_unshared (s := { s with disk := disk }) apart]

/-- Where the disk is not shared, a handler write does the same to the rest for every disk. -/
theorem afterUsbWrite_otherDisk {s : State} (apart : s.cfg.usbSharesDisk = false) (disk : Memory)
    (call : UsbState → Memory → UsbState × Memory × Bool) :
    afterUsbWrite { s with disk := disk } (call s.usb (handlerDisk { s with disk := disk })) =
      { afterUsbWrite s (call s.usb (handlerDisk s)) with disk := disk } := by
  rw [handlerDisk_otherDisk apart, afterUsbWrite, sharedDisk_unshared (s := { s with disk := disk }) apart]
  rfl

/-! The USB registers (42_usb_bridge.md R181 to R183). -/

theorem exec_usbCmdWrite {s : State} (hu : s.unmarked) (address : Addr) (b : Byte) :
    exec (.usbCmdWrite address b) s = .next
      { afterUsbWrite s (s.cfg.usbHandler.cmdWrite s.usb (handlerDisk s) b) with reply := .ok } :=
  exec_unmarked hu _

theorem exec_usbDataWrite {s : State} (hu : s.unmarked) (address : Addr) (b : Byte) :
    exec (.usbDataWrite address b) s = .next
      { afterUsbWrite s (s.cfg.usbHandler.dataWrite s.usb (handlerDisk s) b) with reply := .ok } :=
  exec_unmarked hu _

theorem exec_usbDataRead {s : State} (hu : s.unmarked) (address : Addr) :
    exec (.usbDataRead address) s = .next { s with
      usb := (s.cfg.usbHandler.dataRead s.usb (handlerDisk s)).1
      disk := sharedDisk s (s.cfg.usbHandler.dataRead s.usb (handlerDisk s)).2.1
      reply := .okValue ((s.cfg.usbHandler.dataRead s.usb (handlerDisk s)).2.2.setWidth 32) } :=
  exec_unmarked hu _

/-! A handler that does not share the disk never interacts with it (42_usb_bridge.md R186; log 7). -/

section
variable {s t : State} {address : Addr} {b : Byte}

/-- An instruction whose operation does the same beside another disk answers the same beside it. -/
theorem exec_otherDisk {i : Instr} {disk : Memory} (h : exec i s = .next t)
    (same : conclude { s with disk := disk } (operation i { s with disk := disk }) =
      { conclude s (operation i s) with disk := disk }) :
    exec i { s with disk := disk } = .next { t with disk := disk } := by
  obtain ⟨hu, rfl⟩ := exec_eq_next.mp h
  exact exec_eq_next.mpr ⟨hu, same⟩

theorem exec_usbCmdWrite_otherDisk (apart : s.cfg.usbSharesDisk = false) (disk : Memory)
    (h : exec (.usbCmdWrite address b) s = .next t) :
    exec (.usbCmdWrite address b) { s with disk := disk } = .next { t with disk := disk } :=
  exec_otherDisk h (congrArg (fun u : State => { u with reply := .ok })
    (afterUsbWrite_otherDisk apart disk (s.cfg.usbHandler.cmdWrite · · b)))

theorem exec_usbDataWrite_otherDisk (apart : s.cfg.usbSharesDisk = false) (disk : Memory)
    (h : exec (.usbDataWrite address b) s = .next t) :
    exec (.usbDataWrite address b) { s with disk := disk } = .next { t with disk := disk } :=
  exec_otherDisk h (congrArg (fun u : State => { u with reply := .ok })
    (afterUsbWrite_otherDisk apart disk (s.cfg.usbHandler.dataWrite · · b)))

theorem exec_usbDataRead_otherDisk (apart : s.cfg.usbSharesDisk = false) (disk : Memory)
    (h : exec (.usbDataRead address) s = .next t) :
    exec (.usbDataRead address) { s with disk := disk } = .next { t with disk := disk } := by
  obtain ⟨hu, -⟩ := exec_eq_next.mp h
  rw [exec_usbDataRead hu] at h
  cases h
  rw [exec_usbDataRead (s := { s with disk := disk }) hu, handlerDisk_otherDisk apart,
    sharedDisk_unshared (s := { s with disk := disk }) apart]

end

/-- Settles O40: each register's call to the handler, and its independence of a disk that is not shared. -/
theorem usbRegisters : Obligations.UsbRegisters := by
  intro s address b hu passed follows
  refine ⟨⟨_, exec_usbCmdWrite hu address b, sharedDisk_follows s _⟩,
    ⟨_, exec_usbDataWrite hu address b, sharedDisk_follows s _⟩,
    ⟨_, exec_usbDataRead hu address, sharedDisk_follows s _⟩, fun apart disk t => ?_⟩
  simp only [List.forall_mem_cons, List.not_mem_nil, false_imp_iff, implies_true, and_true]
  exact ⟨exec_usbCmdWrite_otherDisk apart disk, exec_usbDataWrite_otherDisk apart disk,
    exec_usbDataRead_otherDisk apart disk⟩

end Sys2Proof.Machine

namespace Sys2Proof.Machine

/-! The framer's two registers (43_spi_framer.md R195, R197). -/

/-- The bits of the pin byte (30_encoding.md R105). -/
theorem pinsByte_getLsbD (c : Cfg) (csN sck mosi : Bool) (k : Nat) :
    (pinsByte c csN sck mosi).getLsbD k =
      ((decide (k = c.spiCsBit.val) && csN) || (decide (k = c.spiSckBit.val) && sck) ||
        (decide (k = c.spiMosiBit.val) && mosi)) := by
  rw [pinsByte, BitVec.getLsbD_or, BitVec.getLsbD_or, bitByte_getLsbD, bitByte_getLsbD, bitByte_getLsbD]

theorem exec_spiInRead {s : State} (hu : s.unmarked) (address : Addr) :
    exec (.spiInRead address) s = .next { s with reply := .okValue ((misoByte s.cfg s.spi).setWidth 32) } :=
  exec_unmarked hu _

theorem exec_spiOutRead {s : State} (hu : s.unmarked) (address : Addr) :
    exec (.spiOutRead address) s = .next { s with
      reply := .okValue ((pinsByte s.cfg s.spi.csN s.spi.sck s.spi.mosi).setWidth 32) } :=
  exec_unmarked hu _

/-- Settles O41: the byte each read answers, bit by bit, and the one event of the write. -/
theorem spiPinReads : Obligations.SpiPinReads := by
  intro s address b hu
  exact ⟨⟨_, exec_spiInRead hu address, fun k _ => bitByte_getLsbD (misoLevel s.spi) s.cfg.spiMisoBit k⟩,
    ⟨_, exec_spiOutRead hu address, fun k _ => pinsByte_getLsbD s.cfg s.spi.csN s.spi.sck s.spi.mosi k⟩,
    exec_unmarked hu (.spiInWrite address b)⟩

/-! What an SPI_OUT write answers, said once for each of its cases (43_spi_framer.md R191 to R194). -/

/-- A bit shifted in below the bits held, most significant first (43_spi_framer.md R193). -/
theorem shiftIn_getLsbD (r : Byte) (m : Bool) {k : Nat} (hk : k < 8) :
    ((r <<< 1) ||| bitByte m 0).getLsbD k = if k = 0 then m else r.getLsbD (k - 1) := by
  rw [BitVec.getLsbD_or, BitVec.getLsbD_shiftLeft, bitByte_getLsbD]
  cases k with
  | zero => simp
  | succ k => simp [hk]

section
variable {s : State} {v : Byte}

/-- An edge with the card selected shifts in the level of MOSI that its own write sets. -/
theorem shiftedSpi_rises (h : risesSelected s v) :
    shiftedSpi s v = {
      csN := false, sck := true, mosi := bitAt v s.cfg.spiMosiBit
      shiftIn := (s.spi.shiftIn <<< 1) ||| bitByte (bitAt v s.cfg.spiMosiBit) 0
      count := s.spi.count + 1, shiftOut := s.spi.shiftOut } := by
  obtain ⟨selects, -, raises⟩ := h
  simp only [shiftedSpi, latchPins, shiftedIn, selects, raises]

theorem exec_spiOutWrite_noEdge (hu : s.unmarked) (address : Addr) (h : ¬ risesSelected s v) :
    exec (.spiOutWrite address v) s = .next { s with spi := latchedSpi s v, reply := .ok } := by
  rw [exec_unmarked hu, operation, spiOutWrite_noEdge h]
  rfl

theorem exec_spiOutWrite_edge (hu : s.unmarked) (address : Addr) (h : risesSelected s v) (hc : s.spi.count ≠ 7) :
    exec (.spiOutWrite address v) s = .next { s with spi := shiftedSpi s v, reply := .ok } := by
  rw [exec_unmarked hu, operation, spiOutWrite_edge h, if_neg hc]
  rfl

/-- The eighth edge latches the byte with its last bit shifted in; the framer's own part is no part of the card. -/
theorem spiOutWrite_eighth (h : risesSelected s v) (hc : s.spi.count = 7) :
    spiOutWrite v s = (sdLatch s.cfg (shiftedSpi s v).shiftIn s.card).map fun k =>
      { s.withCard k.poll.2 with spi := { shiftedSpi s v with shiftOut := k.poll.1.getD 0xFF, count := 0 } } := by
  rw [spiOutWrite_edge h, if_pos hc, byteComplete_eq]
  rfl

theorem exec_spiOutWrite_latched {k : Card} (hu : s.unmarked) (address : Addr) (h : risesSelected s v)
    (hc : s.spi.count = 7) (hk : sdLatch s.cfg (shiftedSpi s v).shiftIn s.card = .done k) :
    exec (.spiOutWrite address v) s = .next { s.withCard k.poll.2 with
      spi := { shiftedSpi s v with shiftOut := k.poll.1.getD 0xFF, count := 0 }, reply := .ok } := by
  rw [exec_unmarked hu, operation, spiOutWrite_eighth h hc, hk]
  rfl

theorem exec_spiOutWrite_raised {x : Raise} {tr : List Event} (hu : s.unmarked) (address : Addr)
    (h : risesSelected s v) (hc : s.spi.count = 7)
    (hx : sdLatch s.cfg (shiftedSpi s v).shiftIn s.card = .raised x tr) :
    exec (.spiOutWrite address v) s = .next (mark s x tr) := by
  rw [exec_unmarked hu, operation, spiOutWrite_eighth h hc, hx]
  rfl

end

/-- Settles O42: the latches a write without an edge leaves. -/
theorem spiWriteWithoutEdge : Obligations.SpiWriteWithoutEdge := by
  intro s address v hu h csN off
  rw [exec_spiOutWrite_noEdge hu address h, latchedSpi_eq]

/-- Settles O43: the framer after an edge, and the bits of its receive register. -/
theorem spiEdgeShiftsOneBit : Obligations.SpiEdgeShiftsOneBit := by
  intro s address v hu h held
  have notLast : s.spi.count ≠ 7 := fun h7 => Nat.ne_of_lt held (congrArg Fin.val h7)
  refine ⟨_, exec_spiOutWrite_edge hu address h notLast, ?_⟩
  rw [shiftedSpi_rises h]
  refine ⟨rfl, rfl, rfl, ?_, rfl, fun k hk => shiftIn_getLsbD _ _ hk⟩
  exact Fin.val_add_one_of_lt held

/-- Settles O44: the latch's two outcomes, with the poll written out by `card_poll_eq`. -/
theorem eighthEdgeCompletesTheByte : Obligations.EighthEdgeCompletesTheByte := by
  intro s address v hu h hc b
  refine ⟨fun k hk => ?_, fun r trace hr => ⟨_, exec_spiOutWrite_raised hu address h hc hr⟩⟩
  rw [exec_spiOutWrite_latched hu address h hc hk, shiftedSpi_rises h, card_poll_eq]
  by_cases sent : k.sd.outPos < k.sd.outBuf.length
  · simp [sent, State.withCard, b]
  · simp [sent, State.withCard, b]

/-! The bit writes and the read of the exchange script (30_encoding.md R118). -/

/-- The three pins of a valid configuration are three bits (70_reset_and_hazards.md R302). -/
theorem validCfg_pinBits {c : Cfg} (h : validCfg c = true) :
    c.spiCsBit ≠ c.spiSckBit ∧ c.spiCsBit ≠ c.spiMosiBit ∧ c.spiSckBit ≠ c.spiMosiBit := by
  simp only [validCfg, Bool.and_eq_true, decide_eq_true_eq] at h
  obtain ⟨⟨⟨⟨⟨⟨⟨⟨-, csSck⟩, csMosi⟩, sckMosi⟩, -⟩, -⟩, -⟩, -⟩, -⟩ := h
  exact ⟨csSck, csMosi, sckMosi⟩

/-- Each pin reads back from the pin byte, since the pins are three bits. -/
theorem bitAt_pinsByte {c : Cfg} (h : validCfg c = true) (csN sck mosi : Bool) :
    bitAt (pinsByte c csN sck mosi) c.spiCsBit = csN ∧ bitAt (pinsByte c csN sck mosi) c.spiSckBit = sck ∧
      bitAt (pinsByte c csN sck mosi) c.spiMosiBit = mosi := by
  obtain ⟨csSck, csMosi, sckMosi⟩ := validCfg_pinBits h
  simp only [bitAt, pinsByte_getLsbD, Fin.val_inj]
  simp [csSck, csSck.symm, csMosi, csMosi.symm, sckMosi, sckMosi.symm]

/-- A poll moves the output position only (45_sd_data_phase.md R251). -/
theorem withCard_poll (s : State) (k : Card) :
    s.withCard k.poll.2 = { s with sd := k.poll.2.sd, disk := k.disk, draws := k.draws, trace := k.trace } := by
  rw [card_poll_eq]
  split <;> rfl

/-- The pins of a bit's first write: the card selected, SCK low, the bit on MOSI. -/
def Spi.presents (p : Spi) (m : Bool) : Spi := { p with csN := false, sck := false, mosi := m }

/-- The framer after a bit's second write: SCK high, the bit shifted in and counted. -/
def Spi.takes (p : Spi) (m : Bool) : Spi where
  csN := false
  sck := true
  mosi := m
  shiftIn := (p.shiftIn <<< 1) ||| bitByte m 0
  count := p.count + 1
  shiftOut := p.shiftOut

section
variable {s : State}

/-- The first write of a bit selects the card and drops SCK, whatever they were. -/
theorem writePins_low (hu : s.unmarked) (hv : validCfg s.cfg = true) (m : Bool) :
    writePins false false m s = some { s with spi := s.spi.presents m, reply := .ok } := by
  obtain ⟨cs, sck, mosi⟩ := bitAt_pinsByte hv false false m
  have low : ¬ risesSelected s (pinsByte s.cfg false false m) := fun ⟨_, _, raises⟩ =>
    Bool.false_ne_true (sck.symm.trans raises)
  rw [writePins, exec_spiOutWrite_noEdge hu _ low, latchedSpi_eq, cs, sck, mosi]
  simp [nextState, Spi.presents]

/-- The second write of a bit raises SCK with the card selected. -/
theorem risesSelected_pinsByte (hv : validCfg s.cfg = true) (low : s.spi.sck = false) (m : Bool) :
    risesSelected s (pinsByte s.cfg false true m) := by
  obtain ⟨cs, sck, -⟩ := bitAt_pinsByte hv false true m
  exact ⟨cs, low, sck⟩

theorem shiftedSpi_pinsByte (hv : validCfg s.cfg = true) (low : s.spi.sck = false) (m : Bool) :
    shiftedSpi s (pinsByte s.cfg false true m) = s.spi.takes m := by
  obtain ⟨-, -, mosi⟩ := bitAt_pinsByte hv false true m
  rw [shiftedSpi_rises (risesSelected_pinsByte hv low m), mosi]
  rfl

theorem writePins_edge (hu : s.unmarked) (hv : validCfg s.cfg = true) (low : s.spi.sck = false)
    (hc : s.spi.count ≠ 7) (m : Bool) :
    writePins false true m s = some { s with spi := s.spi.takes m, reply := .ok } := by
  rw [writePins, exec_spiOutWrite_edge hu _ (risesSelected_pinsByte hv low m) hc, shiftedSpi_pinsByte hv low]
  rfl

/-- The eighth edge leaves what the latch of the whole byte leaves, and its poll. -/
theorem writePins_eighth {b : Byte} {k : Card} {m : Bool} (hu : s.unmarked) (hv : validCfg s.cfg = true)
    (low : s.spi.sck = false) (hc : s.spi.count = 7) (hb : (s.spi.takes m).shiftIn = b)
    (hk : sdLatch s.cfg b s.card = .done k) :
    writePins false true m s = some { s with
      sd := k.poll.2.sd, disk := k.disk, draws := k.draws, trace := k.trace
      spi := {
        csN := false, sck := true, mosi := m, shiftIn := b, count := 0
        shiftOut := k.poll.1.getD 0xFF }
      reply := .ok } := by
  have shifted := shiftedSpi_pinsByte hv low m
  rw [← hb, ← shifted] at hk
  rw [writePins, exec_spiOutWrite_latched hu _ (risesSelected_pinsByte hv low m) hc hk, shifted, withCard_poll, ← hb]
  rfl

/-- The byte a read of SPI_IN answers shows MISO. -/
theorem bitAt_misoByte (c : Cfg) (p : Spi) : bitAt (misoByte c p) c.spiMisoBit = misoLevel p := by
  rw [bitAt, misoByte, bitByte_getLsbD, decide_eq_true rfl, Bool.true_and]

/-- One bit of the exchange: its level is set and MISO read with SCK low, and then SCK raised. -/
theorem exchangeBit_eq (hu : s.unmarked) (hv : validCfg s.cfg = true) (m : Bool) :
    ∃ y, exchangeBit m s = (writePins false true m { s with spi := s.spi.presents m, reply := y }).map fun t =>
      (t, s.spi.shiftOut.getLsbD (7 - s.spi.count.val)) := by
  refine ⟨.okValue ((misoByte s.cfg (s.spi.presents m)).setWidth 32), ?_⟩
  have read := exec_spiInRead (s := { s with spi := s.spi.presents m, reply := .ok }) hu s.cfg.spiInAddr
  have reply : ((misoByte s.cfg (s.spi.presents m)).setWidth 32).setWidth 8 = misoByte s.cfg (s.spi.presents m) :=
    setWidth_setWidth_call (by decide) _
  rw [exchangeBit, writePins_low hu hv, Option.bind_some, read]
  simp only [nextState, Option.bind_some, replyByte, reply, bitAt_misoByte]
  rfl

/-- A bit before the eighth reaches the framer only. -/
theorem exchangeBit_held (hu : s.unmarked) (hv : validCfg s.cfg = true) (hc : s.spi.count ≠ 7) (m : Bool) :
    exchangeBit m s = some ({ s with spi := s.spi.takes m, reply := .ok },
      s.spi.shiftOut.getLsbD (7 - s.spi.count.val)) := by
  obtain ⟨y, bit⟩ := exchangeBit_eq hu hv m
  rw [bit, writePins_edge (s := { s with spi := s.spi.presents m, reply := y }) hu hv rfl hc]
  rfl

/-- The eighth bit completes the byte, and the last bit of the byte going out is read before that. -/
theorem exchangeBit_eighth {b : Byte} {k : Card} {m : Bool} (hu : s.unmarked) (hv : validCfg s.cfg = true)
    (hc : s.spi.count = 7) (hb : (s.spi.takes m).shiftIn = b) (hk : sdLatch s.cfg b s.card = .done k) :
    exchangeBit m s = some ({ s with
      sd := k.poll.2.sd, disk := k.disk, draws := k.draws, trace := k.trace
      spi := {
        csN := false, sck := true, mosi := m, shiftIn := b, count := 0
        shiftOut := k.poll.1.getD 0xFF }
      reply := .ok }, s.spi.shiftOut.getLsbD 0) := by
  obtain ⟨y, bit⟩ := exchangeBit_eq hu hv m
  rw [bit, writePins_eighth (s := { s with spi := s.spi.presents m, reply := y }) hu hv rfl hc hb hk, hc]
  rfl

end

/-! The bits of a byte shifted one after another into a register, most significant first: MOSI into the framer, MISO
into the byte the script returns. -/

/-- The register `r` with the first `n` bits of `b` shifted in. -/
def withBits (r b : Byte) (n : Nat) : Byte := (r <<< n) ||| (b >>> (8 - n))

theorem withBits_zero (r b : Byte) : withBits r b 0 = r := by
  refine BitVec.eq_of_getLsbD_eq fun k hk => ?_
  simp [withBits]

theorem withBits_eight (r b : Byte) : withBits r b 8 = b := by
  simp [withBits]

theorem withBits_succ (r b : Byte) {n : Nat} (hn : n < 8) :
    (withBits r b n <<< 1) ||| bitByte (b.getLsbD (7 - n)) 0 = withBits r b (n + 1) := by
  refine BitVec.eq_of_getLsbD_eq fun k hk => ?_
  rw [shiftIn_getLsbD _ _ hk]
  cases k with
  | zero => simp [withBits, show 8 - (n + 1) = 7 - n by omega]
  | succ k =>
    have fromB : 8 - n + k = 8 - (n + 1) + (k + 1) := by omega
    simp [withBits, hk, fromB, show k < 8 by omega]

theorem withBits_last (r b : Byte) : (withBits r b 7 <<< 1) ||| bitByte (b.getLsbD 0) 0 = b :=
  (withBits_succ r b (by omega)).trans (withBits_eight r b)

theorem msbFirst_eq (b : Byte) :
    msbFirst b = ((List.range 7).map fun i => b.getLsbD (7 - i)) ++ [b.getLsbD 0] := by
  rw [msbFirst, List.range_succ, List.map_append]
  rfl

/-- One bit after others. -/
theorem exchangeBits_concat (ms : List Bool) (m : Bool) (r : Byte) (s : State) :
    exchangeBits (ms ++ [m]) r s = (exchangeBits ms r s).bind fun p =>
      (exchangeBit m p.1).map fun q => (q.1, (p.2 <<< 1) ||| bitByte q.2 0) := by
  induction ms generalizing r s with
  | nil =>
    cases h : exchangeBit m s with
    | none => simp only [List.nil_append, exchangeBits, h, Option.bind_some, Option.bind_none, Option.map_none]
    | some q => simp only [List.nil_append, exchangeBits, h, Option.bind_some, Option.map_some]
  | cons x xs ih => simp [exchangeBits, ih, Option.bind_assoc]

/-- Before the eighth bit the exchange has only moved the framer: the bits of `b` so far are held, those of the byte
going out are returned. -/
theorem exchangeBits_held {s : State} (hu : s.unmarked) (hv : validCfg s.cfg = true) (hc : s.spi.count = 0) (b : Byte)
    {n : Nat} (hn : n ≤ 7) :
    ∃ p y, exchangeBits ((List.range n).map fun i => b.getLsbD (7 - i)) 0 s =
        some ({ s with spi := p, reply := y }, withBits 0 s.spi.shiftOut n) ∧
      p.count.val = n ∧ p.shiftIn = withBits s.spi.shiftIn b n ∧ p.shiftOut = s.spi.shiftOut := by
  induction n with
  | zero =>
    exact ⟨s.spi, s.reply, by rw [withBits_zero]; rfl, by rw [hc]; rfl, (withBits_zero _ _).symm, rfl⟩
  | succ n ih =>
    obtain ⟨p, y, before, count, shiftIn, shiftOut⟩ := ih (by omega)
    have notLast : p.count ≠ 7 := fun h7 => Nat.ne_of_lt (count ▸ hn) (congrArg Fin.val h7)
    have bit := exchangeBit_held (s := { s with spi := p, reply := y }) hu hv notLast (b.getLsbD (7 - n))
    refine ⟨p.takes (b.getLsbD (7 - n)), .ok, ?_, ?_, ?_, shiftOut⟩
    · rw [List.range_succ, List.map_append, List.map_singleton, exchangeBits_concat, before, Option.bind_some, bit,
        Option.map_some, count, shiftOut, withBits_succ _ _ (by omega)]
    · rw [← count]
      exact Fin.val_add_one_of_lt (show p.count.val < 7 by omega)
    · rw [Spi.takes, shiftIn, withBits_succ _ _ (by omega)]

/-- Settles O45: seven bits that only move the framer, and the eighth, which latches the byte. -/
theorem byteExchange : Obligations.ByteExchange := by
  intro s b k hu hv hc hk
  obtain ⟨p, y, before, count, shiftIn, shiftOut⟩ := exchangeBits_held hu hv hc b (n := 7) (Nat.le_refl 7)
  have last : p.count = 7 := Fin.ext count
  have byte : (p.takes (b.getLsbD 0)).shiftIn = b := by
    rw [Spi.takes, shiftIn, withBits_last]
  have eighth := exchangeBit_eighth (s := { s with spi := p, reply := y }) hu hv last byte hk
  refine ⟨_, ?_, rfl⟩
  rw [exchange, msbFirst_eq, exchangeBits_concat, before, Option.bind_some, eighth, Option.map_some, shiftOut,
    withBits_last]

end Sys2Proof.Machine

namespace Sys2Proof.Machine

/-! What a latch does, by the state of the session (44_sd_commands.md R210, R212, R233). -/

section
variable {c : Cfg} {b : Byte} {test : Card → Res Card} {k k' : Card}

theorem streamNext_undrained (h : k.sd.outPos < k.sd.outBuf.length) : streamNext c k = k := by
  simp [streamNext, Card.drained, h]

theorem latchBody_awaiting (h : k.sd.state = .awaitingStartToken) : latchBody c b test k = .done (awaitToken b k) := by
  simp only [latchBody, h]

theorem latchBody_receiving (h : k.sd.state = .receivingBlock) : latchBody c b test k = receiveByte c b k := by
  simp only [latchBody, h]

theorem receiveByte_incomplete (h : k.sd.inCount + 1 ≠ k.sd.blockSize.toNat + 2) : receiveByte c b k =
    .done { k with sd := { k.sd with inBuf := k.sd.inBuf ++ [b], inCount := k.sd.inCount + 1 } } :=
  if_neg h

/-- Outside the write data phase a byte makes the frame test unless the card is deaf, and a stream whose output has
drained then goes on (45_sd_data_phase.md R259). -/
theorem latchBody_outsideWrite (ha : k.sd.state ≠ .awaitingStartToken) (hr : k.sd.state ≠ .receivingBlock) :
    latchBody c b test k = (if k.deaf c then .done k else test k).map fun k =>
      if k.sd.state = .dataMulti then streamNext c k else k := by
  unfold latchBody
  split
  · next h => exact absurd h ha
  · next h => exact absurd h hr
  · rfl

/-- A test that leaves no drained stream is all that such a byte does. -/
theorem latchBody_done (ha : k.sd.state ≠ .awaitingStartToken) (hr : k.sd.state ≠ .receivingBlock)
    (hk : (if k.deaf c then .done k else test k) = .done k')
    (queued : k'.sd.state = .dataMulti → k'.sd.outPos < k'.sd.outBuf.length) : latchBody c b test k = .done k' := by
  rw [latchBody_outsideWrite ha hr, hk, res_map_done]
  split
  · next stream => rw [streamNext_undrained (queued stream)]
  · rfl

/-- Only the test's value at the card itself matters. -/
theorem latchBody_congr {test' : Card → Res Card} (h : test k = test' k) :
    latchBody c b test k = latchBody c b test' k := by
  unfold latchBody
  rw [h]

end

/-- A scanning card is not deaf (44_sd_commands.md R233). -/
theorem scanning_not_deaf {s : State} (h : s.scanning) : s.card.deaf s.cfg = false := by
  obtain ⟨-, -, hears⟩ := h
  by_cases hi : s.sd.state = .inactive
  · simp [Card.deaf, hears hi]
  · simp [Card.deaf, hi]

/-- An SD dump added to the trace is no difference (44_sd_commands.md R210). -/
theorem upToDumps_logSd (s : State) (d : SdDump) (l : List Byte) :
    upToDumps s { s with trace := s.trace ++ [.logSd d l] } :=
  ⟨[.logSd d l], by simp [Event.isSdDump], rfl⟩

theorem upToDumps_refl (s : State) : upToDumps s s := ⟨[], nofun, by rw [List.append_nil]⟩

/-! An SD row from an unmarked state (log 11). -/

section
variable {s : State} {i : Instr}

theorem exec_sdRow (hu : s.unmarked) (hi : i.isSdRow = true) : exec i s =
    .next (conclude s (cardReply s (latchBody s.cfg (stopByte (crcField i)) (cardTest s.cfg i) s.card))) := by
  rw [exec_unmarked hu, operation_sdRow hi]

theorem exec_sdRow_done {k : Card} (hu : s.unmarked) (hi : i.isSdRow = true)
    (hk : latchBody s.cfg (stopByte (crcField i)) (cardTest s.cfg i) s.card = .done k) :
    exec i s = .next { s.withCard k with reply := .silent } := by
  rw [exec_sdRow hu hi, hk]
  rfl

theorem exec_sdRow_raised {x : Raise} {tr : List Event} (hu : s.unmarked) (hi : i.isSdRow = true)
    (hx : latchBody s.cfg (stopByte (crcField i)) (cardTest s.cfg i) s.card = .raised x tr) :
    exec i s = .next (mark s x tr) := by
  rw [exec_sdRow hu hi, hx]
  rfl

/-- In a scanning state a row does what its command does, unless that leaves a drained stream. -/
theorem exec_scanning {k : Card} (hu : s.unmarked) (hs : s.scanning) (hi : i.isSdRow = true)
    (hk : cardTest s.cfg i s.card = .done k)
    (queued : k.sd.state = .dataMulti → k.sd.outPos < k.sd.outBuf.length) :
    exec i s = .next { s.withCard k with reply := .silent } := by
  have hears := scanning_not_deaf hs
  obtain ⟨notAwaiting, notReceiving, -⟩ := hs
  refine exec_sdRow_done hu hi (latchBody_done notAwaiting notReceiving ?_ queued)
  rw [hears]
  exact hk

theorem exec_scanning_raised {x : Raise} {tr : List Event} (hu : s.unmarked) (hs : s.scanning)
    (hi : i.isSdRow = true) (hx : cardTest s.cfg i s.card = .raised x tr) : exec i s = .next (mark s x tr) := by
  have hears := scanning_not_deaf hs
  obtain ⟨notAwaiting, notReceiving, -⟩ := hs
  refine exec_sdRow_raised hu hi ?_
  rw [latchBody_outsideWrite notAwaiting notReceiving, hears, if_neg Bool.false_ne_true, hx, res_map_raised]

/-- A recognized command leaves what its rule leaves, with the window cleared (44_sd_commands.md R213, R215). -/
theorem exec_recognizedTotal {rule : Card → Card} (hu : s.unmarked) (hs : s.scanning) (hi : i.isSdRow = true)
    (hrule : cardTest s.cfg i = recognizedTotal rule)
    (queued : (rule s.card.takeAppFlag).sd.state = .dataMulti →
      (rule s.card.takeAppFlag).sd.outPos < (rule s.card.takeAppFlag).sd.outBuf.length) :
    exec i s = .next { s.withCard (rule s.card.takeAppFlag).clearWindow with reply := .silent } := by
  refine exec_scanning hu hs hi ?_ queued
  rw [hrule]
  rfl

end

/-! What the command rules leave, where they branch (44_sd_commands.md R216, R223 to R225). -/

section
variable (c : Cfg) (g : BitVec 32) (k : Card)

theorem ruleCmd0_eq : ruleCmd0 c k = { k with
    sd := { k.sd with
      state := if c.diskAttached then .idle else .inactive
      outBuf := if c.diskAttached then [0x01] else [0x00], outPos := 0
      blockSize := if c.cmd0ResetsBlocklen then 512 else k.sd.blockSize }
    trace := k.trace ++ [.logSd .tx (if c.diskAttached then [0x01] else [0x00])] } := by
  unfold ruleCmd0
  cases c.diskAttached <;> cases c.cmd0ResetsBlocklen <;> rfl

theorem ruleCmd18_eq : ruleCmd18 c g k = { k with
    sd := { k.sd with
      state := if c.diskAttached then .dataMulti else .idle
      nextBlock := if c.diskAttached then g else k.sd.nextBlock
      outBuf := if c.diskAttached then [0x00] else [0xFF], outPos := 0 }
    trace := k.trace ++ [.logSd .tx (if c.diskAttached then [0x00] else [0xFF])] } := by
  unfold ruleCmd18
  cases c.diskAttached <;> rfl

theorem blockLength_toNat : (blockLength g).toNat = g.toNat % 2 ^ 16 := by
  simp [blockLength]

variable {c g k}

theorem ruleCmd16_legal (low : 1 ≤ g.toNat % 2 ^ 16) (high : g.toNat % 2 ^ 16 ≤ c.maxBlockSize) :
    ruleCmd16 c g k =
      .done (({ k with sd := { k.sd with blockSize := blockLength g } }.queue [0x00]).enter .transfer) := by
  rw [ruleCmd16, if_neg (by rw [blockLength_toNat]; omega)]

theorem ruleCmd16_illegal (h : g.toNat % 2 ^ 16 = 0 ∨ c.maxBlockSize < g.toNat % 2 ^ 16) :
    ruleCmd16 c g k = .raised (.refuse (.blockSize (g.toNat % 2 ^ 16))) k.trace := by
  rw [ruleCmd16, blockLength_toNat, if_pos h]

end

/-- A block as CMD17 frames it (45_sd_data_phase.md R260; 30_encoding.md R112). -/
def framedBlock (data : List Byte) : List Byte := [0x00, 0xFF, 0xFE] ++ data ++ [0x00, 0x00]

/-- The response to a failed read is one of two (45_sd_data_phase.md R260). -/
def isFailureResponse (n : Nat) (bytes : List Byte) : Prop :=
  bytes = [0xFF] ∨ ∃ drawn : List Byte, drawn.length = n ∧ bytes = framedBlock drawn

theorem readFailureResponse_eq (k : Card) : ∃ bytes draws,
    readFailureResponse k = { k with draws := draws }.queue bytes ∧ isFailureResponse k.sd.blockSize.toNat bytes := by
  unfold readFailureResponse Card.drawBool
  cases Config.drawBool k.draws with
  | true => exact ⟨_, _, rfl, .inl rfl⟩
  | false => exact ⟨_, _, rfl, .inr ⟨_, by simp, rfl⟩⟩

/-- Everything CMD17 can answer (44_sd_commands.md R224; 45_sd_data_phase.md R254, R260). -/
theorem ruleCmd17_answers (c : Cfg) (g : BitVec 32) (k : Card) :
    ∃ bytes draws, ruleCmd17 c g k = ({ k with draws := draws }.queue bytes).enter .idle ∧
      let n := k.sd.blockSize.toNat
      let off := blockOffset c k.sd.blockSize g
      let block := framedBlock (Memory.readRange k.disk off n)
      (c.diskAttached = false → bytes = [0xFF] ∧ draws = k.draws) ∧
      (c.diskAttached = true → off + n ≤ c.diskLen → c.reliableDisk = true → bytes = block ∧ draws = k.draws) ∧
      (c.diskAttached = true → off + n ≤ c.diskLen ∧ bytes = block ∨ isFailureResponse n bytes) := by
  cases attached : c.diskAttached with
  | false =>
    exact ⟨[0xFF], k.draws, by simp [ruleCmd17, attached], fun _ => ⟨rfl, rfl⟩, nofun, nofun⟩
  | true =>
    obtain ⟨draws, drawn, ⟨-, inside, read⟩ | ⟨fails, read⟩⟩ :=
      card_diskRead_answers c k (blockOffset c k.sd.blockSize g) k.sd.blockSize.toNat
    · refine ⟨_, draws, by simp only [ruleCmd17, attached, read, if_true]; rfl, nofun, ?_, fun _ => .inl ⟨inside, rfl⟩⟩
      intro _ _ reliable
      refine ⟨rfl, drawn.resolve_left ?_⟩
      simp [reliable]
    · obtain ⟨bytes, draws', response, failure⟩ := readFailureResponse_eq { k with draws := draws }
      refine ⟨bytes, draws', by simp only [ruleCmd17, attached, read, if_true, response], nofun, ?_,
        fun _ => .inr failure⟩
      exact fun _ inside reliable => absurd ⟨attached, inside, reliable⟩ fails

theorem recognized_done {rule : Card → Res Card} {k k' : Card} (h : rule k.takeAppFlag = .done k') :
    recognized rule k = .done k'.clearWindow :=
  res_map_eq_done.mpr ⟨k', h, rfl⟩

/-! The dispatch of a frame is the test of its row (44_sd_commands.md R213; 30_encoding.md R111). -/

theorem isSdRow_sdInstr (key : SdKey) (index : BitVec 6) (argument : BitVec 32) (crc : BitVec 7) :
    (sdInstr key index argument crc).isSdRow = true := by
  cases key <;> rfl

theorem crcField_sdInstr (key : SdKey) (index : BitVec 6) (argument : BitVec 32) (crc : BitVec 7) :
    crcField (sdInstr key index argument crc) = crc := by
  cases key <;> rfl

theorem dispatch_eq_cardTest (c : Cfg) (crc : BitVec 7) (k : Card) : dispatch c k =
    cardTest c (sdInstr (sdKey k.sd.win.index k.sd.appCmd) k.sd.win.index k.sd.win.argument crc) k := by
  unfold dispatch
  cases sdKey k.sd.win.index k.sd.appCmd <;> rfl

theorem frameTest_eq_cardTest {c : Cfg} {i : Instr} {k : Card} (h : decodeFrame k.sd.appCmd k.sd.win = .ok i) :
    frameTest c k = cardTest c i k := by
  obtain ⟨valid, rfl⟩ := decodeFrame_ok_iff.mp h
  rw [frameTest, if_pos valid, dispatch_eq_cardTest]

/-- The last byte of a valid frame is its CRC field and the stop bit (30_encoding.md R108, R109). -/
theorem stopByte_crc {f : Window} (h : f.valid = true) : stopByte f.crc = f.b5 :=
  congrArg Window.b5 (frameOf_fields h)

theorem stopByte_of_decodeFrame {app : Bool} {f : Window} {i : Instr} (h : decodeFrame app f = .ok i) :
    i.isSdRow = true ∧ stopByte (crcField i) = f.b5 := by
  obtain ⟨valid, rfl⟩ := decodeFrame_ok_iff.mp h
  exact ⟨isSdRow_sdInstr _ _ _ _, by rw [crcField_sdInstr, stopByte_crc valid]⟩

/-- A latched byte that completes a frame does what the frame's row does once the window holds the frame. -/
theorem sdLatch_eq_cardTest {c : Cfg} {b : Byte} {i : Instr} {k : Card}
    (h : decodeFrame k.sd.appCmd (shiftWindow k.sd.win b) = .ok i) :
    sdLatch c b k = latchBody c (stopByte (crcField i)) (cardTest c i) (k.shift b) := by
  rw [(stopByte_of_decodeFrame h).2]
  exact latchBody_congr (frameTest_eq_cardTest (k := k.shift b) h)

/-- A latched byte that completes no valid frame makes an empty test (30_encoding.md R109). -/
theorem frameTest_invalid {c : Cfg} {k : Card} (h : ¬(k.sd.win.b0 &&& 0xC0 = 0x40 ∧ k.sd.win.b5 &&& 0x01 = 0x01)) :
    frameTest c k = .done k :=
  if_neg fun valid => h (window_valid_iff.mp valid)

/-- Settles O47: the latch is the row's own latch (`sdLatch_eq_cardTest`), with its outcomes concluded. -/
theorem latchRunsTheDecodedRow : Obligations.LatchRunsTheDecodedRow := by
  intro s b i hu h u
  have hi : i.isSdRow = true := (stopByte_of_decodeFrame h).1
  have latch := sdLatch_eq_cardTest (c := s.cfg) (k := s.card) h
  exact ⟨fun k hk => exec_sdRow_done (s := u) hu hi (latch ▸ hk),
    fun x trace hx => exec_sdRow_raised (s := u) hu hi (latch ▸ hx)⟩

/-! The commands, one statement each (44_sd_commands.md R216 to R232). -/

/-- Settles O48: each rule queues its bytes and enters its state, which is no stream. -/
theorem sdFixedResponses : Obligations.SdFixedResponses := by
  intro s g c i bytes x hu hs hmem
  have answers {i : Instr} {bytes : List Byte} {x : SdState} (hi : i.isSdRow = true)
      (hrule : cardTest s.cfg i = recognizedTotal fun k => (k.queue bytes).enter x) (hx : x ≠ .dataMulti) :
      ∃ t, exec i s = .next t ∧ upToDumps { s with
        sd := { s.sd with state := x, outBuf := bytes, outPos := 0, appCmd := false, win := clearedWindow }
        reply := .silent } t :=
    ⟨_, exec_recognizedTotal hu hs hi hrule fun stream => absurd stream hx, upToDumps_logSd _ .tx bytes⟩
  simp only [List.mem_cons, List.not_mem_nil, Prod.mk.injEq, or_false] at hmem
  rcases hmem with ⟨rfl, rfl, rfl⟩ | ⟨rfl, rfl, rfl⟩ | ⟨rfl, rfl, rfl⟩ | ⟨rfl, rfl, rfl⟩ | ⟨rfl, rfl, rfl⟩ |
    ⟨rfl, rfl, rfl⟩ | ⟨rfl, rfl, rfl⟩ <;> exact answers rfl rfl nofun

/-- Settles O49: each rule queues a response, which a stream has still to send, and at most sets the flag. -/
theorem sdStateKeepingCommands : Obligations.SdStateKeepingCommands := by
  intro s g c i bytes app hu hs hmem
  simp only [List.mem_cons, List.not_mem_nil, Prod.mk.injEq, or_false] at hmem
  rcases hmem with ⟨rfl, rfl, rfl⟩ | ⟨rfl, rfl, rfl⟩ | ⟨rfl, rfl, rfl⟩ | ⟨rfl, rfl, rfl⟩ <;>
    exact ⟨_, exec_recognizedTotal hu hs rfl rfl fun _ => Nat.succ_pos _, upToDumps_logSd _ .tx _⟩

/-- Settles O50: the four cases of image and block length (`ruleCmd0_eq`). -/
theorem sdReset : Obligations.SdReset := by
  intro s g c hu hs
  refine ⟨_, exec_recognizedTotal (rule := ruleCmd0 s.cfg) hu hs rfl rfl ?_, ?_⟩
  · rw [ruleCmd0_eq]
    cases s.cfg.diskAttached <;> nofun
  · rw [ruleCmd0_eq]
    exact upToDumps_logSd _ .tx _

/-- Settles O51: a legal length completes the rule, and an illegal one raises before anything changes. -/
theorem sdSetBlockLength : Obligations.SdSetBlockLength := by
  intro s g c hu hs len
  have length : BitVec.ofNat 16 len = blockLength g := BitVec.eq_of_toNat_eq (by simp [len, blockLength_toNat])
  constructor
  · rintro ⟨low, high⟩
    rw [length]
    exact ⟨_, exec_scanning hu hs rfl (recognized_done (ruleCmd16_legal low high)) nofun, upToDumps_logSd _ .tx _⟩
  · intro illegal
    have raises : cardTest s.cfg (.cmd16 g c) s.card = .raised (.refuse (.blockSize len)) s.trace :=
      res_map_eq_raised.mpr (ruleCmd16_illegal illegal)
    exact ⟨_, exec_scanning_raised hu hs rfl raises, upToDumps_refl _⟩

/-- Settles O52: what CMD17's rule can answer (`ruleCmd17_answers`). -/
theorem sdReadBlock : Obligations.SdReadBlock := by
  intro s g c hu hs n off block
  obtain ⟨bytes, draws, rule, answer⟩ := ruleCmd17_answers s.cfg g s.card.takeAppFlag
  refine ⟨_, bytes, draws, exec_recognizedTotal (i := .cmd17 g c) hu hs rfl rfl ?_, ?_, answer⟩
  · rw [rule]
    nofun
  · rw [rule]
    exact upToDumps_logSd _ .tx _

/-- Settles O53: the rule with an image and without one; a stream just started has its response still to send. -/
theorem sdStreamStart : Obligations.SdStreamStart := by
  intro s g c hu hs
  refine ⟨_, exec_recognizedTotal (rule := ruleCmd18 s.cfg g) hu hs rfl rfl ?_, ?_⟩
  · rw [ruleCmd18_eq]
    cases s.cfg.diskAttached <;> exact fun _ => Nat.succ_pos _
  · rw [ruleCmd18_eq]
    exact upToDumps_logSd _ .tx _

/-- Settles O55: the rule has no branch. -/
theorem sdWriteStart : Obligations.SdWriteStart := by
  intro s g c hu hs
  exact ⟨_, exec_recognizedTotal (rule := ruleCmd24 g) hu hs rfl rfl nofun, upToDumps_logSd _ .tx _⟩

/-- Settles O56: the unrecognized row's test clears the flag, an invalid frame's test does nothing, and neither is
followed by a block of the stream. -/
theorem unrecognizedCommands : Obligations.UnrecognizedCommands := by
  constructor
  · intro s index g c hu hs queued
    exact ⟨_, exec_scanning hu hs rfl rfl queued, upToDumps_refl _⟩
  · intro c k b ha hr queued invalid
    have ignored : (if (k.shift b).deaf c then .done (k.shift b) else frameTest c (k.shift b)) = .done (k.shift b) := by
      rw [frameTest_invalid (k := k.shift b) invalid, ite_self]
    exact ⟨_, latchBody_done ha hr ignored queued, [.logSd .rx [b]], by simp [Event.isSdDump], rfl⟩

/-! Frames that run no command (44_sd_commands.md R212, R233). -/

/-- The stop bit makes a frame's last byte odd, and the start token is even (30_encoding.md R108; 45_sd_data_phase.md
R256). -/
theorem stopByte_not_token : ∀ crc : BitVec 7, stopByte crc ≠ 0xFE := by decide

theorem encode_sdRow_b5 {i : Instr} {f : Window} (hi : i.isSdRow = true) (h : encode i = .frame f) :
    stopByte (crcField i) = f.b5 := by
  cases i with
  | cmd0 _ _ | cmd1 _ _ | cmd8 _ _ | cmd9 _ _ | cmd10 _ _ | cmd12 _ _ | cmd13 _ _ | cmd16 _ _ | cmd17 _ _ | cmd18 _ _
  | cmd24 _ _ | acmd41 _ _ | cmd41 _ _ | cmd55 _ _ | cmd58 _ _ | cmd59 _ _ | cmdUnrecognized _ _ _ =>
    cases h
    rfl
  | _ => cases hi

/-- Settles O57: the latch by the state of the session, with the frame's last byte as its data. -/
theorem framesAreSwallowed : Obligations.FramesAreSwallowed := by
  intro s i f hu hi hf
  refine ⟨?silent, ?block⟩
  case silent =>
    rintro (awaiting | ⟨inactive, ignores⟩)
    · refine exec_sdRow_done (k := s.card) hu hi ?_
      rw [latchBody_awaiting awaiting, awaitToken, if_neg (stopByte_not_token _)]
    · have deaf : s.card.deaf s.cfg = true := by simp [Card.deaf, inactive, ignores]
      have waiting {x : SdState} (hx : SdState.inactive ≠ x) : s.card.sd.state ≠ x :=
        fun h => hx (inactive.symm.trans h)
      exact exec_sdRow_done (k := s.card) hu hi (latchBody_done (waiting nofun) (waiting nofun) (if_pos deaf)
        fun stream => absurd stream (waiting nofun))
  case block =>
    intro receiving incomplete
    rw [exec_sdRow hu hi, latchBody_receiving receiving, receiveByte_incomplete incomplete, encode_sdRow_b5 hi hf]
    rfl

end Sys2Proof.Machine

namespace Sys2Proof.Machine

/-! Which operations change the session (44_sd_commands.md R235, R236). -/

/-- The eighth rising edge of a byte with the card selected, by the register's row or by the byte write at its
address. -/
def latchingWrite (s : State) (i : Instr) (v : Byte) : Prop :=
  (∃ address, i = .spiOutWrite address v ∨
      i = .writeByte address v ∧ writeRow s.cfg (maskAddr s.cfg address) = .spiOut) ∧
    risesSelected s v ∧ s.spi.count = 7

/-- A byte read in the I/O window is no SD row and no write of the framer. -/
theorem decodeByteRead_not_latching {c : Cfg} {address : Addr} (h : classify c (maskAddr c address).toNat = .io) :
    (decodeByteRead c address).isSdRow = false ∧ ∀ a v, decodeByteRead c address ≠ .spiOutWrite a v := by
  rw [decodeByteRead_io h]
  cases readRow c (maskAddr c address) <;> exact ⟨rfl, nofun⟩

/-- A byte write in the I/O window is no SD row, and a write of the framer only at its register. -/
theorem decodeByteWrite_latching {c : Cfg} {address : Addr} {v : Byte}
    (h : classify c (maskAddr c address).toNat = .io) :
    (decodeByteWrite c address v).isSdRow = false ∧
      ∀ a w, decodeByteWrite c address v = .spiOutWrite a w →
        a = address ∧ w = v ∧ writeRow c (maskAddr c address) = .spiOut := by
  rw [decodeByteWrite_io h]
  cases writeRow c (maskAddr c address) with
  | spiOut => exact ⟨rfl, fun a w e => by cases e; exact ⟨rfl, rfl, rfl⟩⟩
  | _ => exact ⟨rfl, nofun⟩

/-- A register or a host event leaves the session alone, unless it is the framer's eighth edge. -/
theorem operation_session_row {j : Instr} {s u : State} {y : Reply} (hj : isRegisterRow j = true)
    (hsd : j.isSdRow = false) (h : operation j s = .done (u, y)) :
    u.sd = s.sd ∨ ∃ address v k, j = .spiOutWrite address v ∧ risesSelected s v ∧ s.spi.count = 7 ∧
      sdLatch s.cfg (shiftedSpi s v).shiftIn s.card = .done k ∧ u.sd = k.poll.2.sd := by
  cases j with
  | readByte _ | readWord _ | readLong _ | writeByte _ _ | writeWord _ _ | writeLong _ _ => cases hj
  | spiOutWrite address v =>
    obtain ⟨p, hp, e⟩ := res_map_eq_done.mp h
    cases e
    rcases spiOutWrite_done hp with ⟨-, rfl⟩ | ⟨-, -, rfl⟩ | ⟨rises, last, k, hk, rfl⟩
    · exact .inl rfl
    · exact .inl rfl
    · exact .inr ⟨address, v, k, rfl, rises, last, hk, rfl⟩
  | duartDataRead _ =>
    obtain ⟨p, hp, e⟩ := res_map_eq_done.mp h
    cases e
    unfold duartDataRead at hp
    split at hp <;> cases hp
    exact .inl rfl
  | iack l =>
    cases h
    left
    unfold acknowledge
    split
    · rfl
    · split <;> rfl
  | expBankRead _ | expBankWrite _ _ =>
    obtain ⟨p, hp, e⟩ := res_map_eq_done.mp h
    cases e
    split at hp <;> cases hp <;> exact .inl rfl
  | hostIn _ | tick | setbank _ | duartStatusRead _ | duartDataWrite _ _ | duartImrWrite _ _ | duartOtherWrite _ _
  | duartOtherRead _ | usbCmdWrite _ _ | usbDataWrite _ _ | usbDataRead _ | usbCmdRead _ | spiOutRead _
  | spiInRead _ | spiInWrite _ _ | ioUnimplementedWrite _ _ | ioUnimplementedRead _ =>
    cases h
    exact .inl rfl
  | _ => cases hsd

/-- Everything that can become of the session: it stays, an SD row's latch changes it, or a latch of the framer does
(44_sd_commands.md R236). -/
theorem exec_session {i : Instr} {s t : State} (h : exec i s = .next t) :
    t.sd = s.sd ∨
    (i.isSdRow = true ∧ ∃ k,
      latchBody s.cfg (stopByte (crcField i)) (cardTest s.cfg i) s.card = .done k ∧ t.sd = k.sd) ∨
    ∃ v k, latchingWrite s i v ∧ sdLatch s.cfg (shiftedSpi s v).shiftIn s.card = .done k ∧ t.sd = k.poll.2.sd := by
  obtain ⟨-, ⟨u, y, hdone, rfl⟩ | ⟨x, tr, -, rfl⟩⟩ := exec_cases h
  · rcases operation_done_cases hdone with ⟨ev, rfl⟩ | ⟨n, a, v, -, ⟨-, rfl⟩ | ⟨-, rfl⟩⟩ | ⟨j, hj, hrow, hji⟩
    · exact .inl rfl
    · exact .inl rfl
    · exact .inl rfl
    · cases hsd : j.isSdRow with
      | true =>
        have hi : j = i := by
          rcases hji with rfl | ⟨address, -, rfl, hc⟩ | ⟨address, v, -, rfl, hc⟩
          · rfl
          · rw [(decodeByteRead_not_latching hc).1] at hsd
            cases hsd
          · rw [(decodeByteWrite_latching hc).1] at hsd
            cases hsd
        subst hi
        rw [operation_sdRow hsd] at hrow
        obtain ⟨k, hk, e⟩ := res_map_eq_done.mp hrow
        cases e
        exact .inr (.inl ⟨hsd, k, hk, rfl⟩)
      | false =>
        rcases operation_session_row hj hsd hrow with same | ⟨a, v, k, rfl, rises, last, hk, after⟩
        · exact .inl same
        · refine .inr (.inr ⟨v, k, ⟨?_, rises, last⟩, hk, after⟩)
          rcases hji with rfl | ⟨address, -, e, hc⟩ | ⟨address, w, rfl, e, hc⟩
          · exact ⟨a, .inl rfl⟩
          · exact absurd e.symm ((decodeByteRead_not_latching hc).2 a v)
          · obtain ⟨rfl, rfl, selects⟩ := (decodeByteWrite_latching hc).2 a v e.symm
            exact ⟨a, .inr ⟨rfl, selects⟩⟩
  · exact .inl rfl

/-- Settles O46: of what can become of the session (`exec_session`), only the framer's latch is left. -/
theorem sessionChangesOnlyByLatch : Obligations.SessionChangesOnlyByLatch := by
  intro i s t h notSdRow changed
  rcases exec_session h with same | ⟨hsd, -⟩ | ⟨v, k, ⟨⟨address, write⟩, rises, last⟩, -⟩
  · exact absurd same changed
  · rw [hsd] at notSdRow
    cases notSdRow
  · exact ⟨address, v, write, rises, last⟩

/-! The four states of the session that no rule enters (44_sd_commands.md R235). -/

/-- From `x` to `y` the session enters none of the four states. -/
def entersNone (x y : SdState) : Prop := y ∈ [SdState.ident, .data, .receive, .program] → y = x

theorem entersNone_refl (x : SdState) : entersNone x x := fun _ => rfl

theorem entersNone_trans {x y z : SdState} (h : entersNone x y) (h' : entersNone y z) : entersNone x z := by
  intro four
  obtain rfl := h' four
  exact h four

/-- A state outside the four may be entered from any. -/
theorem entersNone_of {x : SdState} (y : SdState) (hy : y ∉ [SdState.ident, .data, .receive, .program]) :
    entersNone x y :=
  fun four => absurd four hy

/-- A stream that goes on stays, and one whose read fails ends in IDLE (45_sd_data_phase.md R259). -/
theorem streamNext_entersNone (c : Cfg) (k : Card) : entersNone k.sd.state (streamNext c k).sd.state := by
  unfold streamNext
  split
  · have kept := (card_diskRead_cases c k (blockOffset c k.sd.blockSize k.sd.nextBlock) k.sd.blockSize.toNat).1
    split
    · exact entersNone_of .idle (by decide)
    · next read =>
      rw [read] at kept
      rw [← kept]
      exact entersNone_refl _
  · exact entersNone_refl _

theorem awaitToken_entersNone (b : Byte) (k : Card) : entersNone k.sd.state (awaitToken b k).sd.state := by
  unfold awaitToken
  split
  · exact entersNone_of .receivingBlock (by decide)
  · exact entersNone_refl _

/-- A received byte stays in the block, and the last one ends it in IDLE (45_sd_data_phase.md R257, R258). -/
theorem receiveByte_entersNone {c : Cfg} {b : Byte} {k k' : Card} (h : receiveByte c b k = .done k') :
    entersNone k.sd.state k'.sd.state := by
  unfold receiveByte at h
  simp only [] at h
  split at h
  · obtain ⟨p, -, rfl⟩ := res_map_eq_done.mp h
    exact entersNone_of .idle (by decide)
  · cases h
    exact entersNone_refl _

/-- A command's rule stays in the state, or enters one outside the four. -/
theorem cardTest_entersNone {c : Cfg} {i : Instr} {k k' : Card} (h : cardTest c i k = .done k') :
    entersNone k.sd.state k'.sd.state := by
  cases i with
  | cmd16 g _ =>
    obtain ⟨k1, h1, rfl⟩ := res_map_eq_done.mp h
    unfold ruleCmd16 at h1
    simp only [] at h1
    split at h1 <;> cases h1
    exact entersNone_of .transfer (by decide)
  | cmd0 _ _ =>
    cases h
    rw [ruleCmd0_eq]
    cases c.diskAttached with
    | true => exact entersNone_of .idle (by decide)
    | false => exact entersNone_of .inactive (by decide)
  | cmd18 g _ =>
    cases h
    rw [ruleCmd18_eq]
    cases c.diskAttached with
    | true => exact entersNone_of .dataMulti (by decide)
    | false => exact entersNone_of .idle (by decide)
  | cmd8 _ _ | cmd55 _ _ | cmd58 _ _ | cmd59 _ _ | cmdUnrecognized _ _ _ => cases h; exact entersNone_refl _
  | cmd1 _ _ => cases h; exact entersNone_of .ready (by decide)
  | cmd9 _ _ | cmd10 _ _ | cmd13 _ _ => cases h; exact entersNone_of .standby (by decide)
  | cmd12 _ _ => cases h; exact entersNone_of .transfer (by decide)
  | cmd17 _ _ | acmd41 _ _ => cases h; exact entersNone_of .idle (by decide)
  | cmd24 _ _ => cases h; exact entersNone_of .awaitingStartToken (by decide)
  | cmd41 _ _ => cases h; exact entersNone_of .inactive (by decide)
  | _ => cases h; exact entersNone_refl _

theorem frameTest_entersNone {c : Cfg} {k k' : Card} (h : frameTest c k = .done k') :
    entersNone k.sd.state k'.sd.state := by
  unfold frameTest at h
  split at h
  · rw [dispatch_eq_cardTest c k.sd.win.crc] at h
    exact cardTest_entersNone h
  · cases h
    exact entersNone_refl _

/-- A latch enters none of the four if its frame test does not. -/
theorem latchBody_entersNone {c : Cfg} {b : Byte} {test : Card → Res Card} {k k' : Card}
    (ht : ∀ k', test k = .done k' → entersNone k.sd.state k'.sd.state) (h : latchBody c b test k = .done k') :
    entersNone k.sd.state k'.sd.state := by
  by_cases awaiting : k.sd.state = .awaitingStartToken
  · rw [latchBody_awaiting awaiting] at h
    cases h
    exact awaitToken_entersNone b k
  by_cases receiving : k.sd.state = .receivingBlock
  · rw [latchBody_receiving receiving] at h
    exact receiveByte_entersNone h
  rw [latchBody_outsideWrite awaiting receiving] at h
  obtain ⟨k1, tested, rfl⟩ := res_map_eq_done.mp h
  have first : entersNone k.sd.state k1.sd.state := by
    split at tested
    · cases tested
      exact entersNone_refl _
    · exact ht k1 tested
  split
  · exact entersNone_trans first (streamNext_entersNone c k1)
  · exact first

theorem poll_state (k : Card) : k.poll.2.sd.state = k.sd.state := by
  rw [card_poll_eq]
  split <;> rfl

/-- Settles O12: of what can become of the session (`exec_session`), no latch enters one of the four states. -/
theorem fourStatesNeverEntered : Obligations.FourStatesNeverEntered := by
  intro i s t h
  rcases exec_session h with same | ⟨-, k, hk, after⟩ | ⟨v, k, -, hk, after⟩
  · rw [same]
    exact entersNone_refl _
  · rw [after]
    exact latchBody_entersNone (fun _ => cardTest_entersNone) hk
  · rw [after, poll_state]
    exact latchBody_entersNone (fun _ => frameTest_entersNone) hk

end Sys2Proof.Machine

namespace Sys2Proof.Machine

/-! The write data phase (45_sd_data_phase.md R255 to R258). -/

/-- Settles O58: the latch in this state is `awaitToken`, with and without the token. -/
theorem startToken : Obligations.StartToken := by
  intro c k b awaiting
  refine ⟨_, latchBody_awaiting (k := k.shift b) awaiting, ?_⟩
  by_cases token : b = 0xFE
  · rw [awaitToken, if_pos token, if_pos token]
    exact ⟨rfl, rfl⟩
  · rw [awaitToken, if_neg token, if_neg token]
    exact ⟨rfl, rfl⟩

/-- A received byte joins the block (45_sd_data_phase.md R257). -/
def Card.join (b : Byte) (k : Card) : Card :=
  { k with sd := { k.sd with inBuf := k.sd.inBuf ++ [b], inCount := k.sd.inCount + 1 } }

section
variable {c : Cfg} {b : Byte} {k : Card}

theorem receiveByte_complete (h : k.sd.inCount + 1 = k.sd.blockSize.toNat + 2) :
    receiveByte c b k = completeWrite c (k.join b) :=
  if_pos h

theorem sdLatch_receiving (h : k.sd.state = .receivingBlock) : sdLatch c b k = receiveByte c b (k.shift b) :=
  latchBody_receiving (k := k.shift b) h

variable {off : Nat} {data : List Byte}

/-- With no image a write fails (45_sd_data_phase.md R255). -/
theorem card_diskWrite_noImage (h : c.diskAttached = false) : k.diskWrite c off data = .done (k, false) := by
  simp [Card.diskWrite, h]

/-- A write past the image is refused (45_sd_data_phase.md R255). -/
theorem card_diskWrite_past (ha : c.diskAttached = true) (h : c.diskLen < off + data.length) :
    k.diskWrite c off data = .raised (.refuse (.diskExtend off data.length)) k.trace := by
  simp [Card.diskWrite, ha, h]

/-- A write inside the image stores the data or leaves the image, and a reliable disk stores it (45_sd_data_phase.md
R255). -/
theorem card_diskWrite_inside (ha : c.diskAttached = true) (h : off + data.length ≤ c.diskLen) :
    ∃ draws ok, (c.reliableDisk = true → ok = true) ∧ k.diskWrite c off data = .done
      ({ k with disk := if ok then Memory.writeRange k.disk off data else k.disk, draws := draws }, ok) := by
  cases hr : c.reliableDisk with
  | true => exact ⟨k.draws, true, fun _ => rfl, by simp [Card.diskWrite, ha, hr, Nat.not_lt.mpr h]⟩
  | false =>
    refine ⟨k.draws + 1, Config.drawBool k.draws, nofun, ?_⟩
    cases drawn : Config.drawBool k.draws <;>
      simp [Card.diskWrite, ha, hr, Nat.not_lt.mpr h, Card.drawBool, drawn]

end

/-- Settles O59: a byte that leaves the block incomplete joins it, and the last one is the disk's write, of which the
three outcomes are the disk's three. -/
theorem blockWrite : Obligations.BlockWrite := by
  intro c k b receiving n off data
  have latch := sdLatch_receiving (c := c) (b := b) receiving
  have last (complete : k.sd.inCount + 1 = n + 2) :
      sdLatch c b k = (((k.shift b).join b).diskWrite c off data).map fun p => finishWrite p.2 p.1 :=
    latch.trans (receiveByte_complete (k := k.shift b) complete)
  refine ⟨?incomplete, ?inside, ?noImage, ?past⟩
  case incomplete =>
    intro incomplete
    exact ⟨_, latch.trans (receiveByte_incomplete (k := k.shift b) incomplete), rfl, rfl⟩
  case inside =>
    intro complete attached inside
    obtain ⟨draws, ok, reliable, write⟩ := card_diskWrite_inside (k := (k.shift b).join b) attached inside
    exact ⟨_, ok, (last complete).trans (congrArg (Res.map _) write), reliable, rfl, rfl⟩
  case noImage =>
    intro complete noImage
    exact ⟨_, (last complete).trans (congrArg (Res.map _) (card_diskWrite_noImage noImage)), rfl, rfl⟩
  case past =>
    intro complete attached past
    exact ⟨_, (last complete).trans (congrArg (Res.map _) (card_diskWrite_past attached past))⟩

end Sys2Proof.Machine

namespace Sys2Proof.Machine

/-! The output cursor (45_sd_data_phase.md R250, R251, R261). -/

/-- The output cursor is at most at the end of the output (45_sd_data_phase.md R261). -/
def Sd.cursorInside (x : Sd) : Prop := x.outPos ≤ x.outBuf.length

/-- A queued response is read from its start (45_sd_data_phase.md R250). -/
theorem cursorInside_of_start {x : Sd} (h : x.outPos = 0) : x.cursorInside := by
  rw [Sd.cursorInside, h]
  exact Nat.zero_le _

section
variable {c : Cfg} {k k' : Card}

/-- Only the poll moves the cursor, and it stops at the end (45_sd_data_phase.md R251). -/
theorem cursorInside_poll (h : k.sd.cursorInside) : k.poll.2.sd.cursorInside := by
  rw [card_poll_eq]
  split
  · next unsent => exact unsent
  · exact h

theorem cursorInside_streamNext (h : k.sd.cursorInside) : (streamNext c k).sd.cursorInside := by
  unfold streamNext
  split
  · have kept := (card_diskRead_cases c k (blockOffset c k.sd.blockSize k.sd.nextBlock) k.sd.blockSize.toNat).1
    split
    · next read =>
      rw [read] at kept
      exact (congrArg Sd.cursorInside kept).mpr h
    · exact cursorInside_of_start rfl
  · exact h

theorem cursorInside_awaitToken (b : Byte) (h : k.sd.cursorInside) : (awaitToken b k).sd.cursorInside := by
  unfold awaitToken
  split <;> exact h

/-- A received byte leaves the output, and the last one queues the write's response. -/
theorem cursorInside_receiveByte {b : Byte} (h : k.sd.cursorInside) (hk : receiveByte c b k = .done k') :
    k'.sd.cursorInside := by
  by_cases complete : k.sd.inCount + 1 = k.sd.blockSize.toNat + 2
  · rw [receiveByte_complete complete] at hk
    obtain ⟨p, -, rfl⟩ := res_map_eq_done.mp hk
    exact cursorInside_of_start rfl
  · rw [receiveByte_incomplete complete] at hk
    cases hk
    exact h

/-- A command queues its response, and an unrecognized one leaves the output. -/
theorem cursorInside_cardTest {i : Instr} (h : k.sd.cursorInside) (hk : cardTest c i k = .done k') :
    k'.sd.cursorInside := by
  cases i with
  | cmd16 g _ =>
    obtain ⟨k1, rule, rfl⟩ := res_map_eq_done.mp hk
    unfold ruleCmd16 at rule
    simp only [] at rule
    split at rule <;> cases rule
    exact cursorInside_of_start rfl
  | cmd0 _ _ =>
    cases hk
    rw [ruleCmd0_eq]
    exact cursorInside_of_start rfl
  | cmd17 g _ =>
    cases hk
    obtain ⟨bytes, draws, rule, -⟩ := ruleCmd17_answers c g k.takeAppFlag
    rw [rule]
    exact cursorInside_of_start rfl
  | cmd18 g _ =>
    cases hk
    rw [ruleCmd18_eq]
    exact cursorInside_of_start rfl
  | cmd1 _ _ | cmd8 _ _ | cmd9 _ _ | cmd10 _ _ | cmd12 _ _ | cmd13 _ _ | cmd24 _ _ | acmd41 _ _ | cmd41 _ _
  | cmd55 _ _ | cmd58 _ _ | cmd59 _ _ =>
    cases hk
    exact cursorInside_of_start rfl
  | _ =>
    cases hk
    exact h

theorem cursorInside_frameTest (h : k.sd.cursorInside) (hk : frameTest c k = .done k') : k'.sd.cursorInside := by
  unfold frameTest at hk
  split at hk
  · rw [dispatch_eq_cardTest c k.sd.win.crc] at hk
    exact cursorInside_cardTest h hk
  · cases hk
    exact h

/-- A latch keeps the cursor inside if its frame test does. -/
theorem cursorInside_latchBody {b : Byte} {test : Card → Res Card} (h : k.sd.cursorInside)
    (ht : ∀ k', test k = .done k' → k'.sd.cursorInside) (hk : latchBody c b test k = .done k') :
    k'.sd.cursorInside := by
  by_cases awaiting : k.sd.state = .awaitingStartToken
  · rw [latchBody_awaiting awaiting] at hk
    cases hk
    exact cursorInside_awaitToken b h
  by_cases receiving : k.sd.state = .receivingBlock
  · rw [latchBody_receiving receiving] at hk
    exact cursorInside_receiveByte h hk
  rw [latchBody_outsideWrite awaiting receiving] at hk
  obtain ⟨k1, tested, rfl⟩ := res_map_eq_done.mp hk
  have first : k1.sd.cursorInside := by
    split at tested
    · cases tested
      exact h
    · exact ht k1 tested
  split
  · exact cursorInside_streamNext first
  · exact first

end

/-- Settles O11: of what can become of the session (`exec_session`), both latches and the poll keep the cursor
inside. -/
theorem outputCursorStaysInside : Obligations.OutputCursorStaysInside := by
  intro i s t h ht
  have inside : s.card.sd.cursorInside := h
  rcases exec_session ht with same | ⟨-, k, hk, after⟩ | ⟨v, k, -, hk, after⟩
  · rw [same]
    exact h
  · rw [after]
    exact cursorInside_latchBody inside (fun _ => cursorInside_cardTest inside) hk
  · rw [after]
    exact cursorInside_poll (cursorInside_latchBody (k := s.card.shift _) inside
      (fun _ => cursorInside_frameTest (k := s.card.shift _) inside) hk)

end Sys2Proof.Machine

namespace Sys2Proof.Machine

/-! The block stream (45_sd_data_phase.md R259). -/

section
variable {c : Cfg} {k k' : Card}

/-- The next block's number, as the spec's sum (45_sd_data_phase.md R259). -/
theorem streamStep_add (c : Cfg) (blockSize : BitVec 16) (block : BitVec 32) :
    block + streamStep c blockSize = BitVec.ofNat 32 (block.toNat +
      if c.cardHc ∨ c.legacyMultiStep = .one then 1 else blockSize.toNat) := by
  apply BitVec.eq_of_toNat_eq
  unfold streamStep
  cases c.cardHc <;> cases c.legacyMultiStep <;> simp

/-- SD dumps before other SD dumps are no difference (44_sd_commands.md R210). -/
theorem cardUpToDumps_of_log {d : SdDump} {l : List Byte} (h : cardUpToDumps (k.log d l) k') : cardUpToDumps k k' := by
  obtain ⟨dumps, isDump, rfl⟩ := h
  refine ⟨.logSd d l :: dumps, ?_, ?_⟩
  · simpa [Event.isSdDump] using isDump
  · simp [Card.log]

/-- What the stream makes of a card is no matter of the dumps before. -/
theorem streams_of_log {n off : Nat} {d : SdDump} {l : List Byte} (h : streams c n off (k.log d l) k') :
    streams c n off k k' := by
  obtain ⟨draws, drawn, ⟨inside, next⟩ | ⟨fails, ended⟩⟩ := h
  · exact ⟨draws, drawn, .inl ⟨inside, cardUpToDumps_of_log next⟩⟩
  · exact ⟨draws, drawn, .inr ⟨fails, cardUpToDumps_of_log ended⟩⟩

/-- With the output drained the disk's answer decides between the next block and the end of the stream. -/
theorem streamNext_streams (h : k.sd.outBuf.length ≤ k.sd.outPos) :
    streams c k.sd.blockSize.toNat (blockOffset c k.sd.blockSize k.sd.nextBlock) k (streamNext c k) := by
  have drained : k.drained = true := by simpa [Card.drained] using h
  obtain ⟨draws, drawn, ⟨attached, inside, read⟩ | ⟨fails, read⟩⟩ :=
    card_diskRead_answers c k (blockOffset c k.sd.blockSize k.sd.nextBlock) k.sd.blockSize.toNat
  · refine ⟨draws, drawn.imp_left (and_assoc.mpr ·), .inl ⟨⟨attached, inside⟩, ?_⟩⟩
    simp only [streamNext, drained, if_true, read, streamStep_add]
    exact ⟨[.logSd .tx _], by simp [Event.isSdDump], rfl⟩
  · refine ⟨draws, drawn.imp_left (and_assoc.mpr ·), .inr ⟨mt and_assoc.mp fails, ?_⟩⟩
    simp only [streamNext, drained, if_true, read]
    exact ⟨[], nofun, by rw [List.append_nil]; rfl⟩

/-- In DATA_MULTI a byte whose test stays in DATA_MULTI is followed by `stream_next` (44_sd_commands.md R210). -/
theorem latchBody_stream {b : Byte} {test : Card → Res Card} (stream : k.sd.state = .dataMulti)
    (hk : test k = .done k') (goesOn : k'.sd.state = .dataMulti) :
    latchBody c b test k = .done (streamNext c k') := by
  have hears : k.deaf c = false := by simp [Card.deaf, stream]
  rw [latchBody_outsideWrite (by simp [stream]) (by simp [stream]), hears, if_neg Bool.false_ne_true, hk, res_map_done,
    if_pos goesOn]

end

/-- Settles O54: either test stays in DATA_MULTI, so `stream_next` follows it (`streamNext_streams`). -/
theorem streamProducesTheNextBlock : Obligations.StreamProducesTheNextBlock := by
  constructor
  · intro s index g c hu stream drained n off
    have latch : latchBody s.cfg (stopByte c) unrecognized s.card = .done (streamNext s.cfg s.card.takeAppFlag) :=
      latchBody_stream stream rfl stream
    exact ⟨_, exec_sdRow_done (i := .cmdUnrecognized index g c) hu rfl latch,
      streamNext_streams (k := s.card.takeAppFlag) drained⟩
  · intro c k b stream drained invalid n off
    have ignored : frameTest c (k.shift b) = .done (k.shift b) := frameTest_invalid (k := k.shift b) invalid
    refine ⟨_, latchBody_stream (k := k.shift b) stream ignored stream, ?_⟩
    exact streams_of_log (d := .rx) (l := [b]) (streamNext_streams (k := k.shift b) drained)

end Sys2Proof.Machine

namespace Sys2Proof.Machine

/-! Bytes exchanged one after another (30_encoding.md R118; 43_spi_framer.md R198): what the card makes of them. -/

/-- The card after the given bytes, each latched and followed by one poll (43_spi_framer.md R194). -/
def latches (c : Cfg) : List Byte → Card → Res Card
  | [], k => .done k
  | b :: bs, k => (sdLatch c b k).bind fun k => latches c bs k.poll.2

theorem latches_append {c : Cfg} {bs bs' : List Byte} {k k' k'' : Card} (h : latches c bs k = .done k')
    (h' : latches c bs' k' = .done k'') : latches c (bs ++ bs') k = .done k'' := by
  induction bs generalizing k with
  | nil => cases h; exact h'
  | cons b bs ih =>
    obtain ⟨k1, latch, rest⟩ := res_bind_eq_done.mp h
    exact res_bind_eq_done.mpr ⟨k1, latch, ih rest⟩

theorem latches_one {c : Cfg} {b : Byte} {k k' : Card} (h : sdLatch c b k = .done k') :
    latches c [b] k = .done k'.poll.2 :=
  res_bind_eq_done.mpr ⟨k', h, rfl⟩

/-- The script's exchanges, from one byte boundary to another, are the card's latches (43_spi_framer.md R198). -/
theorem exchangeAll_latches {bs : List Byte} {s : State} {k : Card} (hu : s.unmarked) (hv : validCfg s.cfg = true)
    (hc : s.spi.count = 0) (hk : latches s.cfg bs s.card = .done k) :
    ∃ t r, exchangeAll bs s = some (t, r) ∧ t.card = k ∧ t.cfg = s.cfg ∧ t.unmarked ∧ t.spi.count = 0 := by
  induction bs generalizing s with
  | nil =>
    cases hk
    exact ⟨s, [], rfl, rfl, rfl, hu, hc⟩
  | cons b bs ih =>
    obtain ⟨k1, latch, rest⟩ := res_bind_eq_done.mp hk
    obtain ⟨t, first, after⟩ := byteExchange s b k1 hu hv hc latch
    have card : t.card = k1.poll.2 := by
      rw [after, card_poll_eq]
      split <;> rfl
    have cfg : t.cfg = s.cfg := by rw [after]
    obtain ⟨u, r, others, uCard, uCfg, uMarks, uCount⟩ :=
      ih (s := t) (by rw [after]; exact hu) (cfg ▸ hv) (by rw [after]) (by rw [cfg, card]; exact rest)
    exact ⟨u, s.spi.shiftOut :: r, by rw [exchangeAll, first, Option.bind_some, others]; rfl, uCard, uCfg.trans cfg,
      uMarks, uCount⟩

/-! Bytes that the card takes no notice of. -/

/-- `k'` is `k` but for the window, the output's cursor and the run's own records. -/
def onlyShifted (k k' : Card) : Prop :=
  k'.disk = k.disk ∧ ∃ pos win, k'.sd = { k.sd with outPos := pos, win := win }

theorem onlyShifted_refl (k : Card) : onlyShifted k k := ⟨rfl, _, _, rfl⟩

theorem onlyShifted_trans {k k' k'' : Card} (h : onlyShifted k k') (h' : onlyShifted k' k'') : onlyShifted k k'' := by
  obtain ⟨disk, pos, win, session⟩ := h
  obtain ⟨disk', pos', win', session'⟩ := h'
  exact ⟨disk'.trans disk, pos', win', by rw [session', session]⟩

theorem poll_onlyShifted (k : Card) : onlyShifted k k.poll.2 := by
  rw [card_poll_eq]
  split <;> exact ⟨rfl, _, _, rfl⟩

theorem poll_win (k : Card) : k.poll.2.sd.win = k.sd.win := by
  rw [card_poll_eq]
  split <;> rfl

/-- The latch of `b` does nothing but shift the window. -/
def ignores (c : Cfg) (b : Byte) (k : Card) : Prop :=
  ∃ k', sdLatch c b k = .done k' ∧ onlyShifted k k' ∧ k'.sd.win = shiftWindow k.sd.win b

/-- A run of ignored bytes shifts the window, if some condition on the card and the bytes still to come makes each of
them ignored. -/
theorem latches_ignored {c : Cfg} {bs : List Byte} {k : Card} (cond : Card → List Byte → Prop)
    (ignored : ∀ {k b bs}, cond k (b :: bs) → ignores c b k)
    (kept : ∀ {k k' b bs}, cond k (b :: bs) → onlyShifted k k' → k'.sd.win = shiftWindow k.sd.win b → cond k' bs)
    (h : cond k bs) :
    ∃ k', latches c bs k = .done k' ∧ onlyShifted k k' ∧ k'.sd.win = bs.foldl shiftWindow k.sd.win := by
  induction bs generalizing k with
  | nil => exact ⟨k, rfl, onlyShifted_refl k, rfl⟩
  | cons b bs ih =>
    obtain ⟨k1, latch, same, win⟩ := ignored h
    have same1 := onlyShifted_trans same (poll_onlyShifted k1)
    have win1 := (poll_win k1).trans win
    obtain ⟨k2, rest, same2, win2⟩ := ih (kept h same1 win1)
    exact ⟨k2, res_bind_eq_done.mpr ⟨k1, latch, rest⟩, onlyShifted_trans same1 same2, by rw [win2, win1]; rfl⟩

/-- A byte other than the token is discarded while the token is awaited (45_sd_data_phase.md R256). -/
theorem latches_awaiting {c : Cfg} {bs : List Byte} {k : Card} (awaiting : k.sd.state = .awaitingStartToken)
    (noToken : ∀ b ∈ bs, b ≠ 0xFE) :
    ∃ k', latches c bs k = .done k' ∧ onlyShifted k k' ∧ k'.sd.win = bs.foldl shiftWindow k.sd.win := by
  refine latches_ignored (fun k bs => k.sd.state = .awaitingStartToken ∧ ∀ b ∈ bs, b ≠ 0xFE) ?ignored ?kept
    ⟨awaiting, noToken⟩
  case ignored =>
    rintro k b bs ⟨awaiting, noToken⟩
    obtain ⟨k', latch, disk, session⟩ := startToken c k b awaiting
    rw [if_neg (noToken b List.mem_cons_self)] at session
    exact ⟨k', latch, ⟨disk, _, _, session⟩, by rw [session]⟩
  case kept =>
    rintro k k' b bs ⟨awaiting, noToken⟩ ⟨-, _, _, session⟩ -
    exact ⟨by rw [session]; exact awaiting, fun x hx => noToken x (List.mem_cons_of_mem _ hx)⟩

/-- The states from which the script's frames are dispatched and followed by no streamed block. -/
def commandStates : List SdState := [.idle, .ready, .standby, .transfer]

/-- The bytes, shifted into window `w` one after another, complete no valid frame (30_encoding.md R109). -/
def completesNone : Window → List Byte → Prop
  | _, [] => True
  | w, b :: bs => ¬(w.b1 &&& 0xC0 = 0x40 ∧ b &&& 0x01 = 0x01) ∧ completesNone (shiftWindow w b) bs

theorem commandStates_ne {x : SdState} (h : x ∈ commandStates) :
    x ≠ .awaitingStartToken ∧ x ≠ .receivingBlock ∧ x ≠ .dataMulti ∧ x ≠ .inactive := by
  revert x
  decide

/-- A byte that completes no frame is ignored (30_encoding.md R109; 44_sd_commands.md R211). -/
theorem latches_noFrame {c : Cfg} {bs : List Byte} {k : Card} (state : k.sd.state ∈ commandStates)
    (invalid : completesNone k.sd.win bs) :
    ∃ k', latches c bs k = .done k' ∧ onlyShifted k k' ∧ k'.sd.win = bs.foldl shiftWindow k.sd.win := by
  refine latches_ignored (fun k bs => k.sd.state ∈ commandStates ∧ completesNone k.sd.win bs) ?ignored ?kept
    ⟨state, invalid⟩
  case ignored =>
    rintro k b bs ⟨state, first, -⟩
    obtain ⟨notAwaiting, notReceiving, noStream, -⟩ := commandStates_ne state
    obtain ⟨_, latch, dumps, -, rfl⟩ := unrecognizedCommands.2 c k b notAwaiting notReceiving
      (fun stream => absurd stream noStream) first
    exact ⟨_, latch, ⟨rfl, _, _, rfl⟩, rfl⟩
  case kept =>
    rintro k k' b bs ⟨state, -, rest⟩ ⟨-, _, _, session⟩ win
    exact ⟨by rw [session]; exact state, win ▸ rest⟩

/-! Frames over SPI. -/

/-- No byte of the window past the first starts a frame (30_encoding.md R109), so the next five bytes complete none. -/
def noStart (w : Window) : Prop := ∀ x ∈ [w.b1, w.b2, w.b3, w.b4, w.b5], x &&& 0xC0 ≠ (0x40 : Byte)

theorem noStart_clearedWindow : noStart clearedWindow := by
  unfold noStart
  decide

/-- The idle byte starts no frame (30_encoding.md R115). -/
theorem completesNone_idle {w : Window} (h : noStart w) (n : Nat) :
    completesNone w (List.replicate n 0xFF) ∧ noStart ((List.replicate n 0xFF).foldl shiftWindow w) := by
  induction n generalizing w with
  | zero => exact ⟨trivial, h⟩
  | succ n ih =>
    have shifted : noStart (shiftWindow w 0xFF) := by
      simp only [noStart, shiftWindow, List.forall_mem_cons] at h ⊢
      obtain ⟨-, h2, h3, h4, h5, -⟩ := h
      exact ⟨h2, h3, h4, h5, by decide, by simp⟩
    obtain ⟨rest, last⟩ := ih shifted
    exact ⟨⟨fun start => h w.b1 (by simp) start.1, rest⟩, last⟩

theorem completesNone_five {w : Window} (h : noStart w) (b0 b1 b2 b3 b4 : Byte) :
    completesNone w [b0, b1, b2, b3, b4] := by
  simp only [noStart, List.forall_mem_cons] at h
  obtain ⟨h1, h2, h3, h4, h5, -⟩ := h
  exact ⟨fun x => h1 x.1, fun x => h2 x.1, fun x => h3 x.1, fun x => h4 x.1, fun x => h5 x.1, trivial⟩

/-- The frame of a recognized command, sent to a card that listens, does what its rule does (44_sd_commands.md R210,
R213). -/
theorem latches_frame {c : Cfg} {k : Card} {index : BitVec 6} {g : BitVec 32} {crc : BitVec 7} {rule : Card → Card}
    (state : k.sd.state ∈ commandStates) (clear : noStart k.sd.win)
    (row : ∀ app, cardTest c (sdInstr (sdKey index app) index g crc) = recognizedTotal rule)
    (noStream : ∀ k, (rule k).sd.state ≠ .dataMulti) :
    ∃ k1 k', onlyShifted k k1 ∧ latches c (frameBytes (frameOf index g crc)) k = .done k' ∧
      onlyShifted (rule k1.takeAppFlag) k' := by
  generalize hf : frameOf index g crc = f
  obtain ⟨k1, first, same, win⟩ := latches_noFrame (c := c) state (completesNone_five clear f.b0 f.b1 f.b2 f.b3 f.b4)
  have frame : shiftWindow k1.sd.win f.b5 = f := by rw [win]; rfl
  have decodes : decodeFrame k1.sd.appCmd (shiftWindow k1.sd.win f.b5) =
      .ok (sdInstr (sdKey index k1.sd.appCmd) index g crc) := by
    rw [frame, ← hf, decodeFrame_valid (frameOf_valid index g crc), frameOf_index, frameOf_argument, frameOf_crc]
  have state1 : (k1.shift f.b5).sd.state ∈ commandStates := by
    obtain ⟨-, _, _, session⟩ := same
    rw [card_shift_state, session]
    exact state
  obtain ⟨notAwaiting, notReceiving, -, active⟩ := commandStates_ne state1
  have hears : (k1.shift f.b5).deaf c = false := by rw [Card.deaf, decide_eq_false active, Bool.false_and]
  have latch : sdLatch c f.b5 k1 = .done (rule (k1.shift f.b5).takeAppFlag).clearWindow := by
    rw [sdLatch_eq_cardTest decodes, row]
    refine latchBody_done notAwaiting notReceiving ?_ fun stream => absurd stream (noStream _)
    rw [hears]
    rfl
  exact ⟨k1.shift f.b5, _, onlyShifted_trans same ⟨rfl, _, _, rfl⟩, latches_append first (latches_one latch),
    onlyShifted_trans ⟨rfl, _, _, rfl⟩ (poll_onlyShifted _)⟩

/-! The block of a CMD24 and the script around it (45_sd_data_phase.md R256 to R258, R262). -/

/-- Bytes short of the last one join the block (45_sd_data_phase.md R257). -/
theorem latches_received {c : Cfg} {bs : List Byte} {k : Card} (receiving : k.sd.state = .receivingBlock)
    (short : k.sd.inCount + bs.length < k.sd.blockSize.toNat + 2) :
    ∃ k', latches c bs k = .done k' ∧ onlyShifted { k with
      sd := { k.sd with inBuf := k.sd.inBuf ++ bs, inCount := k.sd.inCount + bs.length } } k' := by
  induction bs generalizing k with
  | nil => exact ⟨k, rfl, rfl, k.sd.outPos, k.sd.win, by simp⟩
  | cons b bs ih =>
    rw [List.length_cons] at short
    obtain ⟨k1, latch, disk, session⟩ := (blockWrite c k b receiving).1 (by omega)
    obtain ⟨pollDisk, pos, win, pollSession⟩ := poll_onlyShifted k1
    rw [session] at pollSession
    obtain ⟨k2, rest, disk2, pos2, win2, session2⟩ := ih (k := k1.poll.2) (by rw [pollSession]; exact receiving)
      (by simp only [pollSession]; omega)
    refine ⟨k2, res_bind_eq_done.mpr ⟨k1, latch, rest⟩, disk2.trans (pollDisk.trans disk), pos2, win2, ?_⟩
    rw [session2, pollSession]
    simp [Nat.add_assoc, Nat.add_comm 1]

/-- A whole block with its checksum is on a reliable disk, and its response queued (45_sd_data_phase.md R258). -/
theorem latches_block {c : Cfg} {d : List Byte} {k : Card} (receiving : k.sd.state = .receivingBlock)
    (empty : k.sd.inBuf = []) (start : k.sd.inCount = 0) (length : d.length = k.sd.blockSize.toNat + 2)
    (attached : c.diskAttached = true) (reliable : c.reliableDisk = true)
    (inside : blockOffset c k.sd.blockSize k.sd.wrBlock + k.sd.blockSize.toNat ≤ c.diskLen) :
    ∃ k', latches c d k = .done k' ∧
      k'.disk = Memory.writeRange k.disk (blockOffset c k.sd.blockSize k.sd.wrBlock) (d.take k.sd.blockSize.toNat) ∧
      ∃ pos, k'.sd = { k.sd with
        state := .idle, outBuf := [0x05, 0xFF], outPos := pos, inBuf := [], inCount := 0, win := clearedWindow } := by
  have notNil : d ≠ [] := by rintro rfl; simp at length
  obtain ⟨front, last, rfl⟩ : ∃ front last, d = front ++ [last] :=
    ⟨d.dropLast, d.getLast notNil, (List.dropLast_concat_getLast notNil).symm⟩
  have data : ((front ++ [last]).take k.sd.blockSize.toNat).length = k.sd.blockSize.toNat :=
    List.length_take_of_le (by omega)
  rw [List.length_append, List.length_singleton] at length
  obtain ⟨k1, first, disk1, pos1, win1, session1⟩ := latches_received (c := c) (bs := front) receiving (by omega)
  rw [empty, start, List.nil_append, Nat.zero_add] at session1
  have writes := (blockWrite c k1 last (by rw [session1]; exact receiving)).2.1
  simp only [session1, disk1] at writes
  obtain ⟨k2, ok, latch, succeeds, disk2, session2⟩ := writes (by omega) attached (by rw [data]; exact inside)
  rw [succeeds reliable] at disk2 session2
  refine ⟨k2.poll.2, latches_append first (latches_one latch), ?_⟩
  rw [card_poll_eq]
  split <;> exact ⟨disk2, _, by rw [session2]; rfl⟩

/-- The frame of CMD24 latches the block number and leaves the card awaiting the token (44_sd_commands.md R226). -/
theorem latches_cmd24 {c : Cfg} {k : Card} (block : BitVec 32) (crc : BitVec 7) (state : k.sd.state ∈ commandStates)
    (clear : noStart k.sd.win) :
    ∃ k', latches c (frameBytes (frameOf 24 block crc)) k = .done k' ∧ k'.disk = k.disk ∧
      k'.sd.state = .awaitingStartToken ∧ k'.sd.wrBlock = block ∧ k'.sd.blockSize = k.sd.blockSize := by
  obtain ⟨k1, k', ⟨disk1, _, _, session1⟩, command, disk, _, _, session⟩ := latches_frame (c := c) (index := 24)
    (g := block) (crc := crc) (rule := ruleCmd24 block) state clear (fun _ => rfl) (fun _ => nofun)
  have blockSize1 : k1.sd.blockSize = k.sd.blockSize := by rw [session1]
  refine ⟨k', command, disk.trans disk1, ?_⟩
  rw [session]
  exact ⟨rfl, rfl, blockSize1⟩

/-- Idle bytes and the token open an empty block (45_sd_data_phase.md R256). -/
theorem latches_token {c : Cfg} {k : Card} (gap : Nat) (awaiting : k.sd.state = .awaitingStartToken) :
    ∃ k', latches c (List.replicate gap 0xFF ++ [0xFE]) k = .done k' ∧ k'.disk = k.disk ∧
      ∃ pos win, k'.sd = { k.sd with
        state := .receivingBlock, inBuf := [], inCount := 0, outPos := pos, win := win } := by
  obtain ⟨k1, idle, ⟨disk1, _, _, session1⟩, -⟩ := latches_awaiting (c := c) (bs := List.replicate gap 0xFF) awaiting
    fun b hb => by rw [List.eq_of_mem_replicate hb]; decide
  obtain ⟨k2, token, disk2, session2⟩ := startToken c k1 0xFE (by rw [session1]; exact awaiting)
  obtain ⟨disk3, pos, win, session3⟩ := poll_onlyShifted k2
  rw [if_pos rfl, session1] at session2
  exact ⟨k2.poll.2, latches_append idle (latches_one token), disk3.trans (disk2.trans disk1), pos, win,
    by rw [session3, session2]⟩

/-- The write of the script: the frame, idle bytes, the token and the block (45_sd_data_phase.md R262). -/
theorem latches_writeScript {c : Cfg} {k : Card} {block : BitVec 32} {d : List Byte} (crc : BitVec 7) (gap : Nat)
    (state : k.sd.state ∈ commandStates) (clear : noStart k.sd.win) (length : d.length = k.sd.blockSize.toNat + 2)
    (attached : c.diskAttached = true) (reliable : c.reliableDisk = true)
    (inside : blockOffset c k.sd.blockSize block + k.sd.blockSize.toNat ≤ c.diskLen) :
    ∃ k', latches c (frameBytes (frameOf 24 block crc) ++ List.replicate gap 0xFF ++ [0xFE] ++ d) k = .done k' ∧
      k'.disk = Memory.writeRange k.disk (blockOffset c k.sd.blockSize block) (d.take k.sd.blockSize.toNat) ∧
      k'.sd.state = .idle ∧ k'.sd.outBuf = [0x05, 0xFF] ∧ k'.sd.blockSize = k.sd.blockSize ∧
      k'.sd.win = clearedWindow := by
  obtain ⟨k1, command, disk1, awaiting, wrBlock, blockSize⟩ := latches_cmd24 (c := c) block crc state clear
  obtain ⟨k2, token, disk2, _, _, session2⟩ := latches_token (c := c) gap awaiting
  have blockSize2 : k2.sd.blockSize = k.sd.blockSize := by rw [session2]; exact blockSize
  have wrBlock2 : k2.sd.wrBlock = block := by rw [session2]; exact wrBlock
  obtain ⟨k3, data, disk3, _, session3⟩ := latches_block (c := c) (d := d) (k := k2) (by rw [session2])
    (by rw [session2]) (by rw [session2]) (by rw [blockSize2]; exact length) attached reliable
    (by rw [blockSize2, wrBlock2]; exact inside)
  refine ⟨k3, ?_, ?_, ?_⟩
  · rw [List.append_assoc (frameBytes _)]
    exact latches_append (latches_append command token) data
  · rw [disk3, disk2, disk1, blockSize2, wrBlock2]
  · rw [session3]
    exact ⟨rfl, rfl, blockSize2, rfl⟩

/-- The read of the script: idle bytes, and the frame of CMD17, which queues the block framed (44_sd_commands.md R224;
45_sd_data_phase.md R262). -/
theorem latches_readScript {c : Cfg} {k : Card} {block : BitVec 32} (crc : BitVec 7) (drain : Nat)
    (state : k.sd.state ∈ commandStates) (clear : noStart k.sd.win) (attached : c.diskAttached = true)
    (reliable : c.reliableDisk = true)
    (inside : blockOffset c k.sd.blockSize block + k.sd.blockSize.toNat ≤ c.diskLen) :
    ∃ k', latches c (List.replicate drain 0xFF ++ frameBytes (frameOf 17 block crc)) k = .done k' ∧
      k'.sd.state = .idle ∧ k'.sd.outBuf =
        framedBlock (Memory.readRange k.disk (blockOffset c k.sd.blockSize block) k.sd.blockSize.toNat) := by
  obtain ⟨invalid, clear1⟩ := completesNone_idle clear drain
  obtain ⟨k1, idle, ⟨disk1, _, _, session1⟩, win1⟩ := latches_noFrame (c := c) state invalid
  obtain ⟨k2, k', ⟨disk2, _, _, session2⟩, command, -, _, _, session⟩ := latches_frame (c := c) (k := k1) (index := 17)
    (g := block) (crc := crc) (rule := ruleCmd17 c block) (by rw [session1]; exact state) (win1 ▸ clear1) (fun _ => rfl)
    (fun _ => nofun)
  obtain ⟨bytes, draws, rule, -, answer, -⟩ := ruleCmd17_answers c block k2.takeAppFlag
  have blockSize2 : k2.takeAppFlag.sd.blockSize = k.sd.blockSize := by
    rw [card_takeAppFlag_blockSize, session2, session1]
  simp only [blockSize2, card_takeAppFlag_disk, disk2, disk1] at answer
  obtain ⟨read, -⟩ := answer attached inside reliable
  refine ⟨k', latches_append idle command, ?_⟩
  rw [session, rule, ← read]
  exact ⟨rfl, rfl⟩

/-- Settles O60: the script's exchanges are the card's latches (`exchangeAll_latches`), which write the block and then
read the run just written. -/
theorem writeReadRoundTrip : Obligations.WriteReadRoundTrip := by
  intro s block crc crc' gap drain d inv unmarked boundary attached reliable state clear n off inside length
  obtain ⟨k, write, disk, idle, response, blockSize, cleared⟩ := latches_writeScript (c := s.cfg) (k := s.card)
    (block := block) (d := d) crc gap state (clear ▸ noStart_clearedWindow) length attached reliable inside
  obtain ⟨t, r, sent, rfl, cfg, tUnmarked, tBoundary⟩ := exchangeAll_latches unmarked inv.cfg boundary write
  obtain ⟨k', read, idle', answer⟩ := latches_readScript (c := t.cfg) (k := t.card) (block := block) crc' (drain + 1)
    (by rw [idle]; decide) (cleared ▸ noStart_clearedWindow) (cfg ▸ attached) (cfg ▸ reliable)
    (by rw [blockSize, cfg]; exact inside)
  obtain ⟨u, r', sent', rfl, -⟩ := exchangeAll_latches tUnmarked (cfg ▸ inv.cfg) tBoundary read
  have data : (d.take n).length = n := List.length_take_of_le (by omega)
  have stored : Memory.readRange t.disk off n = d.take n := by
    have run := Laws.memory_readRange_writeRange inv.disk (bs := d.take n) (off := off) (by rw [data]; exact inside)
    rw [data] at run
    exact (congrArg (Memory.readRange · off n) disk).trans run
  rw [blockSize, cfg] at answer
  exact ⟨t, r, u, r', sent, idle, response, stored, sent', idle', answer.trans (congrArg framedBlock stored)⟩

end Sys2Proof.Machine

namespace Sys2Proof.Machine

/-! Marks (60_exceptions.md R270, R271). -/

/-- A step runs only from an unmarked state (60_exceptions.md R271). -/
theorem step_unmarked {s t : State} (h : step s = .next t) : s.unmarked := by
  obtain ⟨k, rest, -, -, ⟨i, -, hexec⟩ | ⟨hu, -⟩⟩ := step_cases h
  · exact (exec_eq_next.mp hexec).1
  · exact hu

/-- Every code that the model gives a fault or a refusal is one of the table of 60_exceptions.md R270. -/
theorem raise_code_listed {x : Raise} (h : x.code.isSome = true) :
    x.code ∈ [some 0x10, some 0x11, some 0x20, some 0x21, some 0x22, some 0x23, some 0x24, some 0x25] := by
  cases x with
  | fault f => cases f <;> simp [Raise.code, Fault.code]
  | refuse r =>
    cases r with
    | notModelled _ | noCall | invalidConfiguration => cases h
    | _ => simp [Raise.code, Refusal.code]

section
variable {s : State}

/-- A raise sets one mark. -/
theorem mark_sets_one (hu : s.unmarked) (x : Raise) (tr : List Event) :
    (mark s x tr).fault = none ∨ (mark s x tr).refused = none := by
  cases x with
  | fault f => exact .inr hu.2
  | refuse r => exact .inl hu.1

/-- The outcome that a marked state shows is the raise's. -/
theorem outcomeCode_mark (hu : s.unmarked) (x : Raise) (tr : List Event) : (mark s x tr).outcomeCode = x.code := by
  cases x with
  | fault f => rfl
  | refuse r =>
    simp only [State.outcomeCode, mark_fault, mark_refused, Raise.faultMark, Raise.refusalMark, hu.1, Raise.code]

end

/-- An instruction that leaves a mark has raised: it leaves the marked state (60_exceptions.md R271). -/
theorem exec_marked {i : Instr} {s t : State} (h : exec i s = .next t) (hm : ¬ t.unmarked) :
    ∃ x tr, RaisedFrom s.trace x tr ∧ t = mark s x tr := by
  obtain ⟨hu, ⟨u, y, hdone, rfl⟩ | ⟨x, tr, hraised, rfl⟩⟩ := exec_cases h
  · have kept := operation_kept hdone
    exact absurd ⟨kept.fault.trans hu.1, kept.refused.trans hu.2⟩ hm
  · exact ⟨x, tr, operation_raised hraised, rfl⟩

/-- Settles O14: an instruction that leaves a mark leaves `mark s x tr`, and what the spec lists raised it
(`exec_marked`). -/
theorem raiseKeepsState : Obligations.RaiseKeepsState := by
  intro s
  refine ⟨fun t => step_unmarked, fun i t h => ?_⟩
  have hu : s.unmarked := (exec_eq_next.mp h).1
  refine ⟨hu, fun hm => ?_⟩
  obtain ⟨x, tr, raised, rfl⟩ := exec_marked h hm
  refine ⟨rfl, raised.grows, mark_sets_one hu x tr, ?_⟩
  rw [outcomeCode_mark hu]
  exact raise_code_listed raised.listed

/-- Settles O15: every instruction is one `perform`, which checks the marks first. -/
theorem markedStateAnswersItsMark : Obligations.MarkedStateAnswersItsMark := by
  intro i s
  rw [exec_eq_perform]
  exact ⟨fun f hf => ifUnmarked_fault hf _, fun r hf hr => ifUnmarked_refused hf hr _⟩

end Sys2Proof.Machine

namespace Sys2Proof.Laws

open Sys2Proof.Machine

/-- Settles O29: the tick's operation, on either value of the enable. It stands here since `Machine.timerTick` is that
operation. -/
theorem timerTick : Obligations.TimerTick := by
  intro s hu
  have tick : exec .tick s = .next { s with timerPending := s.timerPending || s.timerEnabled, reply := .silent } :=
    exec_unmarked hu .tick
  constructor
  · intro enabled
    exact ⟨.silent, by rw [tick, enabled, Bool.or_true]⟩
  · intro disabled
    exact ⟨.silent, by rw [tick, disabled, Bool.or_false]⟩

end Sys2Proof.Laws

namespace Sys2Proof.Machine

/-! The request output (60_exceptions.md R279). -/

/-- The level a source requests. -/
def requested (pending : Bool) (level : Nat) : Nat := if pending then level else 0

theorem ipl_eq (s : State) :
    ipl s = max (requested s.timerPending s.cfg.timerIrqLevel) (requested s.usbPending s.cfg.usbIrqLevel) := rfl

@[simp] theorem requested_true (level : Nat) : requested true level = level := rfl
@[simp] theorem requested_false (level : Nat) : requested false level = 0 := rfl

/-- Settles O30: the output is one of the two requests, and at least each. -/
theorem requestOutput : Obligations.RequestOutput := by
  intro s
  refine ⟨?_, fun timer => ?_, fun usb => ?_⟩
  · rcases Nat.le_total (requested s.usbPending s.cfg.usbIrqLevel) (requested s.timerPending s.cfg.timerIrqLevel) with
      timerTop | usbTop
    · rw [ipl_eq, Nat.max_eq_left timerTop]
      cases s.timerPending with
      | true => exact .inr (.inl ⟨rfl, rfl⟩)
      | false => exact .inl rfl
    · rw [ipl_eq, Nat.max_eq_right usbTop]
      cases s.usbPending with
      | true => exact .inr (.inr ⟨rfl, rfl⟩)
      | false => exact .inl rfl
  · rw [ipl_eq, timer]
    exact Nat.le_max_left _ _
  · rw [ipl_eq, usb]
    exact Nat.le_max_right _ _

/-! What an acknowledge takes (60_exceptions.md R281, R282). -/

section
variable {s : State} {l : BitVec 32}

theorem acknowledge_timer (h : l.toNat = s.cfg.timerIrqLevel ∧ s.timerPending = true) :
    acknowledge l s = ({ s with timerPending := false }, s.cfg.timerVector) := if_pos h

theorem acknowledge_usb (ht : ¬(l.toNat = s.cfg.timerIrqLevel ∧ s.timerPending = true))
    (hl : l.toNat = s.cfg.usbIrqLevel) (hp : s.usbPending = true) :
    acknowledge l s = ({ s with usbPending := false }, s.cfg.usbVector) := by
  rw [acknowledge, if_neg ht, if_pos ⟨hl, hp⟩]

theorem acknowledge_spurious (ht : ¬(l.toNat = s.cfg.timerIrqLevel ∧ s.timerPending = true))
    (hu : ¬(l.toNat = s.cfg.usbIrqLevel ∧ s.usbPending = true)) :
    acknowledge l s = (s, s.cfg.spuriousVector) := by
  rw [acknowledge, if_neg ht, if_neg hu]

theorem exec_iack {t : State} {vector : Byte} (hu : s.unmarked) (h : acknowledge l s = (t, vector)) :
    exec (.iack l) s = .next { t with reply := .okValue (vector.setWidth 32) } := by
  have done : exec (.iack l) s =
    .next { (acknowledge l s).1 with reply := .okValue ((acknowledge l s).2.setWidth 32) } := exec_unmarked hu (.iack l)
  rw [done, h]

end

end Sys2Proof.Machine

namespace Sys2Proof.Laws

open Sys2Proof.Machine

/-- Settles O27: the three branches of the operation. It stands here since `Machine.acknowledge` is that operation. -/
theorem acknowledge : Obligations.Acknowledge := by
  intro s l hu
  exact ⟨fun ht => exec_iack hu (acknowledge_timer ht),
    fun ht hl hp => exec_iack hu (acknowledge_usb ht hl hp),
    fun ht hs => exec_iack hu (acknowledge_spurious ht hs)⟩

end Sys2Proof.Laws

namespace Sys2Proof.Machine

/-- Settles O28: the acknowledge at the level shown finds the higher source's flag, and at one level the timer's. -/
theorem simultaneousRequests : Obligations.SimultaneousRequests := by
  intro s l hu timer usb hl
  have shown : ipl s = max s.cfg.timerIrqLevel s.cfg.usbIrqLevel := by rw [ipl_eq, timer, usb]; rfl
  refine ⟨fun lower => ?timerFirst, fun higher => ?usbFirst, fun equal => ?oneLevel⟩
  case timerFirst =>
    have top : ipl s = s.cfg.timerIrqLevel := by omega
    refine ⟨top, _, exec_iack hu (acknowledge_timer ⟨hl.trans top, timer⟩), rfl, rfl, usb, ?_⟩
    simp [ipl_eq, usb]
  case usbFirst =>
    have top : ipl s = s.cfg.usbIrqLevel := by omega
    have other : l.toNat ≠ s.cfg.timerIrqLevel := by omega
    refine ⟨top, _, exec_iack hu (acknowledge_usb (fun h => other h.1) (hl.trans top) usb), rfl, rfl, timer, ?_⟩
    simp [ipl_eq, timer]
  case oneLevel =>
    have topTimer : ipl s = s.cfg.timerIrqLevel := by omega
    have topUsb : ipl s = s.cfg.usbIrqLevel := by omega
    refine ⟨_, _, exec_iack hu (acknowledge_timer ⟨hl.trans topTimer, timer⟩), rfl, ?_,
      exec_iack hu (acknowledge_usb (fun h => Bool.false_ne_true h.2) (hl.trans topUsb) usb), rfl, rfl⟩
    rw [topUsb]
    simp [ipl_eq, usb]

/-! What becomes of the pending flags (60_exceptions.md R278). -/

/-- The instruction asks for the USB interrupt: a handler write that answers "interrupt now", by its register's row or
by the byte write at its address (42_usb_bridge.md R181, R182). -/
def asksUsb (s : State) (i : Instr) : Prop :=
  ∃ (address : Addr) (b : Byte),
    ((i = .usbCmdWrite address b ∨ i = .writeByte address b ∧ writeRow s.cfg (maskAddr s.cfg address) = .usbCmd) ∧
      (s.cfg.usbHandler.cmdWrite s.usb (handlerDisk s) b).2.2 = true) ∨
    ((i = .usbDataWrite address b ∨ i = .writeByte address b ∧ writeRow s.cfg (maskAddr s.cfg address) = .usbData) ∧
      (s.cfg.usbHandler.dataWrite s.usb (handlerDisk s) b).2.2 = true)

/-- The instruction is an acknowledge at the given level. -/
def acknowledges (i : Instr) (level : Nat) : Prop := ∃ l, i = .iack l ∧ l.toNat = level

/-- A flag that is set only where `asked` holds, and cleared only where `taken` does. -/
def flagFollows (asked taken : Prop) (before after : Bool) : Prop :=
  after = before ∨ after = true ∧ asked ∨ after = false ∧ taken

section
variable {asked asked' taken taken' : Prop} {before after : Bool}

theorem flagFollows_or (h : after = true → asked) : flagFollows asked taken before (before || after) := by
  cases after with
  | true => exact .inr (.inl ⟨Bool.or_true _, h rfl⟩)
  | false => exact .inl (Bool.or_false _)

theorem flagFollows_imp (h : flagFollows asked taken before after) (ha : asked → asked') (ht : taken → taken') :
    flagFollows asked' taken' before after :=
  h.imp_right (Or.imp (And.imp_right ha) (And.imp_right ht))

theorem asked_of_flagFollows (h : flagFollows asked taken before after) (hb : before = false) (ha : after = true) :
    asked := by
  subst hb ha
  rcases h with same | ⟨-, source⟩ | ⟨cleared, -⟩
  · cases same
  · exact source
  · cases cleared

theorem taken_of_flagFollows (h : flagFollows asked taken before after) (hb : before = true) (ha : after = false) :
    taken := by
  subst hb ha
  rcases h with same | ⟨set, -⟩ | ⟨-, acknowledge⟩
  · cases same
  · cases set
  · exact acknowledge

end

/-- From `s` to `u` the pending flags change only as instruction `i` is a source or an acknowledge. -/
structure FlagsFollow (i : Instr) (s u : State) : Prop where
  timer : flagFollows (i = .tick ∧ s.timerEnabled = true) (acknowledges i s.cfg.timerIrqLevel) s.timerPending
    u.timerPending
  usb : flagFollows (asksUsb s i) (acknowledges i s.cfg.usbIrqLevel) s.usbPending u.usbPending

theorem flags_kept (i : Instr) {s u : State} (timer : u.timerPending = s.timerPending)
    (usb : u.usbPending = s.usbPending) : FlagsFollow i s u := ⟨.inl timer, .inl usb⟩

/-- An acknowledge clears a flag only at its level (60_exceptions.md R281). -/
theorem acknowledge_flags (l : BitVec 32) (s : State) : FlagsFollow (.iack l) s (acknowledge l s).1 := by
  unfold acknowledge
  split
  · next h => exact ⟨.inr (.inr ⟨rfl, l, rfl, h.1⟩), .inl rfl⟩
  · split
    · next h => exact ⟨.inl rfl, .inr (.inr ⟨rfl, l, rfl, h.1⟩)⟩
    · exact flags_kept _ rfl rfl

/-- The pending flags under a register, a host event or an SD row. -/
theorem operation_flags_row {j : Instr} {s u : State} {y : Reply} (hj : isRegisterRow j = true)
    (h : operation j s = .done (u, y)) : FlagsFollow j s u := by
  cases j with
  | readByte _ | readWord _ | readLong _ | writeByte _ _ | writeWord _ _ | writeLong _ _ => cases hj
  | iack l =>
    cases h
    exact acknowledge_flags l s
  | tick =>
    cases h
    exact ⟨flagFollows_or fun enabled => ⟨rfl, enabled⟩, .inl rfl⟩
  | usbCmdWrite address b =>
    cases h
    exact ⟨.inl rfl, flagFollows_or fun now => ⟨address, b, .inl ⟨.inl rfl, now⟩⟩⟩
  | usbDataWrite address b =>
    cases h
    exact ⟨.inl rfl, flagFollows_or fun now => ⟨address, b, .inr ⟨.inl rfl, now⟩⟩⟩
  | spiOutWrite _ v =>
    obtain ⟨p, hp, e⟩ := res_map_eq_done.mp h
    cases e
    rcases spiOutWrite_done hp with ⟨-, rfl⟩ | ⟨-, -, rfl⟩ | ⟨-, -, k, -, rfl⟩ <;> exact flags_kept _ rfl rfl
  | duartDataRead _ =>
    obtain ⟨p, hp, e⟩ := res_map_eq_done.mp h
    cases e
    unfold duartDataRead at hp
    split at hp <;> cases hp
    exact flags_kept _ rfl rfl
  | expBankRead _ | expBankWrite _ _ =>
    obtain ⟨p, hp, e⟩ := res_map_eq_done.mp h
    cases e
    split at hp <;> cases hp <;> exact flags_kept _ rfl rfl
  | hostIn _ | setbank _ | duartStatusRead _ | duartDataWrite _ _ | duartImrWrite _ _ | duartOtherWrite _ _
  | duartOtherRead _ | usbDataRead _ | usbCmdRead _ | spiOutRead _ | spiInRead _ | spiInWrite _ _
  | ioUnimplementedWrite _ _ | ioUnimplementedRead _ =>
    cases h
    exact flags_kept _ rfl rfl
  | _ =>
    obtain ⟨k, -, e⟩ := res_map_eq_done.mp h
    cases e
    exact flags_kept _ rfl rfl

/-- A register read is no source and no acknowledge. -/
theorem flags_of_readInstr {row : ReadRow} {address : Addr} {i : Instr} {s u : State}
    (h : FlagsFollow (readInstr row address) s u) : FlagsFollow i s u := by
  constructor
  · refine flagFollows_imp h.timer ?_ ?_
    · rintro ⟨e, -⟩; cases row <;> cases e
    · rintro ⟨l, e, -⟩; cases row <;> cases e
  · refine flagFollows_imp h.usb ?_ ?_
    · rintro ⟨a, b, ⟨e | ⟨e, -⟩, -⟩ | ⟨e | ⟨e, -⟩, -⟩⟩ <;> cases row <;> cases e
    · rintro ⟨l, e, -⟩; cases row <;> cases e

/-- A byte write is a source where its register's row is: the handler's registers. -/
theorem flags_of_writeInstr {address : Addr} {v : Byte} {s u : State}
    (h : FlagsFollow (writeInstr (writeRow s.cfg (maskAddr s.cfg address)) address v) s u) :
    FlagsFollow (.writeByte address v) s u := by
  generalize selects : writeRow s.cfg (maskAddr s.cfg address) = row at h
  constructor
  · refine flagFollows_imp h.timer ?_ ?_
    · rintro ⟨e, -⟩; cases row <;> cases e
    · rintro ⟨l, e, -⟩; cases row <;> cases e
  · refine flagFollows_imp h.usb ?_ ?_
    · rintro ⟨a, b, ⟨e | ⟨e, -⟩, now⟩ | ⟨e | ⟨e, -⟩, now⟩⟩ <;> cases row <;> cases e
      · exact ⟨address, v, .inl ⟨.inr ⟨rfl, selects⟩, now⟩⟩
      · exact ⟨address, v, .inr ⟨.inr ⟨rfl, selects⟩, now⟩⟩
    · rintro ⟨l, e, -⟩; cases row <;> cases e

/-- The pending flags under every instruction (60_exceptions.md R278). -/
theorem exec_flags {i : Instr} {s t : State} (h : exec i s = .next t) : FlagsFollow i s t := by
  obtain ⟨-, ⟨u, y, hdone, rfl⟩ | ⟨x, tr, -, rfl⟩⟩ := exec_cases h
  · suffices flags : FlagsFollow i s u from ⟨flags.timer, flags.usb⟩
    rcases operation_done_cases hdone with ⟨ev, rfl⟩ | ⟨n, a, v, -, ⟨-, rfl⟩ | ⟨-, rfl⟩⟩ | ⟨j, hj, hrow, hji⟩
    · exact flags_kept _ rfl rfl
    · exact flags_kept _ rfl rfl
    · exact flags_kept _ rfl rfl
    · have flags := operation_flags_row hj hrow
      rcases hji with rfl | ⟨address, rfl, rfl, hc⟩ | ⟨address, v, rfl, rfl, hc⟩
      · exact flags
      · rw [decodeByteRead_io hc] at flags
        exact flags_of_readInstr flags
      · rw [decodeByteWrite_io hc] at flags
        exact flags_of_writeInstr flags
  · exact flags_kept _ rfl rfl

/-- Settles O31: the two sides of `exec_flags`, for each flag. -/
theorem pendingFlagsChangeOnlySo : Obligations.PendingFlagsChangeOnlySo := by
  intro i s t h
  obtain ⟨timer, usb⟩ := exec_flags h
  exact ⟨asked_of_flagFollows timer, taken_of_flagFollows timer, asked_of_flagFollows usb, taken_of_flagFollows usb⟩

/-! What a read makes of the interrupt state (60_exceptions.md R292). -/

/-- The operation does and answers the same whatever the interrupt state is, and leaves it as it is. -/
def ignoresInterrupts {α : Type} (op : State → Res (State × α)) : Prop :=
  ∀ (s : State) (enabled timer usb : Bool), op (s.withInterrupts enabled timer usb) =
    (op s).map fun p => (p.1.withInterrupts enabled timer usb, p.2)

@[simp] theorem withInterrupts_cfg (s : State) (enabled timer usb : Bool) :
    (s.withInterrupts enabled timer usb).cfg = s.cfg := rfl

@[simp] theorem withInterrupts_hostIn (s : State) (enabled timer usb : Bool) :
    (s.withInterrupts enabled timer usb).hostIn = s.hostIn := rfl

theorem ignoresInterrupts_readReply {op : State → Res (State × Byte)} (h : ignoresInterrupts op) :
    ignoresInterrupts fun s => readReply (op s) := by
  intro s enabled timer usb
  simp only [readReply, h s enabled timer usb]
  cases op s <;> rfl

theorem ignoresInterrupts_duartDataRead : ignoresInterrupts duartDataRead := by
  intro s enabled timer usb
  unfold duartDataRead
  rw [withInterrupts_hostIn]
  cases s.hostIn <;> rfl

/-- Every register read ignores the interrupt state (20_memory.md R76). -/
theorem ignoresInterrupts_ioRead (a : Addr) : ignoresInterrupts (ioRead a) := by
  intro s enabled timer usb
  unfold ioRead
  rw [withInterrupts_cfg]
  cases readRow s.cfg a with
  | duartData => exact ignoresInterrupts_duartDataRead s enabled timer usb
  | _ => rfl

/-- The read of an admitted access ignores the interrupt state, in every region. -/
theorem ignoresInterrupts_readAdmitted (a : Addr) (n : Width) : ignoresInterrupts (readAdmitted a n) := by
  intro s enabled timer usb
  unfold readAdmitted
  rw [withInterrupts_cfg]
  cases classify s.cfg a.toNat with
  | io =>
    by_cases hn : n = .byte
    · simp only [readIo, if_pos hn]
      exact ignoresInterrupts_readReply (ignoresInterrupts_ioRead a) s enabled timer usb
    · simp only [readIo, if_neg hn]
      rfl
  | ram | rom | exp | unmapped => rfl

/-- A bus read ignores the interrupt state: its checks see the configuration and the trace only. -/
theorem ignoresInterrupts_memRead (address : Addr) (n : Width) : ignoresInterrupts (memRead address n) := by
  intro s enabled timer usb
  have checks (a : Addr) : checkAccess (s.withInterrupts enabled timer usb) a n .read = checkAccess s a n .read := rfl
  simp only [memRead, withInterrupts_cfg, checks, ignoresInterrupts_readAdmitted _ n s enabled timer usb]
  cases checkAccess s (maskAddr s.cfg address) n .read <;> rfl

theorem ignoresInterrupts_expBankRead (address : Addr) : ignoresInterrupts (operation (.expBankRead address)) := by
  refine ignoresInterrupts_readReply fun s enabled timer usb => ?_
  rw [withInterrupts_cfg]
  cases bankIndex s.cfg (maskAddr s.cfg address) <;> rfl

/-- Every read of the guest core ignores the interrupt state: a bus access, or its register's row. -/
theorem ignoresInterrupts_busReads (address : Addr) : ∀ i ∈ busReads address, ignoresInterrupts (operation i) := by
  simp only [busReads, List.forall_mem_cons, List.not_mem_nil, false_imp_iff, implies_true, and_true]
  exact ⟨ignoresInterrupts_memRead address .byte, ignoresInterrupts_memRead address .word,
    ignoresInterrupts_memRead address .long, fun _ _ _ _ => rfl,
    ignoresInterrupts_readReply ignoresInterrupts_duartDataRead, fun _ _ _ _ => rfl, fun _ _ _ _ => rfl,
    fun _ _ _ _ => rfl, fun _ _ _ _ => rfl, fun _ _ _ _ => rfl, ignoresInterrupts_expBankRead address,
    fun _ _ _ _ => rfl⟩

/-- An instruction whose operation ignores the interrupt state answers the same under any. -/
theorem exec_withInterrupts {i : Instr} {s t : State} (hi : ignoresInterrupts (operation i)) (h : exec i s = .next t)
    (enabled timer usb : Bool) :
    exec i (s.withInterrupts enabled timer usb) = .next (t.withInterrupts enabled timer usb) := by
  obtain ⟨hu, rfl⟩ := exec_eq_next.mp h
  refine exec_eq_next.mpr ⟨hu, ?_⟩
  rw [hi s enabled timer usb]
  cases operation i s <;> rfl

/-- Settles O32: every read's operation ignores the interrupt state. -/
theorem interruptStateIsNotReadable : Obligations.InterruptStateIsNotReadable := by
  intro address i s t enabled timer usb hi h
  exact exec_withInterrupts (ignoresInterrupts_busReads address i hi) h enabled timer usb

end Sys2Proof.Machine

namespace Sys2Proof.Machine

/-! The check of a configuration says each condition of `valid(Cfg)` (70_reset_and_hazards.md R302). -/

/-- The check of two intervals finds a common address if there is one: the greater of the two lower ends. -/
theorem disjoint_iff {b e b' e' : Nat} :
    disjoint b e b' e' = true ↔ ∀ a, ¬(b ≤ a ∧ a < e ∧ b' ≤ a ∧ a < e') := by
  constructor
  · rintro h a ⟨lo, hi, ha⟩
    exact disjoint_not_both h ha ⟨lo, hi⟩
  · intro h
    have greater := h (max b b')
    simp only [disjoint, Bool.or_eq_true, decide_eq_true_eq]
    omega

theorem regionsInside_iff {c : Cfg} : regionsInside c = true ↔ ∀ r ∈ regionIntervals c, r.2 ≤ 2 ^ 32 := by
  simp only [regionsInside, regionIntervals, Bool.and_eq_true, decide_eq_true_eq, and_assoc, List.forall_mem_cons,
    List.not_mem_nil, false_imp_iff, implies_true, and_true]

theorem regionsDisjoint_iff {c : Cfg} : regionsDisjoint c = true ↔
    (regionIntervals c).Pairwise fun p q => ∀ a, ¬(p.1 ≤ a ∧ a < p.2 ∧ q.1 ≤ a ∧ a < q.2) := by
  simp only [regionsDisjoint, regionIntervals, Bool.and_eq_true, disjoint_iff, and_assoc, List.pairwise_cons,
    List.forall_mem_cons, List.not_mem_nil, false_imp_iff, implies_true, List.Pairwise.nil, and_true]

/-- The interval of an image lies in a region exactly if each of its bytes does, unless it has none (log 12). -/
theorem image_inside_iff {base size start : Nat} {image : List Byte} :
    image.isEmpty = true ∨ base ≤ start ∧ start + image.length ≤ base + size ↔
      ∀ i < image.length, base ≤ start + i ∧ start + i < base + size := by
  cases image with
  | nil => simp
  | cons b bs =>
    simp only [List.isEmpty_cons, Bool.false_eq_true, false_or, List.length_cons]
    constructor
    · intro h i hi
      omega
    · intro h
      have first := h 0 (by omega)
      have last := h bs.length (by omega)
      omega

theorem imagesFit_iff {c : Cfg} : imagesFit c = true ↔
    c.romImage.length ≤ c.romSize ∧
      ∀ i < c.ramImage.length, c.ramBase.toNat ≤ c.ramImageAddr.toNat + i ∧
        c.ramImageAddr.toNat + i < c.ramBase.toNat + c.ramSize := by
  simp only [imagesFit, Bool.and_eq_true, Bool.or_eq_true, decide_eq_true_eq, image_inside_iff]

/-- The device registers are the three kinds of 30_encoding.md R103, one after another. -/
theorem deviceRegisters_eq (c : Cfg) : deviceRegisters c =
    (readOnlyAddrs c).map (Sharing.readOnly, ·) ++ (writeOnlyAddrs c).map (Sharing.writeOnly, ·) ++
      (unsharedAddrs c).map (Sharing.never, ·) := by
  cases hb : c.expBankAddr <;>
    simp [deviceRegisters, readOnlyAddrs, writeOnlyAddrs, unsharedAddrs, bankAddrs, hb]

theorem registersInIo_iff {c : Cfg} : registersInIo c = true ↔
    ∀ r ∈ deviceRegisters c, c.ioBase.toNat ≤ r.2 ∧ r.2 < c.ioLimit := by
  simp only [registersInIo, deviceRegisters_eq, List.all_eq_true, Bool.and_eq_true, decide_eq_true_eq,
    List.forall_mem_append, List.forall_mem_map]

/-- Two lists of distinct addresses say it pair by pair: only a read-only and a write-only address are never compared
(30_encoding.md R103(b), (c)). -/
theorem registersDistinct_iff {c : Cfg} : registersDistinct c = true ↔
    (deviceRegisters c).Pairwise fun p q => p.2 = q.2 →
      (p.1 = .readOnly ∧ q.1 = .writeOnly) ∨ (p.1 = .writeOnly ∧ q.1 = .readOnly) := by
  simp only [registersDistinct, deviceRegisters_eq, Bool.and_eq_true, decide_eq_true_eq, List.Nodup,
    List.pairwise_append, List.pairwise_map, List.forall_mem_append, List.forall_mem_map, reduceCtorEq,
    and_true, and_false, or_self, true_or, imp_false, implies_true, ne_eq]
  constructor
  · rintro ⟨⟨readOnly, unshared, readUnshared⟩, writeOnly, -, writeUnshared⟩
    exact ⟨⟨readOnly, writeOnly⟩, unshared, readUnshared, writeUnshared⟩
  · rintro ⟨⟨readOnly, writeOnly⟩, unshared, readUnshared, writeUnshared⟩
    exact ⟨⟨readOnly, unshared, readUnshared⟩, writeOnly, unshared, writeUnshared⟩

theorem levelOk_iff {l : Nat} : levelOk l = true ↔ 1 ≤ l ∧ l ≤ 7 := by
  simp only [levelOk, Bool.and_eq_true, decide_eq_true_eq]

/-- The check of a configuration is `valid(Cfg)`. -/
theorem validCfg_iff {c : Cfg} : validCfg c = true ↔ ValidConfiguration c := by
  simp only [validCfg, Bool.and_eq_true, decide_eq_true_eq, and_assoc, regionsInside_iff, regionsDisjoint_iff,
    imagesFit_iff, registersInIo_iff, registersDistinct_iff, levelOk_iff]
  constructor
  · rintro ⟨inside, disjoint, expSize, romImage, ramImage, inIo, distinct, statusBits, csSck, csMosi, sckMosi,
      timerLow, timerHigh, usbLow, usbHigh, maxBlockSize, cid, ocr⟩
    exact ⟨inside, disjoint, expSize, romImage, ramImage, inIo, distinct, statusBits, ⟨csSck, csMosi, sckMosi⟩,
      ⟨timerLow, timerHigh, usbLow, usbHigh⟩, maxBlockSize, ⟨cid, ocr⟩⟩
  · rintro ⟨inside, disjoint, expSize, romImage, ramImage, inIo, distinct, statusBits, ⟨csSck, csMosi, sckMosi⟩,
      ⟨timerLow, timerHigh, usbLow, usbHigh⟩, maxBlockSize, ⟨cid, ocr⟩⟩
    exact ⟨inside, disjoint, expSize, romImage, ramImage, inIo, distinct, statusBits, csSck, csMosi, sckMosi,
      timerLow, timerHigh, usbLow, usbHigh, maxBlockSize, cid, ocr⟩

/-! The start of a run (70_reset_and_hazards.md R300). -/

theorem boot_valid {c : Cfg} (hv : ValidConfiguration c) (r : ResetInputs) :
    State.boot c r = some (State.resetWith c r) :=
  if_pos (validCfg_iff.mpr hv)

theorem boot_invalid {c : Cfg} (hv : ¬ ValidConfiguration c) (r : ResetInputs) : State.boot c r = none :=
  if_neg fun h => hv (validCfg_iff.mp h)

theorem boot_eq_some {c : Cfg} {r : ResetInputs} {s : State} (h : State.boot c r = some s) :
    ValidConfiguration c ∧ s = State.resetWith c r := by
  by_cases hv : ValidConfiguration c
  · rw [boot_valid hv r] at h
    exact ⟨hv, (Option.some.inj h).symm⟩
  · rw [boot_invalid hv r] at h
    cases h

/-- RAM_IMAGE lies inside the RAM array, or is empty and then may stand anywhere (log 12). -/
theorem ramImage_inside {c : Cfg} (hv : ValidConfiguration c) :
    c.ramImage = [] ∨ c.ramImageAddr.toNat - c.ramBase.toNat + c.ramImage.length ≤ c.ramSize := by
  rcases image_inside_iff.mpr hv.ramImage with empty | inside
  · exact .inl (List.isEmpty_iff.mp empty)
  · exact .inr (by omega)

/-- ROM_IMAGE lies at the start of the ROM array (70_reset_and_hazards.md R303). -/
theorem romImage_inside {c : Cfg} (hv : ValidConfiguration c) : 0 + c.romImage.length ≤ c.romSize := by
  have fits := hv.romImage
  omega

theorem resetWith_ram_wf {c : Cfg} (hv : ValidConfiguration c) (r : ResetInputs) :
    Memory.wf c.ramSize (State.resetWith c r).ram = true := by
  have drawn := Laws.memory_ofCells_wf c.ramSize r.ramDraw
  rcases ramImage_inside hv with empty | inside
  · simpa only [State.resetWith, empty, Memory.writeRange] using drawn
  · exact Laws.memory_writeRange_wf drawn inside

/-- RAM after reset: RAM_IMAGE over the drawn bytes (70_reset_and_hazards.md R304). -/
theorem resetWith_ram_read {c : Cfg} (hv : ValidConfiguration c) (r : ResetInputs) (i : Nat) :
    Memory.read (State.resetWith c r).ram i =
      if c.ramImageAddr.toNat - c.ramBase.toNat ≤ i ∧
          i < c.ramImageAddr.toNat - c.ramBase.toNat + c.ramImage.length then
        c.ramImage.getD (i - (c.ramImageAddr.toNat - c.ramBase.toNat)) 0
      else Memory.read (Memory.ofCells c.ramSize r.ramDraw) i := by
  rcases ramImage_inside hv with empty | inside
  · have outside (off : Nat) : ¬(off ≤ i ∧ i < off + 0) := by omega
    simp only [State.resetWith, empty, Memory.writeRange, List.length_nil, if_neg (outside _)]
  · exact Laws.memory_read_writeRange (Laws.memory_ofCells_wf c.ramSize r.ramDraw) inside

theorem resetWith_rom_wf {c : Cfg} (hv : ValidConfiguration c) (r : ResetInputs) :
    Memory.wf c.romSize (State.resetWith c r).rom = true :=
  Laws.memory_writeRange_wf (Laws.memory_ofCells_wf c.romSize r.romDraw) (romImage_inside hv)

/-- ROM after reset: ROM_IMAGE over the drawn bytes (70_reset_and_hazards.md R303). -/
theorem resetWith_rom_read {c : Cfg} (hv : ValidConfiguration c) (r : ResetInputs) (i : Nat) :
    Memory.read (State.resetWith c r).rom i =
      if i < c.romImage.length then c.romImage.getD i 0
      else Memory.read (Memory.ofCells c.romSize r.romDraw) i := by
  have h := Laws.memory_read_writeRange (j := i) (Laws.memory_ofCells_wf c.romSize r.romDraw) (romImage_inside hv)
  simpa only [State.resetWith, Nat.zero_le, true_and, Nat.zero_add, Nat.sub_zero] using h

theorem resetWith_disk_attached {c : Cfg} (h : c.diskAttached = true) (r : ResetInputs) :
    (State.resetWith c r).disk = Memory.ofCells c.diskLen r.diskImage :=
  if_pos h

theorem resetWith_disk_wf (c : Cfg) (r : ResetInputs) :
    Memory.wf c.diskLen (State.resetWith c r).disk = true := by
  by_cases h : c.diskAttached = true
  · rw [resetWith_disk_attached h]
    exact Laws.memory_ofCells_wf c.diskLen r.diskImage
  · have detached : (State.resetWith c r).disk = [] := if_neg h
    rw [detached, Laws.memory_wf_nil]

/-- Settles O8: the check is `valid(Cfg)` (`validCfg_iff`), and the two images lie over the drawn bytes. -/
theorem resetContents : Obligations.ResetContents := by
  intro c r
  refine ⟨validCfg_iff, fun hv => boot_invalid hv r, fun hv => ⟨State.resetWith c r, boot_valid hv r, rfl,
    resetWith_ram_read hv r, resetWith_rom_read hv r, ?constants⟩⟩
  case constants =>
    exact ⟨rfl, rfl, rfl, rfl, rfl, rfl, rfl, rfl, rfl, rfl, rfl, rfl, rfl, rfl, rfl, rfl, rfl, rfl, rfl, rfl, rfl,
      rfl, rfl, fun h => resetWith_disk_attached h r, rfl, rfl, rfl⟩

/-- The start of a valid configuration meets the invariant: its arrays are canonical with their images in them, and
the device sessions hold nothing. -/
theorem inv_resetWith {c : Cfg} (hv : ValidConfiguration c) (r : ResetInputs) : (State.resetWith c r).Inv where
  cfg := validCfg_iff.mpr hv
  ram := resetWith_ram_wf hv r
  rom := resetWith_rom_wf hv r
  exp := Laws.memory_ofCells_wf c.expSize r.expDraw
  disk := resetWith_disk_wf c r
  blockSize := .inl rfl
  output := Nat.le_refl 0
  inCount := rfl
  inBuf := rfl
  session := ⟨nofun, nofun, nofun, nofun⟩
  framer := fun _ => ⟨rfl, rfl⟩
  marks := .inl rfl

/-- Settles O9: both states are starts of a valid configuration (`inv_resetWith`). -/
theorem resetKeepsInv : Obligations.ResetKeepsInv := by
  refine ⟨inv_resetWith (validCfg_iff.mp (by decide)) _, fun c r s h => ?_⟩
  obtain ⟨hv, rfl⟩ := boot_eq_some h
  exact inv_resetWith hv r

end Sys2Proof.Machine
